-- ==== Sys2Proof/Word.lean ====
section
/-! DEFINITION. The CORE's word types and sizes (00_scope.md R8, R9). -/

namespace Sys2Proof

/-- An 8-bit unsigned value, `u8` (R9). -/
abbrev Byte := BitVec 8

/-- A 16-bit unsigned value, `u16` (R9). -/
abbrev Word := BitVec 16

/-- `MEM_SIZE` (R8). -/
abbrev memSize : Nat := 65536

/-- `STACK_SIZE` (R8). -/
abbrev stackSize : Nat := 256

/-- `STACK_BASE = MEM_SIZE - STACK_SIZE` (R8). -/
abbrev stackBase : Nat := 65280

/-- `TEXT_ROWS` (R8). -/
abbrev textRows : Nat := 25

/-- `TEXT_COLS` (R8). -/
abbrev textCols : Nat := 80

/-- `PIX_W` (R8). -/
abbrev pixW : Nat := 320

/-- `PIX_H` (R8). -/
abbrev pixH : Nat := 200

/-- A point of the pixel plane's coordinate system, an integer pair `(px, py)` that may lie outside
the plane (R170). -/
abbrev Point := Int × Int

end Sys2Proof
end

