-- ==== Sys2Proof/Syntax.lean ====
section
/-! DEFINITION. The instructions of the microemu bytecode, one constructor per row of the opcode map
(30_encoding.md R99). A register operand is the operand byte itself, 0 to 255 (R96). -/

namespace Sys2Proof

/-- The 44 instructions of R99, operands in encoding order (R90, R91). -/
inductive Instr where
  | halt
  | printChar (c : Byte)
  /-- `str` is the string without its terminating 0x00 (R142). -/
  | printStr (str : List Byte)
  | clearScreen
  | setColor (idx : Byte)
  | getCursor (rX rY : Byte)
  | setCursor (x y : Byte)
  | drawLine (x1 y1 x2 y2 : Word)
  | drawRect (a b c d : Word)
  | fillRect (a b c d : Word)
  | drawCircle (cx cy r : Word)
  | sleepMs (m : Word)
  | beep (f d : Word)
  | getTime (rX : Byte)
  | random (rX : Byte) (max : Word)
  | setPixel (x y : Word) (v : Byte)
  | clearPixels
  | loadReg (r : Byte) (imm : Word)
  | storeReg (r : Byte) (addr : Word)
  | push (r : Byte)
  | pop (r : Byte)
  | add (d s1 s2 : Byte)
  | sub (d s1 s2 : Byte)
  | mul (d s1 s2 : Byte)
  | div (d s1 s2 : Byte)
  | mod (d s1 s2 : Byte)
  | and (d s1 s2 : Byte)
  | or (d s1 s2 : Byte)
  | xor (d s1 s2 : Byte)
  | not (d src : Byte)
  | shl (d a : Byte)
  | shr (d a : Byte)
  | cmp (s1 s2 : Byte)
  | jmp (t : Word)
  | jz (t : Word)
  | jnz (t : Word)
  | jg (t : Word)
  | jl (t : Word)
  | call (t : Word)
  | ret
  | readChar (r : Byte)
  | loadMem (r : Byte) (addr : Word)
  | storeMem (addr : Word) (r : Byte)
  | copyMem (src dst len : Word)
  deriving DecidableEq, Repr

end Sys2Proof
end

