-- ==== Sys2Proof/Decode.lean ====
section
/-! DEFINITION. Decoding instruction bytes and encoding instructions (30_encoding.md). -/

namespace Sys2Proof

/-- The 16-bit value of two bytes in little-endian order, low byte first (R62, R91). -/
def wordOf (lo hi : Byte) : Word := hi ++ lo

/-- Bits 7:0 of a 16-bit value (R9). -/
def loByte (v : Word) : Byte := v.setWidth 8

/-- Bits 15:8 of a 16-bit value (R9). -/
def hiByte (v : Word) : Byte := (v >>> 8).setWidth 8

/-- Why a byte sequence is not an instruction. -/
inductive Reject where
  /-- An unassigned opcode byte (R101). -/
  | unknownOpcode (op : Byte)
  /-- An operand field needs bytes past the end; `consumed` bytes, the opcode's among them, were
  fetched before that field (R93, R94, R321). -/
  | truncated (consumed : Nat)
  /-- A PRINT_STR with no 0x00 up to the end; `str` is every byte after the opcode (R142). -/
  | unterminated (str : List Byte)
  deriving DecidableEq, Repr

/-- What the decoder answers: an instruction and the bytes after it, or a rejection by name. -/
inductive Decoded where
  | instr (i : Instr) (rest : List Byte)
  | reject (why : Reject)
  deriving DecidableEq, Repr

/-- Fetch8 of an operand field that starts after `consumed` bytes (R93). -/
def fetchB (consumed : Nat) (bs : List Byte) (k : Byte → List Byte → Decoded) : Decoded :=
  match bs with
  | b :: rest => k b rest
  | [] => .reject (.truncated consumed)

/-- Fetch16 of an operand field that starts after `consumed` bytes; with one byte left it reads
nothing (R94). -/
def fetchW (consumed : Nat) (bs : List Byte) (k : Word → List Byte → Decoded) : Decoded :=
  match bs with
  | lo :: hi :: rest => k (wordOf lo hi) rest
  | _ => .reject (.truncated consumed)

/-- The string operand (R91, R142): the bytes before the first 0x00 and the bytes after it; none where
there is no 0x00. -/
def splitString : List Byte → Option (List Byte × List Byte)
  | [] => none
  | b :: rest =>
    if b = 0#8 then some ([], rest) else
      match splitString rest with
      | some (str, after) => some (b :: str, after)
      | none => none

/-- Format `OB` of R99. -/
def fmtB (mk : Byte → Instr) (bs : List Byte) : Decoded :=
  fetchB 1 bs fun a rest => .instr (mk a) rest

/-- Formats `OBB` and `ORR`. -/
def fmtBB (mk : Byte → Byte → Instr) (bs : List Byte) : Decoded :=
  fetchB 1 bs fun a bs => fetchB 2 bs fun b rest => .instr (mk a b) rest

/-- Format `ORRR`. -/
def fmtBBB (mk : Byte → Byte → Byte → Instr) (bs : List Byte) : Decoded :=
  fetchB 1 bs fun a bs => fetchB 2 bs fun b bs => fetchB 3 bs fun c rest => .instr (mk a b c) rest

/-- Format `OW`. -/
def fmtW (mk : Word → Instr) (bs : List Byte) : Decoded :=
  fetchW 1 bs fun a rest => .instr (mk a) rest

/-- Format `OWW`. -/
def fmtWW (mk : Word → Word → Instr) (bs : List Byte) : Decoded :=
  fetchW 1 bs fun a bs => fetchW 3 bs fun b rest => .instr (mk a b) rest

/-- Format `OWWW`. -/
def fmtWWW (mk : Word → Word → Word → Instr) (bs : List Byte) : Decoded :=
  fetchW 1 bs fun a bs => fetchW 3 bs fun b bs => fetchW 5 bs fun c rest => .instr (mk a b c) rest

/-- Format `OWWWW`. -/
def fmtWWWW (mk : Word → Word → Word → Word → Instr) (bs : List Byte) : Decoded :=
  fetchW 1 bs fun a bs => fetchW 3 bs fun b bs => fetchW 5 bs fun c bs => fetchW 7 bs fun d rest =>
    .instr (mk a b c d) rest

/-- Format `ORW`. -/
def fmtBW (mk : Byte → Word → Instr) (bs : List Byte) : Decoded :=
  fetchB 1 bs fun a bs => fetchW 2 bs fun b rest => .instr (mk a b) rest

/-- Format `OWR`. -/
def fmtWB (mk : Word → Byte → Instr) (bs : List Byte) : Decoded :=
  fetchW 1 bs fun a bs => fetchB 3 bs fun b rest => .instr (mk a b) rest

/-- Format `OWWB`. -/
def fmtWWB (mk : Word → Word → Byte → Instr) (bs : List Byte) : Decoded :=
  fetchW 1 bs fun a bs => fetchW 3 bs fun b bs => fetchB 5 bs fun c rest => .instr (mk a b c) rest

/-- Format `OS`. -/
def fmtS (mk : List Byte → Instr) (bs : List Byte) : Decoded :=
  match splitString bs with
  | some (str, rest) => .instr (mk str) rest
  | none => .reject (.unterminated bs)

/-- The opcode map (R99): the operand bytes `bs` read as the format of the opcode byte `op` says, left
to right (R98); a byte that is not in the map is rejected (R101). -/
def decodeOp (op : Byte) (bs : List Byte) : Decoded :=
  match op with
  | 0x00#8 => .instr .halt bs
  | 0x01#8 => fmtB .printChar bs
  | 0x02#8 => fmtS .printStr bs
  | 0x04#8 => .instr .clearScreen bs
  | 0x05#8 => fmtB .setColor bs
  | 0x06#8 => fmtBB .getCursor bs
  | 0x07#8 => fmtBB .setCursor bs
  | 0x08#8 => fmtWWWW .drawLine bs
  | 0x09#8 => fmtWWWW .drawRect bs
  | 0x0A#8 => fmtWWWW .fillRect bs
  | 0x0B#8 => fmtWWW .drawCircle bs
  | 0x20#8 => fmtW .sleepMs bs
  | 0x21#8 => fmtWW .beep bs
  | 0x22#8 => fmtB .getTime bs
  | 0x23#8 => fmtBW .random bs
  | 0x30#8 => fmtWWB .setPixel bs
  | 0x31#8 => .instr .clearPixels bs
  | 0x40#8 => fmtBW .loadReg bs
  | 0x41#8 => fmtBW .storeReg bs
  | 0x42#8 => fmtB .push bs
  | 0x43#8 => fmtB .pop bs
  | 0x50#8 => fmtBBB .add bs
  | 0x51#8 => fmtBBB .sub bs
  | 0x52#8 => fmtBBB .mul bs
  | 0x53#8 => fmtBBB .div bs
  | 0x54#8 => fmtBBB .mod bs
  | 0x55#8 => fmtBBB .and bs
  | 0x56#8 => fmtBBB .or bs
  | 0x57#8 => fmtBBB .xor bs
  | 0x58#8 => fmtBB .not bs
  | 0x59#8 => fmtBB .shl bs
  | 0x5A#8 => fmtBB .shr bs
  | 0x5B#8 => fmtBB .cmp bs
  | 0x60#8 => fmtW .jmp bs
  | 0x61#8 => fmtW .jz bs
  | 0x62#8 => fmtW .jnz bs
  | 0x63#8 => fmtW .jg bs
  | 0x64#8 => fmtW .jl bs
  | 0x65#8 => fmtW .call bs
  | 0x66#8 => .instr .ret bs
  | 0x70#8 => fmtB .readChar bs
  | 0x80#8 => fmtBW .loadMem bs
  | 0x81#8 => fmtWB .storeMem bs
  | 0x82#8 => fmtWWW .copyMem bs
  | _ => .reject (.unknownOpcode op)

/-- One instruction from the front of a byte sequence (R90, R104). With no byte at all there is no
opcode to fetch; no step of a running machine meets that (R95). -/
def decode : List Byte → Decoded
  | [] => .reject (.truncated 0)
  | op :: bs => decodeOp op bs

/-- The bytes of a 16-bit operand, low byte first (R91). -/
def wordBytes (v : Word) : List Byte := [loByte v, hiByte v]

/-- The byte layout of R99. -/
def encode : Instr → List Byte
  | .halt => [0x00#8]
  | .printChar c => [0x01#8, c]
  | .printStr str => 0x02#8 :: (str ++ [0x00#8])
  | .clearScreen => [0x04#8]
  | .setColor idx => [0x05#8, idx]
  | .getCursor rX rY => [0x06#8, rX, rY]
  | .setCursor x y => [0x07#8, x, y]
  | .drawLine x1 y1 x2 y2 => 0x08#8 :: (wordBytes x1 ++ wordBytes y1 ++ wordBytes x2 ++ wordBytes y2)
  | .drawRect a b c d => 0x09#8 :: (wordBytes a ++ wordBytes b ++ wordBytes c ++ wordBytes d)
  | .fillRect a b c d => 0x0A#8 :: (wordBytes a ++ wordBytes b ++ wordBytes c ++ wordBytes d)
  | .drawCircle cx cy r => 0x0B#8 :: (wordBytes cx ++ wordBytes cy ++ wordBytes r)
  | .sleepMs m => 0x20#8 :: wordBytes m
  | .beep f d => 0x21#8 :: (wordBytes f ++ wordBytes d)
  | .getTime rX => [0x22#8, rX]
  | .random rX max => 0x23#8 :: rX :: wordBytes max
  | .setPixel x y v => 0x30#8 :: (wordBytes x ++ wordBytes y ++ [v])
  | .clearPixels => [0x31#8]
  | .loadReg r imm => 0x40#8 :: r :: wordBytes imm
  | .storeReg r addr => 0x41#8 :: r :: wordBytes addr
  | .push r => [0x42#8, r]
  | .pop r => [0x43#8, r]
  | .add d s1 s2 => [0x50#8, d, s1, s2]
  | .sub d s1 s2 => [0x51#8, d, s1, s2]
  | .mul d s1 s2 => [0x52#8, d, s1, s2]
  | .div d s1 s2 => [0x53#8, d, s1, s2]
  | .mod d s1 s2 => [0x54#8, d, s1, s2]
  | .and d s1 s2 => [0x55#8, d, s1, s2]
  | .or d s1 s2 => [0x56#8, d, s1, s2]
  | .xor d s1 s2 => [0x57#8, d, s1, s2]
  | .not d src => [0x58#8, d, src]
  | .shl d a => [0x59#8, d, a]
  | .shr d a => [0x5A#8, d, a]
  | .cmp s1 s2 => [0x5B#8, s1, s2]
  | .jmp t => 0x60#8 :: wordBytes t
  | .jz t => 0x61#8 :: wordBytes t
  | .jnz t => 0x62#8 :: wordBytes t
  | .jg t => 0x63#8 :: wordBytes t
  | .jl t => 0x64#8 :: wordBytes t
  | .call t => 0x65#8 :: wordBytes t
  | .ret => [0x66#8]
  | .readChar r => [0x70#8, r]
  | .loadMem r addr => 0x80#8 :: r :: wordBytes addr
  | .storeMem addr r => 0x81#8 :: (wordBytes addr ++ [r])
  | .copyMem src dst len => 0x82#8 :: (wordBytes src ++ wordBytes dst ++ wordBytes len)

/-- The length in bytes, the length column of R99 (R100). -/
def instrLength : Instr → Nat
  | .halt | .clearScreen | .clearPixels | .ret => 1
  | .printChar _ | .setColor _ | .getTime _ | .push _ | .pop _ | .readChar _ => 2
  | .printStr str => str.length + 2
  | .getCursor _ _ | .setCursor _ _ | .sleepMs _ | .not _ _ | .shl _ _ | .shr _ _ | .cmp _ _ => 3
  | .jmp _ | .jz _ | .jnz _ | .jg _ | .jl _ | .call _ => 3
  | .random _ _ | .loadReg _ _ | .storeReg _ _ | .loadMem _ _ | .storeMem _ _ => 4
  | .add _ _ _ | .sub _ _ _ | .mul _ _ _ | .div _ _ _ | .mod _ _ _ => 4
  | .and _ _ _ | .or _ _ _ | .xor _ _ _ => 4
  | .beep _ _ => 5
  | .setPixel _ _ _ => 6
  | .drawCircle _ _ _ | .copyMem _ _ _ => 7
  | .drawLine _ _ _ _ | .drawRect _ _ _ _ | .fillRect _ _ _ _ => 9

/-- `n` bytes of a table word, bit 0 the least significant bit of the first byte. -/
def tableBytes : Nat → Nat → List Byte
  | 0, _ => []
  | n + 1, w => BitVec.ofNat 8 (w % 256) :: tableBytes n (w / 256)

/-- The bytes of a table word of `nbits` bits, then zeros up to the longest instruction of fixed
length (9 bytes); they also end a PRINT_STR's string. -/
def tableWordBytes (nbits w : Nat) : List Byte :=
  tableBytes (nbits / 8) w ++ List.replicate (10 - nbits / 8) 0#8 ++ [0#8]

/-- What the decoder reads from an instruction whose bits are `w`, numbered as the opcode table
numbers them. -/
def decodeTableWord (nbits w : Nat) : Option Instr :=
  match decode (tableWordBytes nbits w) with
  | .instr i _ => some i
  | .reject _ => none

end Sys2Proof
end

