-- ==== Sys2Proof/Config.lean ====
section
/-! DEFINITION. What an implementation fixes: the spec's OPEN parameters (R8) as plain data, and the
free values (R14), which are constants with no body. -/

namespace Sys2Proof

/-- The kinds of architectural fault (R13, R321). -/
inductive FaultKind where
  | unknownOpcode
  | decodeRange
  | dataRange
  deriving DecidableEq, Repr

/-- The two shift instructions, the argument `op` of `shift_large` (R250, R251). -/
inductive ShiftOp where
  | shl
  | shr
  deriving DecidableEq, Repr

/-- The OPEN parameter `rect_form` (R174, D15). -/
inductive RectForm where
  | xywh
  | x1y1x2y2
  deriving DecidableEq, Repr

/-- The OPEN parameter `shift_large` (R250, D7): the default result 0, the admitted alternative
"count mod 16", and any other function of the operands, which nothing constrains. -/
inductive ShiftLargeForm where
  | zero
  | countMod16
  | other
  deriving DecidableEq, Repr

/-- The parameter `line_pixels` (R173, D14): the default algorithm, or any other function of the end
points, which nothing constrains. -/
inductive LineForm where
  | bresenham
  | other
  deriving DecidableEq, Repr

/-- The parameter `circle_pixels` (R175, D14): the default algorithm, or any other function of the
centre and the radius, which nothing constrains. -/
inductive CircleForm where
  | midpoint
  | other
  deriving DecidableEq, Repr

/-- The values of the spec's parameters on one machine (R8). They are fixed for the machine: no step
writes them. DESIGN CHOICE, safe: they stand in State as plain data, so that a statement over every
state holds for every value of every parameter (log entry 5). -/
structure Config where
  rectForm : RectForm
  shiftLarge : ShiftLargeForm
  linePixels : LineForm
  circlePixels : CircleForm
  /-- `diag_bytes(UNKNOWN_OPCODE)` (R326). -/
  diagUnknownOpcode : List Byte
  /-- `diag_bytes(DECODE_RANGE)` (R326). -/
  diagDecodeRange : List Byte
  /-- `diag_bytes(DATA_RANGE)` (R326). -/
  diagDataRange : List Byte
  deriving DecidableEq, Repr

/-- The default diagnostic of R326: the 21 bytes of `Error: Unknown opcode`, then 0x0A. -/
def Config.defaultDiag : List Byte :=
  [0x45, 0x72, 0x72, 0x6F, 0x72, 0x3A, 0x20, 0x55, 0x6E, 0x6B, 0x6E, 0x6F, 0x77, 0x6E, 0x20,
   0x6F, 0x70, 0x63, 0x6F, 0x64, 0x65, 0x0A]

/-- The default value of every parameter, as the table of R8 gives it. -/
def Config.specDefaults : Config where
  rectForm := .xywh
  shiftLarge := .zero
  linePixels := .bresenham
  circlePixels := .midpoint
  diagUnknownOpcode := Config.defaultDiag
  diagDecodeRange := Config.defaultDiag
  diagDataRange := Config.defaultDiag

/-- Free value: the host's seconds counter `now_seconds()` at the n-th draw (R202, D23; log entry 6). -/
opaque Config.nowSeconds : Nat → BitVec 32

/-- Free value: the host's random source at the n-th draw, before it is brought into the range RANDOM
asks for (R203, D22; log entry 6). -/
opaque Config.randomSample : Nat → Word

/-- Free value: whether a CMP with a bad register index keeps `flags` (true) or clears all of it
(false) at the n-th draw (R252, D6; log entry 6). -/
opaque Config.cmpKeepsFlags : Nat → Bool

/-- Free value: whether SET_COLOR sets `dirty` (true) or leaves it (false) at the n-th draw (R134,
D18; log entry 6). -/
opaque Config.colorRaisesDirty : Nat → Bool

/-- Free function: the value of `shift_large` under `ShiftLargeForm.other` (R250; log entry 5). -/
opaque Config.otherShiftLarge : ShiftOp → Word → Word → Word

/-- Free function: the value of `line_pixels` under `LineForm.other` (R173; log entry 5). -/
opaque Config.otherLinePixels : Word → Word → Word → Word → List Point

/-- Free function: the value of `circle_pixels` under `CircleForm.other` (R175; log entry 5). -/
opaque Config.otherCirclePixels : Word → Word → Word → List Point

end Sys2Proof
end

