-- ==== Sys2Proof/Machine/State.lean ====
section
/-! DEFINITION. The state of the CORE (10_state.md), as plain data, and the state after reset. -/

namespace Sys2Proof.Machine

/-- `ram` (R60): the bytes that differ from 0x00, by address. An address that is not listed reads as
0x00, the value `load` fills `ram` with (R360; log entry 1). -/
abbrev Memory := List Host.Cell

/-- Why a run ended: the register `stop_reason` (R33). -/
inductive StopReason where
  | none
  | halted
  | pcEnd
  | faultUnknownOpcode
  | faultDecodeRange
  | faultDataRange
  | shutdown
  deriving DecidableEq, Repr

/-- One cell of the text plane (R35). -/
structure TextCell where
  code : Byte
  color : BitVec 4
  deriving DecidableEq, Repr

/-- One row of the pixel plane, by column (R36). -/
abbrev PixelRow := Vector Bool 320

/-- The device surface (10_state.md section 6, R35 to R41). -/
structure Surface where
  /-- `cells[row][col]` (R35). -/
  cells : Vector (Vector TextCell 80) 25
  /-- `pixels[y][x]` (R36). -/
  pixels : Vector PixelRow 200
  /-- `cursor_x` (R37). -/
  cursorX : Word
  /-- `cursor_y` (R37). -/
  cursorY : Word
  /-- `current_color` (R38). -/
  color : BitVec 4
  /-- `pixel_mode` (R39). -/
  pixelMode : Bool
  /-- `cursor_visible` (R40). -/
  cursorVisible : Bool
  /-- `dirty` (R41). -/
  dirty : Bool
  deriving DecidableEq, Repr

/-- The key alphabet `K` of R290: 0x20 to 0x7E, 0x0A and 0x08. -/
inductive Key where
  /-- The byte `0x20 + n`. -/
  | printable (n : Fin 95)
  /-- The byte 0x0A. -/
  | newline
  /-- The byte 0x08. -/
  | backspace
  deriving DecidableEq, Repr

/-- A device operation the shell may use between runs (R336, R340). -/
inductive DeviceOp where
  | putchar (b : Byte)
  | clearText
  | setColor (idx : Byte)
  | setCursor (x y : Byte)
  | setPixel (x y : Word) (v : Byte)
  | clearPixels
  | drawLine (x1 y1 x2 y2 : Word)
  | drawRect (a b c d : Word)
  | fillRect (a b c d : Word)
  | drawCircle (cx cy r : Word)
  deriving DecidableEq, Repr

/-- A move of the host that acts on the CORE's state (R340). -/
inductive HostMove where
  | load (blob : List Byte)
  | keyEvent (k : Key)
  | shutdown
  | sleepDone
  | beepDone
  | clearDirty
  | device (op : DeviceOp)
  deriving DecidableEq, Repr

/-- One turn of the schedule that says who moves next (R342; log entry 7): a host move, or the CORE,
which then starts its next instruction or, while it holds, looks at the key mailbox. -/
inductive Turn where
  | core
  | host (m : HostMove)
  deriving DecidableEq, Repr

/-- What the CORE holds for at a suspension point (R330), with the request it made of the host (R200,
R201) or the destination and the `seq0` of READ_CHAR (R290). -/
inductive Suspension where
  | sleep (ms : Word)
  | beep (f d : Word)
  | readChar (r : Byte) (seq0 : Nat)
  deriving DecidableEq, Repr

/-- Everything the spec gives the machine (R46), and the model's own `config`, `schedule` and `draws`
(log entries 5, 6 and 7). -/
structure State where
  /-- `ram` (R60). -/
  ram : Memory
  /-- `R0` to `R7` (R20). -/
  regs : Vector Word 8
  /-- `pc`, a 17-bit counter (R25). -/
  pc : BitVec 17
  /-- `sp` (R29). -/
  sp : Word
  /-- `flags` (R30). -/
  flags : Byte
  /-- `running` (R32). -/
  running : Bool
  /-- `stop_reason` (R33). -/
  stopReason : StopReason
  /-- The device surface (R35 to R41). -/
  surface : Surface
  /-- `key_slot` (R42). -/
  keySlot : Byte
  /-- `key_seq`; the spec leaves its width to the model (R42). -/
  keySeq : Nat
  /-- `shutdown` (R43). -/
  shutdown : Bool
  /-- The suspension point the CORE is holding at, if any (R330, R342). -/
  hold : Option Suspension
  /-- The values of the spec's parameters (R8); no step writes them. -/
  config : Config
  /-- The host's coming moves, oldest first (R342). -/
  schedule : List Turn
  /-- How many free values have been drawn (R14). -/
  draws : Nat
  deriving DecidableEq, Repr

/-- The stops the spec names without giving a meaning: a model fault, never a final state (R13, R323).
The architectural faults of R321 are NOT here: they end in a next state whose `running` is 0 (R325). -/
inductive Fault where
  /-- `STACK_SPLIT_PUSH` (R323): raised by PUSH with `sp = 1`. Safe: the model stops where the
  hardware may go on. -/
  | stackSplitPush
  /-- `STACK_SPLIT_POP` (R323): raised by POP and RET with `sp = 254`, which no run reaches. Safe. -/
  | stackSplitPop
  /-- `CALL_STACK_FULL` (R323): raised by CALL with `sp <= 1`. Safe. -/
  | callStackFull
  /-- `CALL_AT_TOP` (R323): raised by CALL whose post-operand PC is 0x10000. Safe. -/
  | callAtTop
  /-- `BADREG_AND_RANGE` (R323): raised by LOAD_MEM, STORE_MEM and STORE_REG with a register byte of 8
  or more and the address 0xFFFF. Safe. -/
  | badRegAndRange
  /-- Raised by PUSH, POP, CALL and RET with `sp > 255`: the stack byte would lie past 0xFFFF (R70). No
  run reaches such an `sp` (R29). Safe (log entry 13). -/
  | stackOutsideRam
  deriving DecidableEq, Repr

/-- Why an instruction has no meaning here. -/
inductive Refusal where
  /-- Raised by `exec` for an instruction with no meaning yet; no arm of `exec` raises it. Safe. -/
  | notModelled (mnemonic : String)
  deriving DecidableEq, Repr

/-- The blank surface the model starts from. DESIGN CHOICE, unsafe: the spec gives the surface no
power-on value (`surface_init` is OPEN, R45, R363; log entry 3); `cursor_visible` is 1 (R40). -/
def Surface.initial : Surface where
  cells := Vector.replicate 25 (Vector.replicate 80 ⟨0x20#8, 0#4⟩)
  pixels := Vector.replicate 200 (Vector.replicate 320 false)
  cursorX := 0#16
  cursorY := 0#16
  color := 0#4
  pixelMode := false
  cursorVisible := true
  dirty := false

/-- Power-on, before any load (R45, R363). The machine elements the spec leaves unspecified there hold
the values a load gives them; no instruction can observe them (log entry 20; log entry 4 for the key
mailbox). -/
def State.powerOn : State where
  ram := []
  regs := Vector.replicate 8 0#16
  pc := 0#17
  sp := 255#16
  flags := 0#8
  running := false
  stopReason := .none
  surface := Surface.initial
  keySlot := 0#8
  keySeq := 0
  shutdown := false
  hold := none
  config := Config.specDefaults
  schedule := []
  draws := 0

/-- The machine right after its only reset, `load` (R360), of the empty program on the power-on state:
`ram` zero, `R0` to `R7` 0, `pc` 0, `sp` 255, `flags` 0x00, `running` 1, `stop_reason` NONE (log
entry 2). -/
def State.reset : State where
  ram := []
  regs := Vector.replicate 8 0#16
  pc := 0#17
  sp := 255#16
  flags := 0#8
  running := true
  stopReason := .none
  surface := Surface.initial
  keySlot := 0#8
  keySeq := 0
  shutdown := false
  hold := none
  config := Config.specDefaults
  schedule := []
  draws := 0

end Sys2Proof.Machine
end

