-- ==== Sys2Proof/Machine/Raster.lean ====
section
/-! DEFINITION. The pixel-plane primitives and the shapes' pixel sets (41_graphics.md section 1). -/

namespace Sys2Proof.Machine

/-- `pixels[y][x]`, false outside the 320 x 200 plane (R36). -/
def Surface.pixel (sur : Surface) (x y : Nat) : Bool :=
  match sur.pixels[y]? with
  | some row => row[x]?.getD false
  | none => false

/-- `pixels[y][x] <- v`; nothing is written outside the plane (R36). -/
def Surface.putPixel (sur : Surface) (x y : Nat) (v : Bool) : Surface :=
  match sur.pixels[y]? with
  | some row => { sur with pixels := sur.pixels.setIfInBounds y (row.setIfInBounds x v) }
  | none => sur

/-- `Plot(px, py)`: sets one pixel, dropping a point outside the plane (R170). -/
def Surface.plot (sur : Surface) (p : Point) : Surface :=
  if 0 ≤ p.1 ∧ p.1 < pixW ∧ 0 ≤ p.2 ∧ p.2 < pixH then sur.putPixel p.1.toNat p.2.toNat true else sur

/-- `Plot` of each point in turn (R176). -/
def Surface.plotAll (sur : Surface) (points : List Point) : Surface :=
  points.foldl Surface.plot sur

/-- Every shape operation ends so (R176), and `SetPixel` too (R171). -/
def Surface.shown (sur : Surface) : Surface :=
  { sur with pixelMode := true, dirty := true }

/-- `SetPixel(x, y, v)` (R171). -/
def Surface.setPixel (sur : Surface) (x y : Word) (v : Byte) : Surface :=
  (if x.toNat < pixW ∧ y.toNat < pixH then sur.putPixel x.toNat y.toNat (v != 0#8) else sur).shown

/-- `ClearPixels()` (R172). -/
def Surface.clearPixels (sur : Surface) : Surface :=
  { sur with pixels := Vector.replicate 200 (Vector.replicate 320 false),
             pixelMode := false, dirty := true }

/-- The loop of the default `line_pixels` (R173), at most `fuel` points of it; `dy` is negative or
zero, as there. -/
def bresenhamLoop (dx dy sx sy x1 y1 : Int) : Nat → Int → Int → Int → List Point
  | 0, _, _, _ => []
  | fuel + 1, x, y, err =>
    (x, y) ::
      if x = x1 ∧ y = y1 then [] else
        bresenhamLoop dx dy sx sy x1 y1 fuel
          (if 2 * err ≥ dy then x + sx else x)
          (if 2 * err ≤ dx then y + sy else y)
          (err + (if 2 * err ≥ dy then dy else 0) + (if 2 * err ≤ dx then dx else 0))

/-- The default `line_pixels` (R173): all-octant integer Bresenham, both end points included. A line
has `max(|dx|, |dy|) + 1` points, which is the fuel. -/
def bresenhamLine (x0 y0 x1 y1 : Int) : List Point :=
  bresenhamLoop (x1 - x0).natAbs (-(y1 - y0).natAbs) (if x0 < x1 then 1 else -1)
    (if y0 < y1 then 1 else -1) x1 y1 (max (x1 - x0).natAbs (y1 - y0).natAbs + 1) x0 y0
    ((x1 - x0).natAbs - (y1 - y0).natAbs)

/-- The parameter `line_pixels` (R173). -/
def linePixels (config : Config) (x1 y1 x2 y2 : Word) : List Point :=
  match config.linePixels with
  | .bresenham => bresenhamLine x1.toNat y1.toNat x2.toNat y2.toNat
  | .other => Config.otherLinePixels x1 y1 x2 y2

/-- The eight points of one turn of the loop of R175. -/
def octants (cx cy x y : Int) : List Point :=
  [(cx + x, cy + y), (cx - x, cy + y), (cx + x, cy - y), (cx - x, cy - y),
   (cx + y, cy + x), (cx - y, cy + x), (cx + y, cy - x), (cx - y, cy - x)]

/-- The loop of the default `circle_pixels` (R175), at most `fuel` turns of it. -/
def midpointLoop (cx cy : Int) : Nat → Int → Int → Int → List Point
  | 0, _, _, _ => []
  | fuel + 1, x, y, err =>
    if x ≥ y then
      octants cx cy x y ++
        if err < 0 then midpointLoop cx cy fuel x (y + 1) (err + 2 * (y + 1) + 1)
        else midpointLoop cx cy fuel (x - 1) (y + 1) (err + 2 * ((y + 1) - (x - 1)) + 1)
    else []

/-- The default `circle_pixels` (R175): the midpoint circle. The loop has at most `r + 1` turns, which
is the fuel. -/
def midpointCircle (cx cy : Int) (r : Nat) : List Point :=
  midpointLoop cx cy (r + 1) r 0 (1 - r)

/-- The parameter `circle_pixels` (R175). -/
def circlePixels (config : Config) (cx cy r : Word) : List Point :=
  match config.circlePixels with
  | .midpoint => midpointCircle cx.toNat cy.toNat r.toNat
  | .other => Config.otherCirclePixels cx cy r

/-- The sides of a rectangle, all inclusive (R174). -/
structure Rect where
  x0 : Nat
  x1 : Nat
  y0 : Nat
  y1 : Nat
  deriving DecidableEq, Repr

/-- The rectangle four operands name under the parameter `rect_form`, none where the sets are empty
(R174); the sums do not wrap. -/
def rectOf (form : RectForm) (a b c d : Word) : Option Rect :=
  match form with
  | .xywh =>
    if c = 0#16 ∨ d = 0#16 then none
    else some ⟨a.toNat, a.toNat + c.toNat - 1, b.toNat, b.toNat + d.toNat - 1⟩
  | .x1y1x2y2 =>
    some ⟨min a.toNat c.toNat, max a.toNat c.toNat, min b.toNat d.toNat, max b.toNat d.toNat⟩

/-- Membership in `rect_fill` (R174). -/
def Rect.fills (r : Rect) (x y : Nat) : Bool :=
  (decide (r.y0 ≤ y) && decide (y ≤ r.y1)) && (decide (r.x0 ≤ x) && decide (x ≤ r.x1))

/-- Membership in `rect_outline` (R174). -/
def Rect.outlines (r : Rect) (x y : Nat) : Bool :=
  r.fills x y && ((decide (x = r.x0) || decide (x = r.x1)) || (decide (y = r.y0) || decide (y = r.y1)))

/-- A row of pixels, from column `x` on, with every column in the set added. -/
def addToRow (inSet : Nat → Bool) : Nat → List Bool → List Bool
  | _, [] => []
  | x, p :: rest => (p || inSet x) :: addToRow inSet (x + 1) rest

theorem length_addToRow (inSet : Nat → Bool) (x : Nat) (row : List Bool) :
    (addToRow inSet x row).length = row.length := by
  induction row generalizing x with
  | nil => rfl
  | cons p rest ih => simp [addToRow, ih]

/-- The rows of pixels, from row `y` on, with every point in the set added. -/
def addToRows (inSet : Nat → Nat → Bool) : Nat → List PixelRow → List PixelRow
  | _, [] => []
  | y, row :: rest =>
    ⟨⟨addToRow (fun x => inSet x y) 0 row.toList⟩, by simp [length_addToRow]⟩ ::
      addToRows inSet (y + 1) rest

theorem length_addToRows (inSet : Nat → Nat → Bool) (y : Nat) (rows : List PixelRow) :
    (addToRows inSet y rows).length = rows.length := by
  induction rows generalizing y with
  | nil => rfl
  | cons row rest ih => simp [addToRows, ih]

/-- `Plot` of every point of a set given by membership: the pixels of the plane that lie in the set
become 1, and the points outside the plane are dropped (R170, R174). -/
def Surface.plotWhere (sur : Surface) (inSet : Nat → Nat → Bool) : Surface :=
  { sur with pixels := ⟨⟨addToRows inSet 0 sur.pixels.toList⟩, by simp [length_addToRows]⟩ }

/-- `DrawLine` (R176, R180). -/
def Surface.drawLine (sur : Surface) (config : Config) (x1 y1 x2 y2 : Word) : Surface :=
  (sur.plotAll (linePixels config x1 y1 x2 y2)).shown

/-- `DrawRect` (R176, R181). -/
def Surface.drawRect (sur : Surface) (config : Config) (a b c d : Word) : Surface :=
  match rectOf config.rectForm a b c d with
  | some r => (sur.plotWhere r.outlines).shown
  | none => sur.shown

/-- `FillRect` (R176, R182). -/
def Surface.fillRect (sur : Surface) (config : Config) (a b c d : Word) : Surface :=
  match rectOf config.rectForm a b c d with
  | some r => (sur.plotWhere r.fills).shown
  | none => sur.shown

/-- `DrawCircle` (R176, R183). -/
def Surface.drawCircle (sur : Surface) (config : Config) (cx cy r : Word) : Surface :=
  (sur.plotAll (circlePixels config cx cy r)).shown

end Sys2Proof.Machine
end

