-- ==== Sys2Proof/Machine/Surface.lean ====
section
/-! DEFINITION. The text-plane primitives of the device surface (40_halt_and_text.md section 1). -/

namespace Sys2Proof.Machine

/-- `cells[row][col]`, none outside the 25 x 80 plane (R35). -/
def Surface.cell (sur : Surface) (row col : Nat) : Option TextCell :=
  match sur.cells[row]? with
  | some r => r[col]?
  | none => none

/-- `cells[row][col] <- c`; nothing is written outside the plane (R35). -/
def Surface.putCell (sur : Surface) (row col : Nat) (c : TextCell) : Surface :=
  match sur.cells[row]? with
  | some r => { sur with cells := sur.cells.setIfInBounds row (r.setIfInBounds col c) }
  | none => sur

/-- A row of spaces in `current_color` (R132, R133). -/
def Surface.blankLine (sur : Surface) : Vector TextCell 80 :=
  Vector.replicate 80 ⟨0x20#8, sur.color⟩

/-- The rows `1..24` of the plane, then `bottom` as row 24. -/
def shiftUp (cells : Vector (Vector TextCell 80) 25) (bottom : Vector TextCell 80) :
    Vector (Vector TextCell 80) 25 :=
  ⟨⟨cells.toList.tail ++ [bottom]⟩, by simp⟩

/-- `Scroll()` (R132). -/
def Surface.scroll (sur : Surface) : Surface :=
  { sur with cells := shiftUp sur.cells sur.blankLine }

/-- `cursor_x >= 80` wraps to the next line first (R131). -/
def Surface.wrapLine (sur : Surface) : Surface :=
  if sur.cursorX.toNat ≥ textCols then { sur with cursorX := 0#16, cursorY := sur.cursorY + 1#16 } else sur

/-- `cursor_y >= 25` scrolls and leaves the cursor on row 24 (R131). -/
def Surface.scrollIfBelow (sur : Surface) : Surface :=
  if sur.cursorY.toNat ≥ textRows then { sur.scroll with cursorY := 24#16 } else sur

/-- `cells[cursor_y][cursor_x] <- (b, current_color); cursor_x <- cursor_x + 1` (R131). -/
def Surface.storeChar (sur : Surface) (b : Byte) : Surface :=
  { sur.putCell sur.cursorY.toNat sur.cursorX.toNat ⟨b, sur.color⟩ with cursorX := sur.cursorX + 1#16 }

/-- `PutPrintable(b)` (R131). -/
def Surface.putPrintable (sur : Surface) (b : Byte) : Surface :=
  sur.wrapLine.scrollIfBelow.storeChar b

/-- What `Putchar(b)` does to the cells and the cursor (R130). -/
def Surface.moveOrPrint (sur : Surface) (b : Byte) : Surface :=
  if b = 0x0A#8 then { sur with cursorY := sur.cursorY + 1#16, cursorX := 0#16 }
  else if b = 0x0D#8 then { sur with cursorX := 0#16 }
  else if b = 0x08#8 then { sur with cursorX := if sur.cursorX = 0#16 then 0#16 else sur.cursorX - 1#16 }
  else if b = 0x09#8 then { sur with cursorX := (sur.cursorX + 4#16) &&& 0xFFFC#16 }
  else sur.putPrintable b

/-- `Putchar(b)` (R130). -/
def Surface.putchar (sur : Surface) (b : Byte) : Surface :=
  { sur.moveOrPrint b with dirty := true }

/-- `Putchar` of each byte in turn (R142, R325). -/
def Surface.putchars (sur : Surface) (bytes : List Byte) : Surface :=
  bytes.foldl Surface.putchar sur

/-- `ClearText()` (R133). -/
def Surface.clearText (sur : Surface) : Surface :=
  { sur with cells := Vector.replicate 25 sur.blankLine, cursorX := 0#16, cursorY := 0#16,
             pixelMode := false, dirty := true }

/-- `SetColor(idx)` (R134); `raises` is the free choice of `dirty <- draw({dirty, 1})`. -/
def Surface.setColor (sur : Surface) (idx : Byte) (raises : Bool) : Surface :=
  { sur with color := if idx.toNat < 16 then idx.setWidth 4 else sur.color,
             dirty := sur.dirty || raises }

/-- `SetCursor(x, y)`: each coordinate moves on its own (R135). -/
def Surface.setCursor (sur : Surface) (x y : Byte) : Surface :=
  { sur with cursorX := if x.toNat < textCols then x.setWidth 16 else sur.cursorX,
             cursorY := if y.toNat < textRows then y.setWidth 16 else sur.cursorY,
             dirty := sur.dirty || (decide (x.toNat < textCols) || decide (y.toNat < textRows)) }

end Sys2Proof.Machine
end

