-- ==== Sys2Proof/Machine/Ops.lean ====
section
/-! DEFINITION. The named operations: memory and its bounds checker (20_memory.md), the stack
(43_register_and_stack.md section 1), the ends of a run and fault entry (60_exceptions.md), load
(70_reset_and_hazards.md). -/

namespace Sys2Proof.Machine

/-- How a step or a meaning ends (R13). -/
abbrev Result := Host.Outcome State Fault Refusal

/-! ### Memory -/

/-- `ram[a]` (R60); an address that is not listed holds 0x00 (R360). -/
def Memory.read : Memory → Nat → Byte
  | [], _ => 0#8
  | (k, v) :: rest, a => if a < k then 0#8 else if a = k then v else Memory.read rest a

/-- `ram[a] <- b`, keeping the canonical form: writing 0x00 removes the entry. -/
def Memory.write : Memory → Nat → Byte → Memory
  | [], a, b => if b = 0#8 then [] else [(a, b)]
  | (k, v) :: rest, a, b =>
    if a < k then (if b = 0#8 then (k, v) :: rest else (a, b) :: (k, v) :: rest)
    else if a = k then (if b = 0#8 then rest else (a, b) :: rest)
    else (k, v) :: Memory.write rest a b

/-- The canonical form from address `lo` on: addresses strictly rising and below `MEM_SIZE`, no entry
equal to 0x00. -/
def Memory.wfFrom : Nat → Memory → Bool
  | _, [] => true
  | lo, (k, v) :: rest =>
    decide (lo ≤ k) && decide (k < memSize) && (v != 0#8) && Memory.wfFrom (k + 1) rest

/-- The canonical form of memory. -/
def Memory.wf (m : Memory) : Bool := Memory.wfFrom 0 m

/-- `ram[a .. a + n - 1]`, lowest address first. -/
def Memory.readBytes (m : Memory) (a : Nat) : Nat → List Byte
  | 0 => []
  | n + 1 => m.read a :: Memory.readBytes m (a + 1) n

/-- Writes bytes to consecutive addresses from `a` on. -/
def Memory.writeBytes (m : Memory) (a : Nat) : List Byte → Memory
  | [] => m
  | b :: rest => Memory.writeBytes (m.write a b) (a + 1) rest

/-- The canonical memory that holds `bytes` from address `a` on and 0x00 elsewhere. -/
def Memory.ofBytes (a : Nat) : List Byte → Memory
  | [] => []
  | b :: rest => if b = 0#8 then Memory.ofBytes (a + 1) rest else (a, b) :: Memory.ofBytes (a + 1) rest

/-- The width `n` of an access, 1 or 2 bytes (R11). -/
inductive Width where
  | one
  | two
  deriving DecidableEq, Repr

/-- The width in bytes. -/
def widthBytes : Width → Nat
  | .one => 1
  | .two => 2

/-- The bounds checker: `addr + width <= MEM_SIZE`, the sum not wrapping (R64, R65, R66). -/
def inBounds (addr : Word) (n : Nat) : Bool := decide (addr.toNat + n ≤ memSize)

/-- `MemRead(addr, n)`; none where the bounds check fails (R64). -/
def State.memRead (s : State) (addr : Word) (w : Width) : Option Word :=
  if inBounds addr (widthBytes w) then
    match w with
    | .one => some ((s.ram.read addr.toNat).setWidth 16)
    | .two => some (wordOf (s.ram.read addr.toNat) (s.ram.read (addr.toNat + 1)))
  else none

/-- `MemWrite(addr, n, v)`; none, and no byte written, where the bounds check fails (R65). -/
def State.memWrite (s : State) (addr : Word) (w : Width) (v : Word) : Option State :=
  if inBounds addr (widthBytes w) then
    match w with
    | .one => some { s with ram := s.ram.write addr.toNat (loByte v) }
    | .two =>
      some { s with ram := (s.ram.write addr.toNat (loByte v)).write (addr.toNat + 1) (hiByte v) }
  else none

/-- `ram[dst + i] <- ram[src + i]` for `i < len`, every byte read before any is written (R303). -/
def State.copyBytes (s : State) (src dst len : Nat) : State :=
  { s with ram := s.ram.writeBytes dst (s.ram.readBytes src len) }

/-! ### The ends of a run -/

/-- A stop (R13, R32): `running <- 0` and the reason; the CORE holds at nothing any more. -/
def State.stop (s : State) (why : StopReason) : State :=
  { s with running := false, stopReason := why, hold := none }

/-- The code of a fault in `stop_reason` (R321). -/
def faultReason : FaultKind → StopReason
  | .unknownOpcode => .faultUnknownOpcode
  | .decodeRange => .faultDecodeRange
  | .dataRange => .faultDataRange

/-- `diag_bytes(k)` (R326). -/
def diagBytes (config : Config) : FaultKind → List Byte
  | .unknownOpcode => config.diagUnknownOpcode
  | .decodeRange => config.diagDecodeRange
  | .dataRange => config.diagDataRange

/-- Fault entry, `raise Fault(k)` (R325): the run ends, `pc` stays as it stands, the diagnostic goes
through `Putchar`. There is no return from a fault (R320, R327): only `load` starts a run again. -/
def State.raiseFault (s : State) (k : FaultKind) : State :=
  { s.stop (faultReason k) with surface := s.surface.putchars (diagBytes s.config k) }

/-- The 3-bit code of `stop_reason` (R33). -/
def stopCode : StopReason → BitVec 3
  | .none => 0
  | .halted => 1
  | .pcEnd => 2
  | .faultUnknownOpcode => 3
  | .faultDecodeRange => 4
  | .faultDataRange => 5
  | .shutdown => 6

/-! ### The program counter -/

/-- `pc` advanced past `n` fetched bytes (R26, R93, R94). -/
def State.advance (s : State) (n : Nat) : State := { s with pc := s.pc + BitVec.ofNat 17 n }

/-- `pc <- t` for a 16-bit target (R270). -/
def State.jump (s : State) (t : Word) : State := { s with pc := t.setWidth 17 }

/-- The loop test after an instruction: `pc = 0x10000` ends the run with PC_END (R27, R104). An
instruction that still holds has not completed (R342). -/
def State.loopTest (s : State) : State :=
  if s.running && s.hold.isNone && decide (memSize ≤ s.pc.toNat) then s.stop .pcEnd else s

/-! ### The stack -/

/-- The address of the stack byte at offset `sp` (R70). -/
def stackAddr (sp : Word) : Nat := stackBase + sp.toNat

/-- `Push16(v)` (R220): low byte first, at the higher address; dropped at `sp = 0`. -/
def State.push16 (s : State) (v : Word) : Result :=
  if s.sp = 0#16 then .next s
  else if s.sp = 1#16 then .fault .stackSplitPush
  else if 255 < s.sp.toNat then .fault .stackOutsideRam
  else
    .next { s with
      ram := (s.ram.write (stackAddr s.sp) (loByte v)).write (stackAddr (s.sp - 1#16)) (hiByte v),
      sp := s.sp - 2#16 }

/-- What `Pop16()` answers (R221). -/
inductive Popped where
  | dropped
  | value (v : Word) (s : State)
  | unspecified (f : Fault)

/-- `Pop16()` (R221): the last pushed byte first; dropped at `sp = 255`. -/
def State.pop16 (s : State) : Popped :=
  if s.sp = 255#16 then .dropped
  else if s.sp = 254#16 then .unspecified .stackSplitPop
  else if 255 < s.sp.toNat then .unspecified .stackOutsideRam
  else
    .value (wordOf (s.ram.read (stackAddr (s.sp + 2#16))) (s.ram.read (stackAddr (s.sp + 1#16))))
      { s with sp := s.sp + 2#16 }

/-! ### Load -/

/-- What `load` answers the host: `Ok` with the new state, `ErrTooLarge`, or not accepted because a
run is in progress (R340, R360, R361). -/
inductive LoadResult where
  | ok (s : State)
  | errTooLarge
  | notAccepted

/-- `load(blob)`, the CORE's only reset (R360, R361). -/
def State.load (s : State) (blob : List Byte) : LoadResult :=
  if s.running then .notAccepted
  else if memSize < blob.length then .errTooLarge
  else
    .ok { s with
      ram := Memory.ofBytes 0 blob, regs := Vector.replicate 8 0#16, pc := 0#17, sp := 255#16, flags := 0#8,
      running := true, stopReason := .none, hold := none,
      surface := { s.surface with cursorVisible := true } }

end Sys2Proof.Machine
end

