-- ==== Sys2Proof/Machine/Operands.lean ====
section
/-! DEFINITION. Register operands (R21, R22, R23, R96) and the operand frames the ALU rules share
(44_alu.md R240). -/

namespace Sys2Proof.Machine

/-- `reg_read(i)`: none for a bad register index, 8 to 255 (R21, R23). -/
def State.reg (s : State) (r : Byte) : Option Word := s.regs[r.toNat]?

/-- `reg_write(i, v)`: a bad register index skips the write (R21, R22). -/
def State.setReg (s : State) (r : Byte) (v : Word) : State :=
  { s with regs := s.regs.setIfInBounds r.toNat v }

/-- The three-register frame of R240: both sources are read, then `x[d]` is written with what `f`
gives; nothing is written where an index is bad or `f` gives nothing. -/
def State.alu3 (s : State) (d s1 s2 : Byte) (f : Word → Word → Option Word) : State :=
  match s.reg s1, s.reg s2 with
  | some a, some b =>
    match f a b with
    | some v => s.setReg d v
    | none => s
  | _, _ => s

/-- `shift_large(op, v, c)` for `c >= 16`, an OPEN parameter whose default is 0 (R250, R251, D7). -/
def shiftLarge (config : Config) (op : ShiftOp) (v c : Word) : Word :=
  match config.shiftLarge with
  | .zero => 0#16
  | .countMod16 =>
    match op with
    | .shl => v <<< (c.toNat % 16)
    | .shr => v >>> (c.toNat % 16)
  | .other => Config.otherShiftLarge op v c

/-- The result of SHL and SHR for the value `v` and the count `c` (R250, R251). -/
def shiftResult (config : Config) (op : ShiftOp) (v c : Word) : Word :=
  if c.toNat < 16 then
    match op with
    | .shl => v <<< c.toNat
    | .shr => v >>> c.toNat
  else shiftLarge config op v c

/-- The frame of SHL and SHR: `x[d]` is the value and the destination, `x[a]` the count, both read
before the write (R240, R250, R251). -/
def State.aluShift (s : State) (op : ShiftOp) (d a : Byte) : State :=
  match s.reg d, s.reg a with
  | some v, some c => s.setReg d (shiftResult s.config op v c)
  | _, _ => s

/-- `RandMod(n)`: a sample of `{0, .., n}` (R203). Every member of the set is a value of this for some
raw sample. -/
def randMod (n raw : Word) : Word := BitVec.ofNat 16 (raw.toNat % (n.toNat + 1))

end Sys2Proof.Machine
end

