-- ==== Sys2Proof/Machine/Flags.lean ====
section
/-! DEFINITION. The flags register (R30, R31): what CMP writes and what the conditional jumps test. -/

namespace Sys2Proof.Machine

/-- `flags[0]`, Z (R30). -/
def State.flagZ (s : State) : Bool := s.flags.getLsbD 0

/-- `flags[1]`, G (R30). -/
def State.flagG (s : State) : Bool := s.flags.getLsbD 1

/-- `flags[2]`, L (R30). -/
def State.flagL (s : State) : Bool := s.flags.getLsbD 2

/-- The flags byte of an unsigned comparison (R252): Z, G or L, every other bit 0. -/
def cmpFlags (a b : Word) : Byte :=
  if a = b then 0x01#8 else if b.toNat < a.toNat then 0x02#8 else 0x04#8

/-- The flags after a CMP with a bad register index: `draw({flags, 0x00})` (R252, D6). -/
def badCmpFlags (flags : Byte) (n : Nat) : Byte :=
  if Config.cmpKeepsFlags n then flags else 0x00#8

/-- A conditional jump: `pc <- t` where the condition holds; otherwise `pc` stays at the post-operand
address (R270). -/
def State.jumpIf (s : State) (cond : Bool) (t : Word) : State := if cond then s.jump t else s

end Sys2Proof.Machine
end

