-- ==== Sys2Proof/Machine/Alu.lean ====
section
/-! DEFINITION. The ALU instructions (44_alu.md). -/

namespace Sys2Proof.Machine

/-- ADD (R241). -/
def execAdd (d s1 s2 : Byte) (s : State) : Result :=
  .next (s.alu3 d s1 s2 fun a b => some (a + b))

/-- SUB (R242). -/
def execSub (d s1 s2 : Byte) (s : State) : Result :=
  .next (s.alu3 d s1 s2 fun a b => some (a - b))

/-- MUL (R243). -/
def execMul (d s1 s2 : Byte) (s : State) : Result :=
  .next (s.alu3 d s1 s2 fun a b => some (a * b))

/-- DIV (R244): unsigned; with divisor 0 nothing is written. -/
def execDiv (d s1 s2 : Byte) (s : State) : Result :=
  .next (s.alu3 d s1 s2 fun a b => if b = 0#16 then none else some (a / b))

/-- MOD (R245): unsigned; with divisor 0 nothing is written. -/
def execMod (d s1 s2 : Byte) (s : State) : Result :=
  .next (s.alu3 d s1 s2 fun a b => if b = 0#16 then none else some (a % b))

/-- AND (R246). -/
def execAnd (d s1 s2 : Byte) (s : State) : Result :=
  .next (s.alu3 d s1 s2 fun a b => some (a &&& b))

/-- OR (R247). -/
def execOr (d s1 s2 : Byte) (s : State) : Result :=
  .next (s.alu3 d s1 s2 fun a b => some (a ||| b))

/-- XOR (R248). -/
def execXor (d s1 s2 : Byte) (s : State) : Result :=
  .next (s.alu3 d s1 s2 fun a b => some (a ^^^ b))

/-- NOT (R249). -/
def execNot (d src : Byte) (s : State) : Result :=
  .next (s.alu3 d src src fun a _ => some (a ^^^ 0xFFFF#16))

/-- SHL (R250). -/
def execShl (d a : Byte) (s : State) : Result := .next (s.aluShift .shl d a)

/-- SHR (R251). -/
def execShr (d a : Byte) (s : State) : Result := .next (s.aluShift .shr d a)

/-- CMP (R252): with a bad register index the flags are a free choice (D6). -/
def execCmp (s1 s2 : Byte) (s : State) : Result :=
  match s.reg s1, s.reg s2 with
  | some a, some b => .next { s with flags := cmpFlags a b }
  | _, _ => .next { s with flags := badCmpFlags s.flags s.draws, draws := s.draws + 1 }

end Sys2Proof.Machine
end

