-- ==== Sys2Proof/Machine/Control.lean ====
section
/-! DEFINITION. The control-transfer instructions (45_control_transfer.md). -/

namespace Sys2Proof.Machine

/-- JMP (R271). -/
def execJmp (t : Word) (s : State) : Result := .next (s.jump t)

/-- JZ (R272). -/
def execJz (t : Word) (s : State) : Result := .next (s.jumpIf s.flagZ t)

/-- JNZ (R273). -/
def execJnz (t : Word) (s : State) : Result := .next (s.jumpIf (!s.flagZ) t)

/-- JG (R274). -/
def execJg (t : Word) (s : State) : Result := .next (s.jumpIf s.flagG t)

/-- JL (R275). -/
def execJl (t : Word) (s : State) : Result := .next (s.jumpIf s.flagL t)

/-- CALL (R276): pushes the post-operand PC and jumps. A post-operand PC past 0xFFFF is no 16-bit
address, and a full stack has no meaning (D30, D4). -/
def execCall (t : Word) (s : State) : Result :=
  if memSize ≤ s.pc.toNat then .fault .callAtTop
  else if s.sp.toNat ≤ 1 then .fault .callStackFull
  else
    match s.push16 (s.pc.setWidth 16) with
    | .next u => .next (u.jump t)
    | .fault f => .fault f
    | .refused r => .refused r

/-- RET (R277): a drop leaves `pc` at the byte after RET. -/
def execRet (s : State) : Result :=
  match s.pop16 with
  | .dropped => .next s
  | .value v t => .next (t.jump v)
  | .unspecified f => .fault f

end Sys2Proof.Machine
end

