-- ==== Sys2Proof/Machine/Graphics.lean ====
section
/-! DEFINITION. The pixel-plane instructions (41_graphics.md section 2). -/

namespace Sys2Proof.Machine

/-- DRAW_LINE (R180). -/
def execDrawLine (x1 y1 x2 y2 : Word) (s : State) : Result :=
  .next { s with surface := s.surface.drawLine s.config x1 y1 x2 y2 }

/-- DRAW_RECT (R181). -/
def execDrawRect (a b c d : Word) (s : State) : Result :=
  .next { s with surface := s.surface.drawRect s.config a b c d }

/-- FILL_RECT (R182). -/
def execFillRect (a b c d : Word) (s : State) : Result :=
  .next { s with surface := s.surface.fillRect s.config a b c d }

/-- DRAW_CIRCLE (R183). -/
def execDrawCircle (cx cy r : Word) (s : State) : Result :=
  .next { s with surface := s.surface.drawCircle s.config cx cy r }

/-- SET_PIXEL (R184). -/
def execSetPixel (x y : Word) (v : Byte) (s : State) : Result :=
  .next { s with surface := s.surface.setPixel x y v }

/-- CLEAR_PIXELS (R185). -/
def execClearPixels (s : State) : Result := .next { s with surface := s.surface.clearPixels }

end Sys2Proof.Machine
end

