-- ==== Sys2Proof/Machine/HostMoves.lean ====
section
/-! DEFINITION. The host's moves (R340), the schedule that says who moves next (R342), and the holds at
the suspension points (R330, R333, R290). -/

namespace Sys2Proof.Machine

/-- The byte of a key of the alphabet (R290). -/
def keyCode : Key → Byte
  | .printable n => BitVec.ofNat 8 (0x20 + n.val)
  | .newline => 0x0A#8
  | .backspace => 0x08#8

/-- A device operation of the shell on the surface (R336). `raises` is SetColor's free choice (R134). -/
def applyDevice (config : Config) (raises : Bool) (op : DeviceOp) (sur : Surface) : Surface :=
  match op with
  | .putchar b => sur.putchar b
  | .clearText => sur.clearText
  | .setColor idx => sur.setColor idx raises
  | .setCursor x y => sur.setCursor x y
  | .setPixel x y v => sur.setPixel x y v
  | .clearPixels => sur.clearPixels
  | .drawLine x1 y1 x2 y2 => sur.drawLine config x1 y1 x2 y2
  | .drawRect a b c d => sur.drawRect config a b c d
  | .fillRect a b c d => sur.fillRect config a b c d
  | .drawCircle cx cy r => sur.drawCircle config cx cy r

/-- One host move (R340). `load` is accepted, and the shell's device operations are allowed, only
while `running = 0`; a host that makes one during a run breaks a prohibition, and the model leaves its
move without effect (DESIGN CHOICE, log entry 10). A `sleep_done` or `beep_done` that no hold waits
for changes nothing. -/
def applyMove (m : HostMove) (s : State) : State :=
  match m with
  | .load blob =>
    match s.load blob with
    | .ok t => t
    | .errTooLarge | .notAccepted => s
  | .keyEvent k => { s with keySlot := keyCode k, keySeq := s.keySeq + 1 }
  | .shutdown => { s with shutdown := true }
  | .sleepDone | .beepDone => s
  | .clearDirty => { s with surface := { s.surface with dirty := false } }
  | .device op =>
    if s.running then s
    else
      { s with surface := applyDevice s.config (Config.colorRaisesDirty s.draws) op s.surface,
               draws := s.draws + 1 }

/-- The host's moves up to the CORE's next turn, in order; the rest stays in the schedule (R342). -/
def applyTurns : List Turn → State → State
  | [], s => { s with schedule := [] }
  | .core :: rest, s => { s with schedule := rest }
  | .host m :: rest, s => applyTurns rest (applyMove m s)

/-- The host's moves before the CORE starts its next instruction. A CORE that holds meets them in its
hold instead. -/
def State.hostTurns (s : State) : State :=
  if s.running && s.hold.isSome then s else applyTurns s.schedule s

/-- The hold is over: the CORE goes on at the post-operand PC, and the turns `rest` are still to come. -/
def State.endHold (s : State) (rest : List Turn) : State :=
  { s with hold := none, schedule := rest }

/-- READ_CHAR's register write, after the hold: `x[r] <- zext_16(key_slot)`, skipped for a bad index
(R291). -/
def State.takeKey (s : State) (r : Byte) : State := s.setReg r (s.keySlot.setWidth 16)

/-- The CORE's look at the mailbox during a hold: READ_CHAR ends once `key_seq` has changed since the
instruction began (R290); the other holds wait for the host's signal. -/
def keyArrived (h : Suspension) (s : State) : Bool :=
  match h with
  | .readChar _ seq0 => s.keySeq != seq0
  | .sleep _ | .beep _ _ => false

/-- Whether a host move lifts a hold by itself (R330). -/
def lifts (m : HostMove) (h : Suspension) : Bool :=
  match h with
  | .sleep _ => decide (m = .sleepDone)
  | .beep _ _ => decide (m = .beepDone)
  | .readChar _ _ => false

/-- The instruction's effect once its hold is lifted: none for SLEEP_MS and BEEP (R200, R201), the
register write for READ_CHAR (R291). -/
def afterHold (h : Suspension) (s : State) : State :=
  match h with
  | .readChar r _ => s.takeKey r
  | .sleep _ | .beep _ _ => s

/-- Where the schedule has no turn left during a hold (R330; log entries 8 and 9): a key that has
arrived is taken (R290); without a host event the CORE goes on holding, SLEEP_MS and BEEP with their
request (R200, R201). -/
def holdAtEnd (h : Suspension) (s : State) : State :=
  if keyArrived h s then afterHold h (s.endHold []) else { s with hold := some h, schedule := [] }

/-- A hold, turn by turn (R330, R333): the flag is tested on every host event, and a set flag ends the
run with SHUTDOWN and no register write; the host's signal, or a key the CORE sees on its own turn,
lifts the hold. -/
def holdLoop (h : Suspension) : List Turn → State → State
  | [], s => holdAtEnd h s
  | .core :: rest, s => if keyArrived h s then afterHold h (s.endHold rest) else holdLoop h rest s
  | .host m :: rest, s =>
    if (applyMove m s).shutdown then (State.stop { applyMove m s with schedule := rest } .shutdown)
    else if lifts m h then afterHold h ((applyMove m s).endHold rest)
    else holdLoop h rest (applyMove m s)

/-- Arrival at a suspension point, or a hold taken up again: `shutdown` is tested first, after the
operands were fetched (R333, R324). -/
def State.suspend (s : State) (h : Suspension) : State :=
  if s.shutdown then s.stop .shutdown else holdLoop h s.schedule s

end Sys2Proof.Machine
end

