-- ==== Sys2Proof/Machine/Input.lean ====
section
/-! DEFINITION. The keyboard input instruction (46_input.md). -/

namespace Sys2Proof.Machine

/-- READ_CHAR (R291): holds until a key arrives after the instruction began (R290). -/
def execReadChar (r : Byte) (s : State) : Result := .next (s.suspend (.readChar r s.keySeq))

end Sys2Proof.Machine
end

