-- ==== Sys2Proof/Machine/RegStack.lean ====
section
/-! DEFINITION. Register load and store, and the stack (43_register_and_stack.md section 2). -/

namespace Sys2Proof.Machine

/-- The 16-bit store STORE_REG and STORE_MEM make (R226, R302): with a bad register index nothing is
written, and the address 0xFFFF has no meaning then (R300). -/
def State.storeWord (s : State) (addr : Word) (r : Byte) : Result :=
  match s.reg r with
  | some v =>
    match s.memWrite addr .two v with
    | some t => .next t
    | none => .next (s.raiseFault .dataRange)
  | none => if addr = 0xFFFF#16 then .fault .badRegAndRange else .next s

/-- LOAD_REG (R225). -/
def execLoadReg (r : Byte) (imm : Word) (s : State) : Result := .next (s.setReg r imm)

/-- STORE_REG (R226). -/
def execStoreReg (r : Byte) (addr : Word) (s : State) : Result := s.storeWord addr r

/-- PUSH (R227): a bad index pushes nothing (R23). -/
def execPush (r : Byte) (s : State) : Result :=
  match s.reg r with
  | some v => s.push16 v
  | none => .next s

/-- POP (R228): a bad index still pops (R22). -/
def execPop (r : Byte) (s : State) : Result :=
  match s.pop16 with
  | .dropped => .next s
  | .value v t => .next (t.setReg r v)
  | .unspecified f => .fault f

end Sys2Proof.Machine
end

