-- ==== Sys2Proof/Machine/MemoryInstrs.lean ====
section
/-! DEFINITION. The memory instructions (47_memory_ops.md). -/

namespace Sys2Proof.Machine

/-- LOAD_MEM (R301): a bad index discards the value read, and with the address 0xFFFF it has no meaning
(R300). -/
def execLoadMem (r : Byte) (addr : Word) (s : State) : Result :=
  if 8 ≤ r.toNat ∧ addr = 0xFFFF#16 then .fault .badRegAndRange
  else
    match s.memRead addr .two with
    | some v => .next (s.setReg r v)
    | none => .next (s.raiseFault .dataRange)

/-- STORE_MEM (R302). -/
def execStoreMem (addr : Word) (r : Byte) (s : State) : Result := s.storeWord addr r

/-- COPY_MEM (R303): both ranges are checked before any byte moves. -/
def execCopyMem (src dst len : Word) (s : State) : Result :=
  if inBounds src len.toNat && inBounds dst len.toNat then
    .next (s.copyBytes src.toNat dst.toNat len.toNat)
  else .next (s.raiseFault .dataRange)

end Sys2Proof.Machine
end

