-- ==== Sys2Proof/Machine/Text.lean ====
section
/-! DEFINITION. HALT and the text-plane instructions (40_halt_and_text.md section 2). A meaning is run
with `pc` at the post-operand PC (R26, R98). -/

namespace Sys2Proof.Machine

/-- HALT (R140). -/
def execHalt (s : State) : Result := .next (s.stop .halted)

/-- PRINT_CHAR (R141). -/
def execPrintChar (c : Byte) (s : State) : Result :=
  .next { s with surface := s.surface.putchar c }

/-- PRINT_STR (R142), of a string whose terminator was found. The string is fetched before it is
printed, which gives the same bytes: PRINT_STR writes no `ram` (R371; log entry 16). A string with no
terminator is `State.printUnterminated`. -/
def execPrintStr (str : List Byte) (s : State) : Result :=
  .next { s with surface := s.surface.putchars str }

/-- PRINT_STR with no 0x00 up to 0xFFFF (R142, R325): every byte goes through `Putchar`, then
Fault(DECODE_RANGE), with `pc` where the failing fetch stands. -/
def State.printUnterminated (s : State) (str : List Byte) : State :=
  State.raiseFault { s with surface := s.surface.putchars str } .decodeRange

/-- CLEAR_SCREEN (R143). -/
def execClearScreen (s : State) : Result := .next { s with surface := s.surface.clearText }

/-- SET_COLOR (R144), with the free choice of `dirty` (R134, D18). -/
def execSetColor (idx : Byte) (s : State) : Result :=
  .next { s with surface := s.surface.setColor idx (Config.colorRaisesDirty s.draws),
                 draws := s.draws + 1 }

/-- GET_CURSOR (R145): `x[rY]` is written second. -/
def execGetCursor (rX rY : Byte) (s : State) : Result :=
  .next ((s.setReg rX s.surface.cursorX).setReg rY s.surface.cursorY)

/-- SET_CURSOR (R146). -/
def execSetCursor (x y : Byte) (s : State) : Result :=
  .next { s with surface := s.surface.setCursor x y }

end Sys2Proof.Machine
end

