-- ==== Sys2Proof/Machine/TimeSound.lean ====
section
/-! DEFINITION. Time, sound and random instructions (42_time_sound_random.md). -/

namespace Sys2Proof.Machine

/-- SLEEP_MS (R205, R200): a hold, and no effect besides. -/
def execSleepMs (m : Word) (s : State) : Result := .next (s.suspend (.sleep m))

/-- BEEP (R206, R201): a hold, and no effect besides. -/
def execBeep (f d : Word) (s : State) : Result := .next (s.suspend (.beep f d))

/-- GET_TIME (R207): the low 16 bits of the host's seconds counter, a free value (R202). -/
def execGetTime (rX : Byte) (s : State) : Result :=
  .next { s.setReg rX ((Config.nowSeconds s.draws).setWidth 16) with draws := s.draws + 1 }

/-- RANDOM (R208): a free sample of `{0, .., max}` (R203). -/
def execRandom (rX : Byte) (max : Word) (s : State) : Result :=
  .next { s.setReg rX (randMod max (Config.randomSample s.draws)) with draws := s.draws + 1 }

end Sys2Proof.Machine
end

