-- ==== Sys2Proof/Machine/Dispatch.lean ====
section
/-! DEFINITION. The dispatch of R104: one meaning per instruction. -/

namespace Sys2Proof.Machine

def exec (i : Instr) (s : State) : Host.Outcome State Fault Refusal :=
  match i with
  | .halt => Sys2Proof.Machine.execHalt s
  | .printChar c => Sys2Proof.Machine.execPrintChar c s
  | .printStr str => Sys2Proof.Machine.execPrintStr str s
  | .clearScreen => Sys2Proof.Machine.execClearScreen s
  | .setColor idx => Sys2Proof.Machine.execSetColor idx s
  | .getCursor rX rY => Sys2Proof.Machine.execGetCursor rX rY s
  | .setCursor x y => Sys2Proof.Machine.execSetCursor x y s
  | .drawLine x1 y1 x2 y2 => Sys2Proof.Machine.execDrawLine x1 y1 x2 y2 s
  | .drawRect a b c d => Sys2Proof.Machine.execDrawRect a b c d s
  | .fillRect a b c d => Sys2Proof.Machine.execFillRect a b c d s
  | .drawCircle cx cy r => Sys2Proof.Machine.execDrawCircle cx cy r s
  | .sleepMs m => Sys2Proof.Machine.execSleepMs m s
  | .beep f d => Sys2Proof.Machine.execBeep f d s
  | .getTime rX => Sys2Proof.Machine.execGetTime rX s
  | .random rX max => Sys2Proof.Machine.execRandom rX max s
  | .setPixel x y v => Sys2Proof.Machine.execSetPixel x y v s
  | .clearPixels => Sys2Proof.Machine.execClearPixels s
  | .loadReg r imm => Sys2Proof.Machine.execLoadReg r imm s
  | .storeReg r addr => Sys2Proof.Machine.execStoreReg r addr s
  | .push r => Sys2Proof.Machine.execPush r s
  | .pop r => Sys2Proof.Machine.execPop r s
  | .add d s1 s2 => Sys2Proof.Machine.execAdd d s1 s2 s
  | .sub d s1 s2 => Sys2Proof.Machine.execSub d s1 s2 s
  | .mul d s1 s2 => Sys2Proof.Machine.execMul d s1 s2 s
  | .div d s1 s2 => Sys2Proof.Machine.execDiv d s1 s2 s
  | .mod d s1 s2 => Sys2Proof.Machine.execMod d s1 s2 s
  | .and d s1 s2 => Sys2Proof.Machine.execAnd d s1 s2 s
  | .or d s1 s2 => Sys2Proof.Machine.execOr d s1 s2 s
  | .xor d s1 s2 => Sys2Proof.Machine.execXor d s1 s2 s
  | .not d src => Sys2Proof.Machine.execNot d src s
  | .shl d a => Sys2Proof.Machine.execShl d a s
  | .shr d a => Sys2Proof.Machine.execShr d a s
  | .cmp s1 s2 => Sys2Proof.Machine.execCmp s1 s2 s
  | .jmp t => Sys2Proof.Machine.execJmp t s
  | .jz t => Sys2Proof.Machine.execJz t s
  | .jnz t => Sys2Proof.Machine.execJnz t s
  | .jg t => Sys2Proof.Machine.execJg t s
  | .jl t => Sys2Proof.Machine.execJl t s
  | .call t => Sys2Proof.Machine.execCall t s
  | .ret => Sys2Proof.Machine.execRet s
  | .readChar r => Sys2Proof.Machine.execReadChar r s
  | .loadMem r addr => Sys2Proof.Machine.execLoadMem r addr s
  | .storeMem addr r => Sys2Proof.Machine.execStoreMem addr r s
  | .copyMem src dst len => Sys2Proof.Machine.execCopyMem src dst len s

end Sys2Proof.Machine
end

