-- ==== Sys2Proof/Machine/Fetch.lean ====
section
/-! DEFINITION. Fetching an instruction from `ram` (30_encoding.md section 2 and 6). -/

namespace Sys2Proof.Machine

/-- The bytes from `pc` up to 0xFFFF, which the fetch unit can reach (R93, R94). -/
def State.fetchBytes (s : State) : List Byte :=
  s.ram.readBytes s.pc.toNat (memSize - s.pc.toNat)

/-- What the CORE does on its turn (R104). -/
inductive Cycle where
  /-- Nothing is fetched: the machine is not running (R32), or its step ended in `s` before an
  instruction (R27, R101, R93). -/
  | done (s : State)
  /-- It goes on with a hold (R342). -/
  | resume (h : Suspension) (s : State)
  /-- It runs `i` in the state `s`, whose `pc` is the post-operand PC (R98). -/
  | execute (i : Instr) (s : State)

/-- The step for bytes that are no instruction: Fault(UNKNOWN_OPCODE) with `pc` after the opcode (R101),
Fault(DECODE_RANGE) with `pc` at the field that could not be fetched (R93, R94, R321), or PRINT_STR's
output up to the end of `ram` and then that fault (R142). -/
def State.rejectFetch (s : State) : Reject → State
  | .unknownOpcode _ => (s.advance 1).raiseFault .unknownOpcode
  | .truncated consumed => (s.advance consumed).raiseFault .decodeRange
  | .unterminated str => (s.advance (1 + str.length)).printUnterminated str

/-- The front half of `Step()` (R104), for a state whose host turns have been taken. -/
def State.cycle (s : State) : Cycle :=
  if s.running then
    match s.hold with
    | some h => .resume h s
    | none =>
      if memSize ≤ s.pc.toNat then .done (s.stop .pcEnd)
      else
        match decode s.fetchBytes with
        | .instr i _ => .execute i (s.advance (instrLength i))
        | .reject why => .done (s.rejectFetch why)
  else .done s

/-- The loop test of `Step()` after an instruction (R104, R27). -/
def finish : Result → Result
  | .next s => .next s.loopTest
  | .fault f => .fault f
  | .refused r => .refused r

/-- `s` with the bytes of a table word stored at `pc`, as far as `ram` reaches, in a machine whose next
turn is the CORE's fetch (log entry 17). -/
def State.placeWord (s : State) (nbits w : Nat) : State :=
  { s with
    ram := s.ram.writeBytes s.pc.toNat ((tableWordBytes nbits w).take (memSize - s.pc.toNat)),
    running := true, hold := none, schedule := [] }

end Sys2Proof.Machine
end

