-- ==== Sys2Proof/Machine/Step.lean ====
section
/-! DEFINITION. One step of the machine (R104, R342): the host's moves up to the CORE's turn, then the
CORE's turn. -/

namespace Sys2Proof.Machine

/-- One step. A machine that is not running leaves the state as it is once the host's moves up to the
CORE's turn are made (R32, R327). -/
def step (s : State) : Host.Outcome State Fault Refusal :=
  match s.hostTurns.cycle with
  | .done t => .next t
  | .resume h t => finish (.next (t.suspend h))
  | .execute i t => finish (exec i t)

/-- `s` with the instruction whose bits are `w` stored where `step` fetches its next instruction. -/
def State.withFetchWord (s : State) (nbits w : Nat) : State := s.placeWord nbits w

end Sys2Proof.Machine
end

