-- ==== Sys2Proof/WellFormed.lean ====
section
/-! DEFINITION. Which terms of `Instr` are instructions the encoding can hold. -/

namespace Sys2Proof

/-- The string of a PRINT_STR holds no 0x00 byte: the first 0x00 is its terminator (R91, R105). Every
value of every other operand is legal (R102). -/
def Instr.wellFormed : Instr → Bool
  | .printStr str => str.all (fun b => b != 0#8)
  | .halt | .printChar _ | .clearScreen | .setColor _ | .getCursor _ _ | .setCursor _ _ => true
  | .drawLine _ _ _ _ | .drawRect _ _ _ _ | .fillRect _ _ _ _ | .drawCircle _ _ _ => true
  | .sleepMs _ | .beep _ _ | .getTime _ | .random _ _ | .setPixel _ _ _ | .clearPixels => true
  | .loadReg _ _ | .storeReg _ _ | .push _ | .pop _ => true
  | .add _ _ _ | .sub _ _ _ | .mul _ _ _ | .div _ _ _ | .mod _ _ _ => true
  | .and _ _ _ | .or _ _ _ | .xor _ _ _ | .not _ _ | .shl _ _ | .shr _ _ | .cmp _ _ => true
  | .jmp _ | .jz _ | .jnz _ | .jg _ | .jl _ | .call _ | .ret => true
  | .readChar _ | .loadMem _ _ | .storeMem _ _ | .copyMem _ _ _ => true

end Sys2Proof
end

