-- ==== Sys2Proof/Safety.lean ====
section
/-! DEFINITION. The terms claims are stated in: the machine's invariant, and what each instruction may
write. -/

namespace Sys2Proof

open Sys2Proof.Machine

/-! ### The invariant -/

/-- `sp` is odd and lies in `0..255` (R29, R220). -/
def stackLegal (s : State) : Bool := decide (s.sp.toNat ≤ 255) && s.sp.getLsbD 0

/-- At most one of Z, G and L is set, and bits 7:3 are 0 (R30, R31). -/
def flagsLegal (s : State) : Bool :=
  decide (s.flags = 0#8 ∨ s.flags = 1#8 ∨ s.flags = 2#8 ∨ s.flags = 4#8)

/-- `pc <= 0x10000`, and `pc <= 0xFFFF` while the machine runs at an instruction boundary (R25, R27). -/
def pcLegal (s : State) : Bool :=
  decide (s.pc.toNat ≤ memSize) && (!(s.running && s.hold.isNone) || decide (s.pc.toNat < memSize))

/-- A running machine has no stop reason (R33, R360), and only a running machine holds (R330). -/
def runLegal (s : State) : Bool :=
  (!s.running || decide (s.stopReason = .none)) && (!s.hold.isSome || s.running)

/-- What holds in every state a run reaches: `ram` is in its canonical form, all its addresses below
`MEM_SIZE` (R66), `sp`, `flags`, `pc` and the run state are legal, and `cursor_visible` is 1 (R40). -/
def Machine.State.inv (s : State) : Bool :=
  s.ram.wf && stackLegal s && flagsLegal s && pcLegal s && runLegal s && s.surface.cursorVisible

/-! ### Instructions by what they name -/

/-- The destination registers of an instruction, by operand byte: the column "writes" of R24. -/
def destRegs : Instr → List Byte
  | .getCursor rX rY => [rX, rY]
  | .getTime rX | .random rX _ => [rX]
  | .loadReg r _ | .loadMem r _ | .pop r | .readChar r => [r]
  | .add d _ _ | .sub d _ _ | .mul d _ _ | .div d _ _ | .mod d _ _ => [d]
  | .and d _ _ | .or d _ _ | .xor d _ _ | .not d _ | .shl d _ | .shr d _ => [d]
  | .halt | .printChar _ | .printStr _ | .clearScreen | .setColor _ | .setCursor _ _ => []
  | .drawLine _ _ _ _ | .drawRect _ _ _ _ | .fillRect _ _ _ _ | .drawCircle _ _ _ => []
  | .sleepMs _ | .beep _ _ | .setPixel _ _ _ | .clearPixels => []
  | .storeReg _ _ | .push _ | .cmp _ _ => []
  | .jmp _ | .jz _ | .jnz _ | .jg _ | .jl _ | .call _ | .ret => []
  | .storeMem _ _ | .copyMem _ _ _ => []

/-- The first address and the number of the bytes an instruction stores to in `ram`, if it stores any
(R61, R65, R220, R303). -/
def storedBytes (i : Instr) (s : State) : Option (Nat × Nat) :=
  match i with
  | .storeReg r addr | .storeMem addr r => if r.toNat < 8 then some (addr.toNat, 2) else none
  | .push r => if r.toNat < 8 ∧ s.sp ≠ 0#16 then some (stackAddr (s.sp - 1#16), 2) else none
  | .call _ => some (stackAddr (s.sp - 1#16), 2)
  | .copyMem _ dst len => some (dst.toNat, len.toNat)
  | .halt | .printChar _ | .printStr _ | .clearScreen | .setColor _ | .getCursor _ _ => none
  | .setCursor _ _ | .drawLine _ _ _ _ | .drawRect _ _ _ _ | .fillRect _ _ _ _ => none
  | .drawCircle _ _ _ | .sleepMs _ | .beep _ _ | .getTime _ | .random _ _ => none
  | .setPixel _ _ _ | .clearPixels | .loadReg _ _ | .pop _ => none
  | .add _ _ _ | .sub _ _ _ | .mul _ _ _ | .div _ _ _ | .mod _ _ _ => none
  | .and _ _ _ | .or _ _ _ | .xor _ _ _ | .not _ _ | .shl _ _ | .shr _ _ | .cmp _ _ => none
  | .jmp _ | .jz _ | .jnz _ | .jg _ | .jl _ | .ret | .readChar _ | .loadMem _ _ => none

/-- The three suspension points (R330). -/
def isSuspension : Instr → Bool
  | .sleepMs _ | .beep _ _ | .readChar _ => true
  | .halt | .printChar _ | .printStr _ | .clearScreen | .setColor _ | .getCursor _ _ => false
  | .setCursor _ _ | .drawLine _ _ _ _ | .drawRect _ _ _ _ | .fillRect _ _ _ _ => false
  | .drawCircle _ _ _ | .getTime _ | .random _ _ | .setPixel _ _ _ | .clearPixels => false
  | .loadReg _ _ | .storeReg _ _ | .push _ | .pop _ => false
  | .add _ _ _ | .sub _ _ _ | .mul _ _ _ | .div _ _ _ | .mod _ _ _ => false
  | .and _ _ _ | .or _ _ _ | .xor _ _ _ | .not _ _ | .shl _ _ | .shr _ _ | .cmp _ _ => false
  | .jmp _ | .jz _ | .jnz _ | .jg _ | .jl _ | .call _ | .ret => false
  | .loadMem _ _ | .storeMem _ _ | .copyMem _ _ _ => false

/-- What SLEEP_MS and BEEP hold for: their request, and the host's signal that lifts the hold (R330). -/
def timedHold : Instr → Option (Suspension × HostMove)
  | .sleepMs m => some (.sleep m, .sleepDone)
  | .beep f d => some (.beep f d, .beepDone)
  | .halt | .printChar _ | .printStr _ | .clearScreen | .setColor _ | .getCursor _ _ => none
  | .setCursor _ _ | .drawLine _ _ _ _ | .drawRect _ _ _ _ | .fillRect _ _ _ _ => none
  | .drawCircle _ _ _ | .getTime _ | .random _ _ | .setPixel _ _ _ | .clearPixels => none
  | .loadReg _ _ | .storeReg _ _ | .push _ | .pop _ => none
  | .add _ _ _ | .sub _ _ _ | .mul _ _ _ | .div _ _ _ | .mod _ _ _ => none
  | .and _ _ _ | .or _ _ _ | .xor _ _ _ | .not _ _ | .shl _ _ | .shr _ _ | .cmp _ _ => none
  | .jmp _ | .jz _ | .jnz _ | .jg _ | .jl _ | .call _ | .ret | .readChar _ => none
  | .loadMem _ _ | .storeMem _ _ | .copyMem _ _ _ => none

/-- The keys that arrive in `turns`, oldest first (R340). -/
def keysIn : List Turn → List Key
  | [] => []
  | .host (.keyEvent k) :: rest => k :: keysIn rest
  | _ :: rest => keysIn rest

/-- During a hold in which the host makes the moves in `turns`, `t` differs from `s` in nothing but what
those moves write: the key mailbox counts every key and holds the last one, and `dirty` is cleared where
the host clears it (R42, R340); besides, where the CORE stands in its hold and in the schedule. -/
abbrev onlyHostMovesIn (turns : List Turn) (s t : State) : Prop :=
  t = { s with
    keySlot := ((keysIn turns).getLast?.map keyCode).getD s.keySlot,
    keySeq := s.keySeq + (keysIn turns).length,
    surface := { s.surface with dirty := s.surface.dirty && !turns.contains (.host .clearDirty) },
    hold := t.hold, schedule := t.schedule }

/-- The instructions that write the device surface (R336). -/
def drivesSurface : Instr → Bool
  | .printChar _ | .printStr _ | .clearScreen | .setColor _ | .setCursor _ _ => true
  | .drawLine _ _ _ _ | .drawRect _ _ _ _ | .fillRect _ _ _ _ | .drawCircle _ _ _ => true
  | .setPixel _ _ _ | .clearPixels => true
  | .halt | .getCursor _ _ | .sleepMs _ | .beep _ _ | .getTime _ | .random _ _ => false
  | .loadReg _ _ | .storeReg _ _ | .push _ | .pop _ => false
  | .add _ _ _ | .sub _ _ _ | .mul _ _ _ | .div _ _ _ | .mod _ _ _ => false
  | .and _ _ _ | .or _ _ _ | .xor _ _ _ | .not _ _ | .shl _ _ | .shr _ _ | .cmp _ _ => false
  | .jmp _ | .jz _ | .jnz _ | .jg _ | .jl _ | .call _ | .ret | .readChar _ => false
  | .loadMem _ _ | .storeMem _ _ | .copyMem _ _ _ => false

/-- The instructions that may write `pc` besides the fetch: the control transfers (R26). -/
def isTransfer : Instr → Bool
  | .jmp _ | .jz _ | .jnz _ | .jg _ | .jl _ | .call _ | .ret => true
  | .halt | .printChar _ | .printStr _ | .clearScreen | .setColor _ | .getCursor _ _ => false
  | .setCursor _ _ | .drawLine _ _ _ _ | .drawRect _ _ _ _ | .fillRect _ _ _ _ => false
  | .drawCircle _ _ _ | .sleepMs _ | .beep _ _ | .getTime _ | .random _ _ => false
  | .setPixel _ _ _ | .clearPixels | .loadReg _ _ | .storeReg _ _ | .push _ | .pop _ => false
  | .add _ _ _ | .sub _ _ _ | .mul _ _ _ | .div _ _ _ | .mod _ _ _ => false
  | .and _ _ _ | .or _ _ _ | .xor _ _ _ | .not _ _ | .shl _ _ | .shr _ _ | .cmp _ _ => false
  | .readChar _ | .loadMem _ _ | .storeMem _ _ | .copyMem _ _ _ => false

/-- The instructions that move `sp` (R29). -/
def movesStack : Instr → Bool
  | .push _ | .pop _ | .call _ | .ret => true
  | .halt | .printChar _ | .printStr _ | .clearScreen | .setColor _ | .getCursor _ _ => false
  | .setCursor _ _ | .drawLine _ _ _ _ | .drawRect _ _ _ _ | .fillRect _ _ _ _ => false
  | .drawCircle _ _ _ | .sleepMs _ | .beep _ _ | .getTime _ | .random _ _ => false
  | .setPixel _ _ _ | .clearPixels | .loadReg _ _ | .storeReg _ _ => false
  | .add _ _ _ | .sub _ _ _ | .mul _ _ _ | .div _ _ _ | .mod _ _ _ => false
  | .and _ _ _ | .or _ _ _ | .xor _ _ _ | .not _ _ | .shl _ _ | .shr _ _ | .cmp _ _ => false
  | .jmp _ | .jz _ | .jnz _ | .jg _ | .jl _ => false
  | .readChar _ | .loadMem _ _ | .storeMem _ _ | .copyMem _ _ _ => false

/-- The ranges of unassigned opcode bytes, as R101 lists them. -/
def unassignedOpcode (op : Byte) : Bool :=
  let n := op.toNat
  decide (n = 0x03 ∨ (0x0C ≤ n ∧ n ≤ 0x1F) ∨ (0x24 ≤ n ∧ n ≤ 0x2F) ∨ (0x32 ≤ n ∧ n ≤ 0x3F) ∨
    (0x44 ≤ n ∧ n ≤ 0x4F) ∨ (0x5C ≤ n ∧ n ≤ 0x5F) ∨ (0x67 ≤ n ∧ n ≤ 0x6F) ∨ (0x71 ≤ n ∧ n ≤ 0x7F) ∨
    (0x83 ≤ n ∧ n ≤ 0xFF))

/-- The byte offsets, counted from the opcode, at which the operand fields of an instruction of fixed
length start, in the order they are fetched (R98, R99). -/
def fieldStarts : Instr → List Nat
  | .halt | .clearScreen | .clearPixels | .ret | .printStr _ => []
  | .printChar _ | .setColor _ | .getTime _ | .push _ | .pop _ | .readChar _ => [1]
  | .sleepMs _ | .jmp _ | .jz _ | .jnz _ | .jg _ | .jl _ | .call _ => [1]
  | .getCursor _ _ | .setCursor _ _ | .not _ _ | .shl _ _ | .shr _ _ | .cmp _ _ => [1, 2]
  | .random _ _ | .loadReg _ _ | .storeReg _ _ | .loadMem _ _ => [1, 2]
  | .storeMem _ _ | .beep _ _ => [1, 3]
  | .add _ _ _ | .sub _ _ _ | .mul _ _ _ | .div _ _ _ | .mod _ _ _ => [1, 2, 3]
  | .and _ _ _ | .or _ _ _ | .xor _ _ _ => [1, 2, 3]
  | .setPixel _ _ _ | .drawCircle _ _ _ | .copyMem _ _ _ => [1, 3, 5]
  | .drawLine _ _ _ _ | .drawRect _ _ _ _ | .fillRect _ _ _ _ => [1, 3, 5, 7]

/-- A machine at an instruction boundary whose next turn is the CORE's: it runs, holds at nothing, and
no host move is scheduled before the fetch (R104, R342). -/
abbrev atBoundary (s : State) : Prop :=
  s.running = true ∧ s.hold = none ∧ s.schedule = [] ∧ s.pc.toNat < memSize

end Sys2Proof
end

