-- ==== Sys2Proof/Certificates/Slice0/Obligations.lean ====
section
/-! DEFINITION. The statements for the provers. A meaning `exec i s` is run with `pc` at the
post-operand PC (R26); `.next` is its answer. -/

open Sys2Proof Sys2Proof.Machine

/-! ### Encoding and decoding -/

/-- Decoding the encoding of a well-formed instruction gives it back, with every operand at every
value, whatever bytes follow (R90, R91, R99, R100). -/
def Obligations.DecodeOfEncode : Prop :=
  ∀ (i : Instr) (rest : List Byte), i.wellFormed = true → decode (encode i ++ rest) = .instr i rest

/-- Bytes that decode to an instruction are its encoding and nothing else, and the instruction is well
formed (R90, R99, R102). -/
def Obligations.DecodedBytesAreTheEncoding : Prop :=
  ∀ (bs : List Byte) (i : Instr) (rest : List Byte), decode bs = .instr i rest →
    i.wellFormed = true ∧ bs = encode i ++ rest ∧ (encode i).length = instrLength i

/-- Instruction words written out from R99's byte layouts and the source's scenarios. -/
def Obligations.WrittenOutWordsDecode : Prop :=
  decode [0x40#8, 0x00#8, 0x0A#8, 0x00#8] = .instr (.loadReg 0#8 10#16) [] ∧
  decode [0x62#8, 0x08#8, 0x00#8] = .instr (.jnz 0x0008#16) [] ∧
  decode [0x81#8, 0x00#8, 0x10#8, 0x01#8] = .instr (.storeMem 0x1000#16 1#8) [] ∧
  decode [0x02#8, 0x48#8, 0x69#8, 0x00#8, 0x00#8] = .instr (.printStr [0x48#8, 0x69#8]) [0x00#8] ∧
  decode [0x30#8, 0x90#8, 0x01#8, 0x2C#8, 0x01#8, 0x01#8] = .instr (.setPixel 400#16 300#16 1#8) [] ∧
  decode [0x66#8, 0x60#8] = .instr .ret [0x60#8]

/-- R101: 212 opcode bytes are unassigned, and dispatching one, with any bytes after it, raises
Fault(UNKNOWN_OPCODE): no operand byte is fetched, `pc` is the address after the opcode, and the
diagnostic goes through `Putchar`. -/
def Obligations.UnassignedOpcodesFault : Prop :=
  ((List.range 256).filter fun n => unassignedOpcode (BitVec.ofNat 8 n)).length = 212 ∧
  ∀ (s : State), atBoundary s → unassignedOpcode (s.ram.read s.pc.toNat) = true →
    step s = .next { s with
      pc := s.pc + 1#17, running := false, stopReason := .faultUnknownOpcode,
      surface := s.surface.putchars s.config.diagUnknownOpcode }

/-- An instruction whose bytes end at 0xFFFF before its last operand field is complete faults with
DECODE_RANGE: `pc` is the address of the first field that could not be fetched, and nothing else
changes but the run state and the diagnostic (R93, R94, R98, R321, R325). At the state of the spec's
vector E5 this gives `pc = 0x10000` where the vector says 0xFFFF; that the rules and not the vector are
followed there is the model's reading (DEDUCED, log entry 21). -/
def Obligations.TruncatedInstrFaultsAtItsField : Prop :=
  ∀ (s : State) (i : Instr) (k : Nat), atBoundary s → (∀ str, i ≠ .printStr str) → 0 < k →
    k < (encode i).length → s.fetchBytes = (encode i).take k →
    ∃ n, n ∈ fieldStarts i ∧ n ≤ k ∧ (∀ m ∈ fieldStarts i, m ≤ k → m ≤ n) ∧
      step s = .next { s with
        pc := s.pc + BitVec.ofNat 17 n, running := false, stopReason := .faultDecodeRange,
        surface := s.surface.putchars s.config.diagDecodeRange }

/-- A PRINT_STR with no terminator up to 0xFFFF prints every byte after its opcode, then faults with
DECODE_RANGE at `pc = 0x10000`, and the diagnostic follows (R142, R321, R325). -/
def Obligations.UnterminatedStringPrintsThenFaults : Prop :=
  ∀ (s : State) (str : List Byte), atBoundary s → s.fetchBytes = 0x02#8 :: str → 0x00#8 ∉ str →
    step s = .next { s with
      pc := 0x10000#17, running := false, stopReason := .faultDecodeRange,
      surface := (s.surface.putchars str).putchars s.config.diagDecodeRange }

/-! ### Steps and runs -/

/-- Where, after the host's moves up to the CORE's turn, the machine runs, holds at nothing and the
bytes at `pc` decode to an instruction, the step is that instruction's meaning run at the post-operand
PC, then the loop test; an empty schedule makes no move (R104, R26, R342; the schedule is the model's,
log entry 7). -/
def Obligations.StepRunsTheDecodedInstr : Prop :=
  (∀ (s : State) (i : Instr) (rest : List Byte), s.hostTurns.running = true →
    s.hostTurns.hold = none → s.hostTurns.pc.toNat < memSize →
    decode s.hostTurns.fetchBytes = .instr i rest →
    step s = finish (exec i (s.hostTurns.advance (instrLength i)))) ∧
  (∀ s : State, s.schedule = [] → s.hostTurns = s)

/-- R27, the loop test: an instruction that completes without a stop or a fault, at once or when its
hold is lifted, has all its effects; then `pc = 0x10000` ends the run with PC_END and no diagnostic, and
any lower `pc` lets it go on. -/
def Obligations.PcEndAfterTheLastByte : Prop :=
  (∀ (s : State) (i : Instr) (rest : List Byte) (t : State), atBoundary s →
    decode s.fetchBytes = .instr i rest → exec i (s.advance (instrLength i)) = .next t →
    t.running = true → t.hold = none →
    (t.pc = 0x10000#17 → step s = .next { t with running := false, stopReason := .pcEnd }) ∧
    (t.pc.toNat < memSize → step s = .next t)) ∧
  ∀ (s : State) (h : Suspension), s.running = true → s.hold = some h →
    (s.suspend h).running = true → (s.suspend h).hold = none →
    ((s.suspend h).pc = 0x10000#17 →
      step s = .next { s.suspend h with running := false, stopReason := .pcEnd }) ∧
    ((s.suspend h).pc.toNat < memSize → step s = .next (s.suspend h))

/-- After a fault, HALT, PC_END or SHUTDOWN the CORE executes nothing until the host loads a program
again (R32, R327): with no load among the host's moves, a step of a machine that is not running
changes no register, no byte of `ram` and nothing else of the machine state, and it never faults (log
entries 7 and 11). -/
def Obligations.StoppedMachineExecutesNothing : Prop :=
  ∀ (s : State), s.running = false → (∀ blob, Turn.host (.load blob) ∉ s.schedule) →
    ∃ t, step s = .next t ∧ t.running = false ∧ t.stopReason = s.stopReason ∧ t.ram = s.ram ∧
      t.regs = s.regs ∧ t.pc = s.pc ∧ t.sp = s.sp ∧ t.flags = s.flags

/-- R360: `load` of at most 65536 bytes, accepted only while `running = 0`, puts the bytes at address
0 and 0x00 after them, zeroes the registers, `pc` and `flags`, sets `sp` to 255, `running` to 1 and
`stop_reason` to NONE, sets `cursor_visible` to 1 (R45), and changes neither the rest of the surface,
nor the key mailbox, nor `shutdown`; after a load of no bytes the first instruction is HALT (the spec's own inference in R360). -/
def Obligations.LoadSetsEveryElement : Prop :=
  (∀ (s : State) (blob : List Byte), s.running = true → s.load blob = .notAccepted) ∧
  ∀ (s : State) (blob : List Byte), s.running = false → blob.length ≤ memSize →
    ∃ t, s.load blob = .ok t ∧
      (∀ a, a < memSize → t.ram.read a = if h : a < blob.length then blob[a] else 0x00#8) ∧
      (∀ r : Byte, r.toNat < 8 → t.reg r = some 0#16) ∧ t.pc = 0#17 ∧ t.sp = 255#16 ∧
      t.flags = 0#8 ∧ t.running = true ∧ t.stopReason = .none ∧
      t.surface.cells = s.surface.cells ∧ t.surface.pixels = s.surface.pixels ∧
      t.surface.cursorX = s.surface.cursorX ∧ t.surface.cursorY = s.surface.cursorY ∧
      t.surface.color = s.surface.color ∧ t.surface.pixelMode = s.surface.pixelMode ∧
      t.surface.dirty = s.surface.dirty ∧ t.surface.cursorVisible = true ∧ t.keySlot = s.keySlot ∧ t.keySeq = s.keySeq ∧
      t.shutdown = s.shutdown ∧ t.config = s.config ∧
      (blob = [] → ∃ rest, decode t.fetchBytes = .instr .halt rest)

/-- R361: a blob of more than 65536 bytes is rejected with `ErrTooLarge`, the CORE's state does not
change, and no instruction runs (that the host's move is a turn of a schedule, and that a step of a
stopped machine leaves it, are the model's: log entries 7 and 11). -/
def Obligations.LoadTooLargeChangesNothing : Prop :=
  ∀ (s : State) (blob : List Byte), s.running = false → memSize < blob.length →
    s.load blob = .errTooLarge ∧ applyMove (.load blob) s = s ∧
    (s.schedule = [.host (.load blob)] → step s = .next { s with schedule := [] })

/-- The state after reset meets the invariant. It holds the model's own choices for the surface and
the key mailbox (log entries 3 and 4). -/
def Obligations.ResetMeetsTheInvariant : Prop := State.inv State.reset = true

/-- Every step from a state that meets the invariant leads to a state that meets it: `ram` stays
canonical with every address below 65536, `sp` odd and at most 255, `flags` with at most one of Z, G
and L set, `pc` at most 0x10000, and at most 0xFFFF while the machine runs and holds at nothing, no stop
reason while it runs, a hold only while it runs, `cursor_visible` 1. It holds for every schedule, also one with a host move that R340 prohibits, which the model leaves without effect (log entries 7 and
10). -/
def Obligations.StepKeepsTheInvariant : Prop :=
  ∀ (s t : State), s.inv = true → step s = .next t → t.inv = true

/-- No step changes a parameter of the machine, clears `shutdown` or takes `key_seq` back (R8, R42,
R43). That the parameters stand in State is the model's choice (log entry 5), and so is a `key_seq` of
no width, which a key event only raises (R42 leaves the width to the model; log entry 4). -/
def Obligations.StepsKeepWhatTheHostOwns : Prop :=
  ∀ (s t : State), step s = .next t →
    t.config = s.config ∧ (s.shutdown = true → t.shutdown = true) ∧ s.keySeq ≤ t.keySeq

/-! ### HALT and the text plane -/

/-- R140: HALT is the byte 0x00; it stops the machine with HALTED and no diagnostic, writes nothing
else, leaves `pc` after the opcode, and at 0xFFFF takes precedence over PC_END. -/
def Obligations.HaltStops : Prop :=
  (∀ s : State,
    exec .halt s = .next { s with running := false, stopReason := .halted, hold := none }) ∧
  ∀ s : State, atBoundary s → s.ram.read s.pc.toNat = 0x00#8 →
    step s = .next { s with pc := s.pc + 1#17, running := false, stopReason := .halted }

/-- PRINT_CHAR of a control byte moves the cursor and sets `dirty`; it never writes a cell and never
scrolls (R130, R141). -/
def Obligations.ControlBytesMoveTheCursor : Prop :=
  ∀ s : State,
    exec (.printChar 0x0A#8) s = .next { s with surface := { s.surface with
      cursorY := s.surface.cursorY + 1#16, cursorX := 0#16, dirty := true } } ∧
    exec (.printChar 0x0D#8) s = .next { s with surface := { s.surface with
      cursorX := 0#16, dirty := true } } ∧
    (∃ t, exec (.printChar 0x08#8) s = .next t ∧
      t = { s with surface := { s.surface with cursorX := t.surface.cursorX, dirty := true } } ∧
      t.surface.cursorX.toNat = s.surface.cursorX.toNat - 1) ∧
    ∃ t, exec (.printChar 0x09#8) s = .next t ∧
      t = { s with surface := { s.surface with cursorX := t.surface.cursorX, dirty := true } } ∧
      t.surface.cursorX.toNat = (s.surface.cursorX.toNat + 4) % 65536 / 4 * 4

/-- R131 and R132, through PRINT_CHAR: a byte that is no control byte wraps at `cursor_x >= 80`,
scrolls once at `cursor_y >= 25`, is stored with `current_color` at the cursor, and advances it.
Every other cell keeps its content, moved up one row by a scroll, whose row 24 is spaces in
`current_color`. -/
def Obligations.PrintableByteIsStoredAtTheCursor : Prop :=
  ∀ (s : State) (b : Byte), b ≠ 0x0A#8 → b ≠ 0x0D#8 → b ≠ 0x08#8 → b ≠ 0x09#8 →
    let wraps := 80 ≤ s.surface.cursorX.toNat
    let x := if wraps then 0 else s.surface.cursorX.toNat
    let y := if wraps then (s.surface.cursorY.toNat + 1) % 65536 else s.surface.cursorY.toNat
    let scrolls := 25 ≤ y
    let row := if scrolls then 24 else y
    ∃ t, exec (.printChar b) s = .next t ∧
      t = { s with surface := { s.surface with
        cells := t.surface.cells, cursorX := t.surface.cursorX, cursorY := t.surface.cursorY,
        dirty := true } } ∧
      t.surface.cursorX.toNat = x + 1 ∧ t.surface.cursorY.toNat = row ∧ row ≤ 24 ∧ x + 1 ≤ 80 ∧
      ∀ r c, r < 25 → c < 80 → t.surface.cell r c =
        if r = row ∧ c = x then some ⟨b, s.surface.color⟩
        else if scrolls then
          (if r = 24 then some ⟨0x20#8, s.surface.color⟩ else s.surface.cell (r + 1) c)
        else s.surface.cell r c

/-- PRINT_STR sends each byte of its string through the cursor as PRINT_CHAR does, in order; the empty
string prints nothing and leaves `dirty` (R142). -/
def Obligations.PrintStrPrintsByteByByte : Prop :=
  (∀ s : State, exec (.printStr []) s = .next s) ∧
  (∀ (s : State) (b : Byte) (str : List Byte), ∃ u, exec (.printChar b) s = .next u ∧
    exec (.printStr (b :: str)) s = exec (.printStr str) u) ∧
  ∀ (s : State) (str : List Byte), ∃ t, exec (.printStr str) s = .next t ∧
    t = { s with surface := { s.surface with
      cells := t.surface.cells, cursorX := t.surface.cursorX, cursorY := t.surface.cursorY,
      dirty := t.surface.dirty } } ∧ (str ≠ [] → t.surface.dirty = true)

/-- R133, through CLEAR_SCREEN: every cell becomes a space in `current_color`, the cursor goes to
(0, 0), `pixel_mode` to 0; the pixel plane does not change. -/
def Obligations.ClearScreenBlanksEveryCell : Prop :=
  ∀ s : State, ∃ t, exec .clearScreen s = .next t ∧
    (∀ r c, r < 25 → c < 80 → t.surface.cell r c = some ⟨0x20#8, s.surface.color⟩) ∧
    t = { s with surface := { s.surface with
      cells := t.surface.cells, cursorX := 0#16, cursorY := 0#16, pixelMode := false,
      dirty := true } }

/-- R134, through SET_COLOR: `current_color` becomes `idx` where `idx < 16` and keeps its value
otherwise, `dirty` is either kept or set, and nothing else changes but the count of draws, the model's
own (log entry 6). -/
def Obligations.SetColorSelectsOrIgnores : Prop :=
  ∀ (s : State) (idx : Byte), ∃ t, exec (.setColor idx) s = .next t ∧
    (idx.toNat < 16 → t.surface.color.toNat = idx.toNat) ∧
    (16 ≤ idx.toNat → t.surface.color = s.surface.color) ∧
    (t.surface.dirty = s.surface.dirty ∨ t.surface.dirty = true) ∧
    t = { s with surface := { s.surface with color := t.surface.color, dirty := t.surface.dirty },
                 draws := s.draws + 1 }

/-- GET_CURSOR writes `cursor_x` to `x[rX]`, then `cursor_y` to `x[rY]`; equal indexes leave
`cursor_y`, a bad index skips only its own write, and nothing else changes (R145, R136, R22). -/
def Obligations.GetCursorWritesBothRegisters : Prop :=
  ∀ (s : State) (rX rY : Byte), ∃ t, exec (.getCursor rX rY) s = .next t ∧
    (rY.toNat < 8 → t.reg rY = some s.surface.cursorY) ∧
    (rX.toNat < 8 → rX ≠ rY → t.reg rX = some s.surface.cursorX) ∧
    (∀ r : Byte, r ≠ rX → r ≠ rY → t.reg r = s.reg r) ∧ t = { s with regs := t.regs }

/-- R135, through SET_CURSOR: each coordinate moves only if it is in range, on its own, and `dirty` is
set if either moves. -/
def Obligations.SetCursorMovesEachCoordinate : Prop :=
  ∀ (s : State) (x y : Byte), ∃ t, exec (.setCursor x y) s = .next t ∧
    (x.toNat < 80 → t.surface.cursorX.toNat = x.toNat) ∧
    (80 ≤ x.toNat → t.surface.cursorX = s.surface.cursorX) ∧
    (y.toNat < 25 → t.surface.cursorY.toNat = y.toNat) ∧
    (25 ≤ y.toNat → t.surface.cursorY = s.surface.cursorY) ∧
    (x.toNat < 80 ∨ y.toNat < 25 → t.surface.dirty = true) ∧
    (80 ≤ x.toNat → 25 ≤ y.toNat → t.surface.dirty = s.surface.dirty) ∧
    t = { s with surface := { s.surface with
      cursorX := t.surface.cursorX, cursorY := t.surface.cursorY, dirty := t.surface.dirty } }

/-! ### The pixel plane -/

/-- DRAW_LINE and DRAW_CIRCLE set exactly the points of `line_pixels` and `circle_pixels` that lie on
the plane, clear no pixel, set `pixel_mode` and `dirty`, and change nothing else, whatever the two
parameters are (R170, R176, R180, R183; log entry 5). -/
def Obligations.LinesAndCirclesSetTheirPixels : Prop :=
  (∀ (s : State) (x1 y1 x2 y2 : Word), ∃ t, exec (.drawLine x1 y1 x2 y2) s = .next t ∧
    (∀ x y : Nat, x < 320 → y < 200 → (t.surface.pixel x y = true ↔
      s.surface.pixel x y = true ∨ ((x : Int), (y : Int)) ∈ linePixels s.config x1 y1 x2 y2)) ∧
    t = { s with surface := { s.surface with
      pixels := t.surface.pixels, pixelMode := true, dirty := true } }) ∧
  ∀ (s : State) (cx cy r : Word), ∃ t, exec (.drawCircle cx cy r) s = .next t ∧
    (∀ x y : Nat, x < 320 → y < 200 → (t.surface.pixel x y = true ↔
      s.surface.pixel x y = true ∨ ((x : Int), (y : Int)) ∈ circlePixels s.config cx cy r)) ∧
    t = { s with surface := { s.surface with
      pixels := t.surface.pixels, pixelMode := true, dirty := true } }

/-- FILL_RECT sets exactly the pixels of the plane inside the rectangle its operands name, under each
value of `rect_form`: left, top, width and height without wrapping, or two inclusive corners (R174,
R176, R182). -/
def Obligations.FillRectSetsItsRectangle : Prop :=
  ∀ (s : State) (a b c d : Word), ∃ t, exec (.fillRect a b c d) s = .next t ∧
    (∀ x y : Nat, x < 320 → y < 200 → (t.surface.pixel x y = true ↔ s.surface.pixel x y = true ∨
      match s.config.rectForm with
      | .xywh => a.toNat ≤ x ∧ x < a.toNat + c.toNat ∧ b.toNat ≤ y ∧ y < b.toNat + d.toNat
      | .x1y1x2y2 => (a.toNat ≤ x ∨ c.toNat ≤ x) ∧ (x ≤ a.toNat ∨ x ≤ c.toNat) ∧
          (b.toNat ≤ y ∨ d.toNat ≤ y) ∧ (y ≤ b.toNat ∨ y ≤ d.toNat))) ∧
    t = { s with surface := { s.surface with
      pixels := t.surface.pixels, pixelMode := true, dirty := true } }

/-- DRAW_RECT sets exactly the border of that rectangle: the pixels of it that lie on its first or last
column or its first or last row (R174, R176, R181). -/
def Obligations.DrawRectSetsItsBorder : Prop :=
  ∀ (s : State) (a b c d : Word), ∃ t, exec (.drawRect a b c d) s = .next t ∧
    (∀ x y : Nat, x < 320 → y < 200 → (t.surface.pixel x y = true ↔ s.surface.pixel x y = true ∨
      match s.config.rectForm with
      | .xywh => (a.toNat ≤ x ∧ x < a.toNat + c.toNat ∧ b.toNat ≤ y ∧ y < b.toNat + d.toNat) ∧
          (x = a.toNat ∨ x + 1 = a.toNat + c.toNat ∨ y = b.toNat ∨ y + 1 = b.toNat + d.toNat)
      | .x1y1x2y2 => ((a.toNat ≤ x ∨ c.toNat ≤ x) ∧ (x ≤ a.toNat ∨ x ≤ c.toNat) ∧
          (b.toNat ≤ y ∨ d.toNat ≤ y) ∧ (y ≤ b.toNat ∨ y ≤ d.toNat)) ∧
          (x = a.toNat ∨ x = c.toNat ∨ y = b.toNat ∨ y = d.toNat))) ∧
    t = { s with surface := { s.surface with
      pixels := t.surface.pixels, pixelMode := true, dirty := true } }

/-- R171, through SET_PIXEL: a point in range takes the value 1 for a nonzero `v` and 0 for `v = 0`, a
point out of range is dropped, every other pixel keeps its value, and `pixel_mode` and `dirty` become
1 in both cases. -/
def Obligations.SetPixelWritesOnePixel : Prop :=
  ∀ (s : State) (px py : Word) (v : Byte), ∃ t, exec (.setPixel px py v) s = .next t ∧
    (∀ x y : Nat, x < 320 → y < 200 → t.surface.pixel x y =
      if x = px.toNat ∧ y = py.toNat then (v != 0#8) else s.surface.pixel x y) ∧
    t = { s with surface := { s.surface with
      pixels := t.surface.pixels, pixelMode := true, dirty := true } }

/-- R172, through CLEAR_PIXELS: every pixel is 0, `pixel_mode` 0; the text plane and the cursor do not
change. -/
def Obligations.ClearPixelsZeroesThePlane : Prop :=
  ∀ s : State, ∃ t, exec .clearPixels s = .next t ∧ (∀ x y, t.surface.pixel x y = false) ∧
    t = { s with surface := { s.surface with
      pixels := t.surface.pixels, pixelMode := false, dirty := true } }

/-- The default `line_pixels` begins at the first end point, ends at the second, and has one point for
each unit of the longer of its two extents, and one more (R173). -/
def Obligations.DefaultLineRunsFromEndToEnd : Prop :=
  ∀ x0 y0 x1 y1 : Int,
    (bresenhamLine x0 y0 x1 y1).head? = some (x0, y0) ∧
    (bresenhamLine x0 y0 x1 y1).getLast? = some (x1, y1) ∧
    (bresenhamLine x0 y0 x1 y1).length = max (x1 - x0).natAbs (y1 - y0).natAbs + 1

/-- The default `circle_pixels` is symmetric in both axes and the diagonals through its centre, and
`r + 1` turns of its loop are all the turns it takes: more fuel adds no point. It holds the point at
distance `r` to the right of the centre and a point in every column from the centre to there, and each
of its points lies within half a pixel of the circle: `|dx^2 + dy^2 - r^2| <= max(|dx|, |dy|)` (R175). -/
def Obligations.DefaultCircleIsSymmetricAndComplete : Prop :=
  (∀ (cx cy : Int) (r k : Nat),
    midpointLoop cx cy (r + 1 + k) r 0 (1 - r) = midpointCircle cx cy r) ∧
  (∀ (cx cy x y : Int) (r : Nat), (cx + x, cy + y) ∈ midpointCircle cx cy r →
    (cx - x, cy + y) ∈ midpointCircle cx cy r ∧ (cx + x, cy - y) ∈ midpointCircle cx cy r ∧
    (cx + y, cy + x) ∈ midpointCircle cx cy r ∧
    (x * x + y * y - r * r).natAbs ≤ max x.natAbs y.natAbs) ∧
  ∀ (cx cy : Int) (r : Nat), (cx + r, cy) ∈ midpointCircle cx cy r ∧
    ∀ k : Nat, k ≤ r → ∃ y : Int, (cx + k, cy + y) ∈ midpointCircle cx cy r

/-! ### Time, sound, random and input -/

/-- SLEEP_MS and BEEP hold, with their request, until the host sends `sleep_done` or `beep_done`. Once it
has, with no shutdown before it, they go on with no effect at all: what differs then is the key
mailbox, `dirty` and the schedule, by the host's own moves before the signal. Without the signal and
without a shutdown they hold on, and a step of the held machine takes the hold up again (R200, R201,
R205, R206, R330, R339). The schedule is the model's, and a schedule that runs out brings no signal (log
entries 7 and 8); a device operation or a load among the turns, which the host may not make during a
run, has no effect, which is the model's choice (log entry 10). -/
def Obligations.SleepAndBeepEndOnTheirSignal : Prop :=
  (∀ (s : State) (m : Word) (rest : List Turn), s.shutdown = false →
    s.schedule = .host .sleepDone :: rest →
    exec (.sleepMs m) s = .next { s with hold := none, schedule := rest }) ∧
  (∀ (s : State) (f d : Word) (rest : List Turn), s.shutdown = false →
    s.schedule = .host .beepDone :: rest →
    exec (.beep f d) s = .next { s with hold := none, schedule := rest }) ∧
  ∀ (s : State) (i : Instr) (h : Suspension) (signal : HostMove), timedHold i = some (h, signal) →
    s.running = true → s.shutdown = false →
    (∀ (before rest : List Turn), s.schedule = before ++ .host signal :: rest →
      .host signal ∉ before → .host .shutdown ∉ before →
      ∃ t, exec i s = .next t ∧ onlyHostMovesIn before s t ∧ t.hold = none ∧ t.schedule = rest) ∧
    (.host signal ∉ s.schedule → .host .shutdown ∉ s.schedule →
      ∃ t, exec i s = .next t ∧ onlyHostMovesIn s.schedule s t ∧ t.hold = some h ∧
        t.schedule = []) ∧
    (s.hold = some h → step s = finish (exec i s))

/-- R333: a suspension point that finds `shutdown` set, on arrival or on a host event during the hold,
ends the run with SHUTDOWN: `pc` stays at the post-operand PC, no register is written and no diagnostic
is emitted. Every other instruction does the same with the flag set or clear. (When the host's event
comes is the schedule's, log entry 7; a device operation or a load that the host may not make during a
run has no effect, log entry 10.) -/
def Obligations.ShutdownEndsTheRunAtSuspensionPoints : Prop :=
  (∀ (s : State) (i : Instr), isSuspension i = true → s.shutdown = true →
    exec i s = .next { s with running := false, stopReason := .shutdown, hold := none }) ∧
  (∀ (s : State) (i : Instr) (waits : Nat) (rest : List Turn), isSuspension i = true →
    s.shutdown = false → s.schedule = List.replicate waits .core ++ .host .shutdown :: rest →
    exec i s = .next { s with
      running := false, stopReason := .shutdown, hold := none, shutdown := true,
      schedule := rest }) ∧
  (∀ (s t : State), s.running = true →
    ((∃ i, isSuspension i = true ∧ exec i s = .next t) ∨ (s.hold ≠ none ∧ step s = .next t)) →
    t.shutdown = true →
    t.running = false ∧ t.stopReason = .shutdown ∧ t.hold = none ∧ t.pc = s.pc ∧ t.regs = s.regs ∧
    t.ram = s.ram ∧ t.sp = s.sp ∧ t.flags = s.flags ∧ t.surface.cells = s.surface.cells ∧
    t.surface.cursorX = s.surface.cursorX ∧ t.surface.cursorY = s.surface.cursorY) ∧
  ∀ (s t : State) (i : Instr), isSuspension i = false →
    exec i { s with shutdown := false } = .next t →
    exec i { s with shutdown := true } = .next { t with shutdown := true }

/-- READ_CHAR takes the last key that arrived after it began and before the CORE looked at the
mailbox: the code of a key of the alphabet, zero-extended, goes to `x[r]`; a bad index takes the key
and writes nothing (R290, R291; which turn sees the key is the schedule's, log entry 7). -/
def Obligations.ReadCharTakesTheLastArrivedKey : Prop :=
  ∀ (s : State) (r : Byte) (earlier : List Key) (k : Key) (rest : List Turn), s.shutdown = false →
    s.schedule =
      earlier.map (fun e => Turn.host (.keyEvent e)) ++ .host (.keyEvent k) :: .core :: rest →
    ∃ t, exec (.readChar r) s = .next t ∧
      (r.toNat < 8 → ∃ v, t.reg r = some v ∧ v.toNat = (keyCode k).toNat ∧
        ((0x20 ≤ v.toNat ∧ v.toNat ≤ 0x7E) ∨ v.toNat = 0x0A ∨ v.toNat = 0x08)) ∧
      (∀ r' : Byte, r' ≠ r → t.reg r' = s.reg r') ∧
      t = { s with regs := t.regs, keySlot := keyCode k, keySeq := s.keySeq + earlier.length + 1,
                   hold := none, schedule := rest }

/-- READ_CHAR with no key and no shutdown to come holds, whatever key arrived before it began, and
every later step leaves it holding (R290, R291, R330; that an exhausted schedule brings no key is the
model's reading, log entry 9). -/
def Obligations.ReadCharHoldsWithoutAKey : Prop :=
  ∀ (s : State) (r : Byte), s.running = true → s.shutdown = false → s.schedule = [] →
    exec (.readChar r) s = .next { s with hold := some (.readChar r s.keySeq) } ∧
    step { s with hold := some (.readChar r s.keySeq) } =
      .next { s with hold := some (.readChar r s.keySeq) }

/-- GET_TIME writes the low 16 bits of the host's seconds counter to `x[rX]`, whatever they are; a bad
index skips the write (R202, R207; the counter is a free value, log entry 6). -/
def Obligations.GetTimeWritesTheClock : Prop :=
  ∀ (s : State) (rX : Byte), ∃ t, exec (.getTime rX) s = .next t ∧
    (rX.toNat < 8 → ∃ v, t.reg rX = some v ∧ v.toNat = (Config.nowSeconds s.draws).toNat % 65536) ∧
    (∀ r : Byte, r ≠ rX → t.reg r = s.reg r) ∧
    t = { s with regs := t.regs, draws := s.draws + 1 }

/-- RANDOM writes to `x[rX]` the value of `{0, .., max}` that the host's sample gives, and every value of
that set is what some sample gives; a bad index skips the write (R203, R208, R22; the sample is a free
value, log entry 6). -/
def Obligations.RandomStaysInItsRange : Prop :=
  (∀ (s : State) (rX : Byte) (max : Word), ∃ t, exec (.random rX max) s = .next t ∧
    (rX.toNat < 8 → ∃ v, t.reg rX = some v ∧ v = randMod max (Config.randomSample s.draws) ∧
      v.toNat ≤ max.toNat) ∧
    (∀ r : Byte, r ≠ rX → t.reg r = s.reg r) ∧
    t = { s with regs := t.regs, draws := s.draws + 1 }) ∧
  ∀ max v : Word, v.toNat ≤ max.toNat → ∃ raw, randMod max raw = v

/-! ### Registers and the stack -/

/-- LOAD_REG writes the immediate to `x[r]` and nothing else; a bad index writes nothing (R225, R22). -/
def Obligations.LoadRegWritesTheImmediate : Prop :=
  ∀ (s : State) (r : Byte) (imm : Word), ∃ t, exec (.loadReg r imm) s = .next t ∧
    (r.toNat < 8 → t.reg r = some imm) ∧ (8 ≤ r.toNat → t = s) ∧
    (∀ r' : Byte, r' ≠ r → t.reg r' = s.reg r') ∧ t = { s with regs := t.regs }

/-- STORE_REG and STORE_MEM write the register's low byte at the address and its high byte after it,
and no other byte, at any address up to 0xFFFE, odd ones too (R62, R65, R67, R226, R302). -/
def Obligations.StoresWriteTwoBytes : Prop :=
  ∀ (s : State) (r : Byte) (addr v : Word) (i : Instr), s.ram.wf = true → s.reg r = some v →
    addr.toNat ≤ 0xFFFE → i = .storeReg r addr ∨ i = .storeMem addr r →
    ∃ t, exec i s = .next t ∧ t = { s with ram := t.ram } ∧
      (t.ram.read addr.toNat).toNat = v.toNat % 256 ∧
      (t.ram.read (addr.toNat + 1)).toNat = v.toNat / 256 ∧
      ∀ a, a ≠ addr.toNat → a ≠ addr.toNat + 1 → t.ram.read a = s.ram.read a

/-- A data access past 0xFFFF faults with DATA_RANGE and has no other effect: LOAD_MEM, STORE_MEM and
STORE_REG of a good register at 0xFFFF, and COPY_MEM when either range runs past 0xFFFF; `pc` is the
post-operand PC (R64, R65, R303, R321, R325). -/
def Obligations.DataRangeFaultHasNoOtherEffect : Prop :=
  ∀ (s : State) (i : Instr),
    ((∃ r : Byte, r.toNat < 8 ∧
        (i = .loadMem r 0xFFFF#16 ∨ i = .storeMem 0xFFFF#16 r ∨ i = .storeReg r 0xFFFF#16)) ∨
      ∃ src dst len : Word, i = .copyMem src dst len ∧
        (0x10000 < src.toNat + len.toNat ∨ 0x10000 < dst.toNat + len.toNat)) →
    exec i s = .next { s with
      running := false, stopReason := .faultDataRange, hold := none,
      surface := s.surface.putchars s.config.diagDataRange }

/-- R300: with a bad register index and an address up to 0xFFFE, LOAD_MEM, STORE_MEM and STORE_REG
change nothing; with the address 0xFFFF the case has no meaning and the model stops on it. -/
def Obligations.BadRegisterWithAnAddress : Prop :=
  ∀ (s : State) (r : Byte) (addr : Word) (i : Instr), 8 ≤ r.toNat →
    i = .loadMem r addr ∨ i = .storeMem addr r ∨ i = .storeReg r addr →
    (addr.toNat ≤ 0xFFFE → exec i s = .next s) ∧
    (addr = 0xFFFF#16 → exec i s = .fault .badRegAndRange)

/-- PUSH from `sp` in 2..255 writes the low byte at `0xFF00 + sp`, the high byte below it, takes 2 from
`sp` and changes nothing else; at `sp = 0` it is dropped, at `sp = 1` the model stops, and a bad index
pushes nothing (R220, R227, R23). -/
def Obligations.PushWritesLowByteFirst : Prop :=
  (∀ (s : State) (r : Byte) (v : Word), s.ram.wf = true → s.reg r = some v → 2 ≤ s.sp.toNat →
    s.sp.toNat ≤ 255 →
    ∃ t, exec (.push r) s = .next t ∧ t = { s with ram := t.ram, sp := t.sp } ∧
      t.sp.toNat = s.sp.toNat - 2 ∧
      (t.ram.read (0xFF00 + s.sp.toNat)).toNat = v.toNat % 256 ∧
      (t.ram.read (0xFF00 + s.sp.toNat - 1)).toNat = v.toNat / 256 ∧
      ∀ a, a ≠ 0xFF00 + s.sp.toNat → a ≠ 0xFF00 + s.sp.toNat - 1 → t.ram.read a = s.ram.read a) ∧
  ∀ (s : State) (r : Byte),
    (8 ≤ r.toNat → exec (.push r) s = .next s) ∧
    (s.sp = 0#16 → exec (.push r) s = .next s) ∧
    (r.toNat < 8 → s.sp = 1#16 → exec (.push r) s = .fault .stackSplitPush)

/-- POP from `sp` up to 253 reads the high byte at `0xFF00 + sp + 1` and the low byte after it, adds 2
to `sp` and changes nothing else but the destination, which a bad index skips; at `sp = 255` it is
dropped and at `sp = 254` the model stops (R221, R228, R22). -/
def Obligations.PopReadsHighByteFirst : Prop :=
  (∀ (s : State) (r : Byte), s.sp.toNat ≤ 253 →
    ∃ t, exec (.pop r) s = .next t ∧ t = { s with regs := t.regs, sp := t.sp } ∧
      t.sp.toNat = s.sp.toNat + 2 ∧
      (r.toNat < 8 → ∃ v, t.reg r = some v ∧
        v.toNat = (s.ram.read (0xFF00 + s.sp.toNat + 1)).toNat * 256 +
          (s.ram.read (0xFF00 + s.sp.toNat + 2)).toNat) ∧
      ∀ r' : Byte, (r' ≠ r ∨ 8 ≤ r.toNat) → t.reg r' = s.reg r') ∧
  ∀ (s : State) (r : Byte),
    (s.sp = 255#16 → exec (.pop r) s = .next s) ∧
    (s.sp = 254#16 → exec (.pop r) s = .fault .stackSplitPop)

/-- A pop right after a push brings the pushed value back and restores `sp` (R221). -/
def Obligations.PopUndoesPush : Prop :=
  ∀ (s : State) (r r' : Byte) (v : Word), s.ram.wf = true → s.reg r = some v → r'.toNat < 8 →
    2 ≤ s.sp.toNat → s.sp.toNat ≤ 255 →
    ∃ t u, exec (.push r) s = .next t ∧ exec (.pop r') t = .next u ∧
      u.reg r' = some v ∧ u.sp = s.sp

/-! ### The ALU -/

/-- ADD, SUB and MUL write the sum, the difference and the product modulo 2^16 of the two sources' old
values, and change nothing but the destination (R240, R241, R242, R243). -/
def Obligations.ArithmeticIsModulo65536 : Prop :=
  ∀ (s : State) (d s1 s2 : Byte) (a b : Word), s.reg s1 = some a → s.reg s2 = some b →
    d.toNat < 8 →
    ∃ t u w x y z,
      exec (.add d s1 s2) s = .next t ∧ t = { s with regs := t.regs } ∧ t.reg d = some x ∧
      x.toNat = (a.toNat + b.toNat) % 65536 ∧
      exec (.sub d s1 s2) s = .next u ∧ u = { s with regs := u.regs } ∧ u.reg d = some y ∧
      y.toNat = (a.toNat + 0x10000 - b.toNat) % 65536 ∧
      exec (.mul d s1 s2) s = .next w ∧ w = { s with regs := w.regs } ∧ w.reg d = some z ∧
      z.toNat = a.toNat * b.toNat % 65536 ∧
      ∀ r : Byte, r ≠ d → t.reg r = s.reg r ∧ u.reg r = s.reg r ∧ w.reg r = s.reg r

/-- DIV and MOD write the unsigned quotient and remainder; with divisor 0 they write nothing and go on
(R244, R245). -/
def Obligations.DivisionIsUnsigned : Prop :=
  ∀ (s : State) (d s1 s2 : Byte) (a b : Word), s.reg s1 = some a → s.reg s2 = some b →
    d.toNat < 8 →
    (b = 0#16 → exec (.div d s1 s2) s = .next s ∧ exec (.mod d s1 s2) s = .next s) ∧
    (b ≠ 0#16 → ∃ t u x y,
      exec (.div d s1 s2) s = .next t ∧ t = { s with regs := t.regs } ∧ t.reg d = some x ∧
      x.toNat = a.toNat / b.toNat ∧
      exec (.mod d s1 s2) s = .next u ∧ u = { s with regs := u.regs } ∧ u.reg d = some y ∧
      y.toNat = a.toNat % b.toNat ∧
      ∀ r : Byte, r ≠ d → t.reg r = s.reg r ∧ u.reg r = s.reg r)

/-- AND, OR, XOR and NOT work bit by bit on the sources' old values and change nothing but the
destination (R246, R247, R248, R249). -/
def Obligations.BitwiseInstrsWorkBitByBit : Prop :=
  ∀ (s : State) (d s1 s2 : Byte) (a b : Word), s.reg s1 = some a → s.reg s2 = some b →
    d.toNat < 8 →
    ∃ t u w n x y z c,
      exec (.and d s1 s2) s = .next t ∧ t = { s with regs := t.regs } ∧ t.reg d = some x ∧
      exec (.or d s1 s2) s = .next u ∧ u = { s with regs := u.regs } ∧ u.reg d = some y ∧
      exec (.xor d s1 s2) s = .next w ∧ w = { s with regs := w.regs } ∧ w.reg d = some z ∧
      exec (.not d s1) s = .next n ∧ n = { s with regs := n.regs } ∧ n.reg d = some c ∧
      (∀ k, k < 16 → x.getLsbD k = (a.getLsbD k && b.getLsbD k) ∧
        y.getLsbD k = (a.getLsbD k || b.getLsbD k) ∧
        z.getLsbD k = (a.getLsbD k ^^ b.getLsbD k) ∧ c.getLsbD k = !a.getLsbD k) ∧
      ∀ r : Byte, r ≠ d →
        t.reg r = s.reg r ∧ u.reg r = s.reg r ∧ w.reg r = s.reg r ∧ n.reg r = s.reg r

/-- SHL and SHR shift `x[d]` by the old value of `x[a]`: below 16 the result is `v * 2^c` modulo 2^16
and `v / 2^c`, from 16 on it is the parameter `shift_large`, whose default is 0 (R250, R251; log entry 5). -/
def Obligations.ShiftsUseTheCountRegister : Prop :=
  ∀ (s : State) (d a : Byte) (v c : Word), s.reg d = some v → s.reg a = some c →
    ∃ t u x y,
      exec (.shl d a) s = .next t ∧ t = { s with regs := t.regs } ∧ t.reg d = some x ∧
      exec (.shr d a) s = .next u ∧ u = { s with regs := u.regs } ∧ u.reg d = some y ∧
      (c.toNat < 16 → x.toNat = v.toNat * 2 ^ c.toNat % 65536 ∧ y.toNat = v.toNat / 2 ^ c.toNat) ∧
      (16 ≤ c.toNat → x = shiftLarge s.config .shl v c ∧ y = shiftLarge s.config .shr v c) ∧
      (16 ≤ c.toNat → s.config.shiftLarge = .zero → x = 0#16 ∧ y = 0#16) ∧
      ∀ r : Byte, r ≠ d → t.reg r = s.reg r ∧ u.reg r = s.reg r

/-- No ALU instruction but CMP has any effect when one of its register indexes is bad, destination or
source (R22, R23, R240). -/
def Obligations.AluIgnoresBadRegisters : Prop :=
  ∀ (s : State) (d s1 s2 : Byte),
    (8 ≤ d.toNat ∨ 8 ≤ s1.toNat ∨ 8 ≤ s2.toNat →
      ∀ i ∈ [Instr.add d s1 s2, .sub d s1 s2, .mul d s1 s2, .div d s1 s2, .mod d s1 s2,
        .and d s1 s2, .or d s1 s2, .xor d s1 s2], exec i s = .next s) ∧
    (8 ≤ d.toNat ∨ 8 ≤ s1.toNat →
      ∀ i ∈ [Instr.not d s1, .shl d s1, .shr d s1], exec i s = .next s)

/-- CMP of two good registers sets exactly one of Z, G and L by the unsigned comparison and clears
every other bit of `flags`; with a bad index it keeps `flags` or clears it; it writes nothing else
but, then, the count of draws (R252, R31, R30; log entry 6). -/
def Obligations.CmpSetsOneFlag : Prop :=
  ∀ (s : State) (s1 s2 : Byte),
    (∀ a b, s.reg s1 = some a → s.reg s2 = some b →
      exec (.cmp s1 s2) s = .next { s with flags :=
        if a.toNat = b.toNat then 0x01#8 else if b.toNat < a.toNat then 0x02#8 else 0x04#8 }) ∧
    (8 ≤ s1.toNat ∨ 8 ≤ s2.toNat → ∃ t, exec (.cmp s1 s2) s = .next t ∧
      (t.flags = s.flags ∨ t.flags = 0x00#8) ∧
      t = { s with flags := t.flags, draws := s.draws + 1 })

/-! ### Control transfer -/

/-- JMP always goes to its target; JZ, JNZ, JG and JL go there exactly when the bit of `flags` that
R270's table names has the value it names, and otherwise leave `pc` at the post-operand PC; none
writes anything else (R270, R271, R272, R273, R274, R275). -/
def Obligations.JumpsFollowTheFlags : Prop :=
  ∀ (s : State) (t : Word),
    exec (.jmp t) s = .next { s with pc := BitVec.ofNat 17 t.toNat } ∧
    exec (.jz t) s = .next
      { s with pc := if s.flags.toNat % 2 = 1 then BitVec.ofNat 17 t.toNat else s.pc } ∧
    exec (.jnz t) s = .next
      { s with pc := if s.flags.toNat % 2 = 0 then BitVec.ofNat 17 t.toNat else s.pc } ∧
    exec (.jg t) s = .next
      { s with pc := if s.flags.toNat / 2 % 2 = 1 then BitVec.ofNat 17 t.toNat else s.pc } ∧
    exec (.jl t) s = .next
      { s with pc := if s.flags.toNat / 4 % 2 = 1 then BitVec.ofNat 17 t.toNat else s.pc }

/-- After a CMP of two good registers, JZ alone is taken where they are equal, JG and JNZ where the
first is greater, JL and JNZ where it is less (R252, R270). -/
def Obligations.CmpThenJumpContract : Prop :=
  ∀ (s : State) (s1 s2 : Byte) (a b : Word) (t : Word), s.reg s1 = some a → s.reg s2 = some b →
    ∃ u, exec (.cmp s1 s2) s = .next u ∧
      exec (.jz t) u = .next (if a.toNat = b.toNat then u.jump t else u) ∧
      exec (.jnz t) u = .next (if a.toNat = b.toNat then u else u.jump t) ∧
      exec (.jg t) u = .next (if b.toNat < a.toNat then u.jump t else u) ∧
      exec (.jl t) u = .next (if a.toNat < b.toNat then u.jump t else u)

/-- CALL pushes the post-operand PC, low byte first, and jumps; where that PC is 0x10000, or the stack
has no room for two bytes, the model stops (R276, R220). -/
def Obligations.CallPushesTheReturnAddress : Prop :=
  ∀ (s : State) (t : Word),
    (s.ram.wf = true → s.pc.toNat < memSize → 2 ≤ s.sp.toNat → s.sp.toNat ≤ 255 →
      ∃ u, exec (.call t) s = .next u ∧ u = { s with ram := u.ram, sp := u.sp, pc := u.pc } ∧
        u.pc.toNat = t.toNat ∧ u.sp.toNat = s.sp.toNat - 2 ∧
        (u.ram.read (0xFF00 + s.sp.toNat)).toNat = s.pc.toNat % 256 ∧
        (u.ram.read (0xFF00 + s.sp.toNat - 1)).toNat = s.pc.toNat / 256 ∧
        ∀ a, a ≠ 0xFF00 + s.sp.toNat → a ≠ 0xFF00 + s.sp.toNat - 1 →
          u.ram.read a = s.ram.read a) ∧
    (s.pc = 0x10000#17 → exec (.call t) s = .fault .callAtTop) ∧
    (s.pc.toNat < memSize → s.sp.toNat ≤ 1 → exec (.call t) s = .fault .callStackFull)

/-- RET pops two bytes and goes to the address they hold; on an empty stack it is dropped and `pc`
stays at the byte after RET (R277, R221). -/
def Obligations.RetPopsThePc : Prop :=
  (∀ s : State, s.sp.toNat ≤ 253 →
    ∃ t, exec .ret s = .next t ∧ t = { s with sp := t.sp, pc := t.pc } ∧
      t.sp.toNat = s.sp.toNat + 2 ∧
      t.pc.toNat = (s.ram.read (0xFF00 + s.sp.toNat + 1)).toNat * 256 +
        (s.ram.read (0xFF00 + s.sp.toNat + 2)).toNat) ∧
  (∀ s : State, s.sp = 255#16 → exec .ret s = .next s) ∧
  ∀ s : State, s.sp = 254#16 → exec .ret s = .fault .stackSplitPop

/-- A RET after a CALL, wherever the callee's `pc` stands, comes back to the byte after the CALL's
operands and restores `sp` (R276). -/
def Obligations.RetUndoesCall : Prop :=
  ∀ (s : State) (t : Word) (there : BitVec 17), s.ram.wf = true → s.pc.toNat < memSize →
    2 ≤ s.sp.toNat → s.sp.toNat ≤ 255 →
    ∃ u w, exec (.call t) s = .next u ∧ exec .ret { u with pc := there } = .next w ∧
      w.pc = s.pc ∧ w.sp = s.sp

/-! ### Memory instructions -/

/-- LOAD_MEM reads the byte at the address as bits 7:0 and the byte after it as bits 15:8, at any
address up to 0xFFFE, and writes nothing but its destination (R62, R64, R67, R301). -/
def Obligations.LoadMemReadsTwoBytes : Prop :=
  ∀ (s : State) (r : Byte) (addr : Word), r.toNat < 8 → addr.toNat ≤ 0xFFFE →
    ∃ t v, exec (.loadMem r addr) s = .next t ∧ t = { s with regs := t.regs } ∧
      t.reg r = some v ∧
      v.toNat = (s.ram.read addr.toNat).toNat + 256 * (s.ram.read (addr.toNat + 1)).toNat ∧
      ∀ r' : Byte, r' ≠ r → t.reg r' = s.reg r'

/-- COPY_MEM moves each byte of the source range as it was before the copy, whatever the overlap, and
leaves every byte outside the destination range; both ranges may end at 0xFFFF, and `len = 0` copies
nothing (R303). -/
def Obligations.CopyMemReadsBeforeItWrites : Prop :=
  ∀ (s : State) (src dst len : Word), s.ram.wf = true → src.toNat + len.toNat ≤ 0x10000 →
    dst.toNat + len.toNat ≤ 0x10000 →
    ∃ t, exec (.copyMem src dst len) s = .next t ∧ t = { s with ram := t.ram } ∧
      (∀ k, k < len.toNat → t.ram.read (dst.toNat + k) = s.ram.read (src.toNat + k)) ∧
      ∀ a, a < dst.toNat ∨ dst.toNat + len.toNat ≤ a → t.ram.read a = s.ram.read a

/-- Reading back a STORE_MEM, or a STORE_REG, with LOAD_MEM at the same address yields the register
exactly (R62, R63). -/
def Obligations.StoreThenLoadReturnsTheRegister : Prop :=
  ∀ (s : State) (r r' : Byte) (addr v : Word), s.ram.wf = true → s.reg r = some v →
    r'.toNat < 8 → addr.toNat ≤ 0xFFFE →
    (∃ t u, exec (.storeMem addr r) s = .next t ∧ exec (.loadMem r' addr) t = .next u ∧
      u.reg r' = some v) ∧
    ∃ t u, exec (.storeReg r addr) s = .next t ∧ exec (.loadMem r' addr) t = .next u ∧
      u.reg r' = some v

/-! ### Frames -/

/-- No instruction changes a register that its operand bytes do not name as a destination (R20, R24). A
load that the host may not make during a hold changes none either (log entry 10). -/
def Obligations.OnlyDestinationRegistersChange : Prop :=
  ∀ (i : Instr) (s t : State) (r : Byte), s.running = true → exec i s = .next t →
    r ∉ destRegs i → t.reg r = s.reg r

/-- No instruction changes a byte of `ram` outside the bytes it stores to: two bytes at the operand
address for STORE_REG and STORE_MEM, two at the stack slot for PUSH and CALL, `len` at the destination
for COPY_MEM, none for every other instruction (R61). A load that the host may not make during a hold
changes none either (log entry 10). -/
def Obligations.OnlyStoredBytesChange : Prop :=
  ∀ (i : Instr) (s t : State) (a : Nat), s.running = true → s.ram.wf = true →
    exec i s = .next t →
    (∀ start count, storedBytes i s = some (start, count) → a < start ∨ start + count ≤ a) →
    t.ram.read a = s.ram.read a

/-- Only CMP writes `flags`, only PUSH, POP, CALL and RET move `sp`, only the control transfers write
`pc` besides the fetch, and no instruction writes the parameters (R26, R29, R31). That the parameters
stand in State (log entry 5), and that a load the host may not make during a hold changes none of these
(log entry 10), is the model's. -/
def Obligations.OnlyNamedControlStateChanges : Prop :=
  ∀ (i : Instr) (s t : State), s.running = true → exec i s = .next t →
    ((∀ s1 s2, i ≠ .cmp s1 s2) → t.flags = s.flags) ∧ (movesStack i = false → t.sp = s.sp) ∧
    (isTransfer i = false → t.pc = s.pc) ∧ t.config = s.config

/-- An instruction that drives no device operation and no suspension point, and that does not stop the
run, leaves the device surface, the key mailbox, `shutdown` and the host's schedule as they were (R39,
R60, R336). -/
def Obligations.OnlyDeviceInstrsTouchTheSurface : Prop :=
  ∀ (i : Instr) (s t : State), s.running = true → exec i s = .next t → t.running = true →
    drivesSurface i = false → isSuspension i = false →
    t.surface = s.surface ∧ t.keySlot = s.keySlot ∧ t.keySeq = s.keySeq ∧
    t.shutdown = s.shutdown ∧ t.schedule = s.schedule ∧ t.hold = s.hold ∧
    t.stopReason = s.stopReason
end

