-- ==== Sys2Proof/Laws/Decode.lean ====
section
/-! SUPPORT. The decoder's parts: operand fields, strings, and the bytes of words (R91 to R94). -/

namespace Sys2Proof

@[simp] theorem fetchB_cons (n : Nat) (b : Byte) (rest : List Byte) (k : Byte → List Byte → Decoded) :
    fetchB n (b :: rest) k = k b rest := rfl
@[simp] theorem fetchB_nil (n : Nat) (k : Byte → List Byte → Decoded) :
    fetchB n [] k = .reject (.truncated n) := rfl
@[simp] theorem fetchW_cons_cons (n : Nat) (lo hi : Byte) (rest : List Byte)
    (k : Word → List Byte → Decoded) : fetchW n (lo :: hi :: rest) k = k (wordOf lo hi) rest := rfl
@[simp] theorem fetchW_nil (n : Nat) (k : Word → List Byte → Decoded) :
    fetchW n [] k = .reject (.truncated n) := rfl
@[simp] theorem fetchW_singleton (n : Nat) (b : Byte) (k : Word → List Byte → Decoded) :
    fetchW n [b] k = .reject (.truncated n) := rfl

/-- Everything an 8-bit field fetch can do. -/
theorem fetchB_cases (n : Nat) (bs : List Byte) (k : Byte → List Byte → Decoded) :
    (bs = [] ∧ fetchB n bs k = .reject (.truncated n)) ∨
    ∃ b rest, bs = b :: rest ∧ fetchB n bs k = k b rest := by
  cases bs with
  | nil => exact .inl ⟨rfl, rfl⟩
  | cons b rest => exact .inr ⟨b, rest, rfl, rfl⟩

/-- Everything a 16-bit field fetch can do. -/
theorem fetchW_cases (n : Nat) (bs : List Byte) (k : Word → List Byte → Decoded) :
    (bs.length < 2 ∧ fetchW n bs k = .reject (.truncated n)) ∨
    ∃ lo hi rest, bs = lo :: hi :: rest ∧ fetchW n bs k = k (wordOf lo hi) rest := by
  match bs with
  | [] => exact .inl ⟨by simp, rfl⟩
  | [_] => exact .inl ⟨by simp, rfl⟩
  | lo :: hi :: rest => exact .inr ⟨lo, hi, rest, rfl, rfl⟩

/-- A terminated string splits at its first 0x00 (R142). -/
theorem splitString_append (str rest : List Byte) (h : str.all (fun b => b != 0#8) = true) :
    splitString (str ++ 0#8 :: rest) = some (str, rest) := by
  induction str with
  | nil => simp [splitString]
  | cons b str ih =>
    simp only [List.all_cons, Bool.and_eq_true, bne_iff_ne, ne_eq] at h
    simp [splitString, h.1, ih h.2]

/-- What a split string tells of the bytes it came from. -/
theorem splitString_eq_some {bs str rest : List Byte} (h : splitString bs = some (str, rest)) :
    bs = str ++ 0#8 :: rest ∧ str.all (fun b => b != 0#8) = true := by
  induction bs generalizing str rest with
  | nil => simp [splitString] at h
  | cons b bs ih =>
    by_cases hb : b = 0#8
    · simp only [splitString, hb, if_true, Option.some.injEq, Prod.mk.injEq] at h
      obtain ⟨rfl, rfl⟩ := h
      simp [hb]
    · simp only [splitString, hb, if_false] at h
      cases hs : splitString bs with
      | none => rw [hs] at h; cases h
      | some p =>
        obtain ⟨str', rest'⟩ := p
        rw [hs] at h
        simp only [Option.some.injEq, Prod.mk.injEq] at h
        obtain ⟨rfl, rfl⟩ := h
        obtain ⟨h1, h2⟩ := ih hs
        simp [h1, h2, hb]

/-- A string splits nowhere exactly when it holds no 0x00. -/
theorem splitString_eq_none_iff (bs : List Byte) : splitString bs = none ↔ 0#8 ∉ bs := by
  induction bs with
  | nil => simp [splitString]
  | cons b bs ih =>
    by_cases hb : b = 0#8
    · simp [splitString, hb]
    · cases hs : splitString bs with
      | none => simp [splitString, hb, hs, ih.1 hs, Ne.symm hb]
      | some p =>
        have : 0#8 ∈ bs := by
          by_contra hn
          rw [ih.2 hn] at hs
          cases hs
        simp [splitString, hb, hs, this]

@[simp] theorem length_wordBytes (v : Word) : (wordBytes v).length = 2 := rfl

theorem length_tableBytes (n w : Nat) : (tableBytes n w).length = n := by
  induction n generalizing w with
  | zero => rfl
  | succ n ih => simp [tableBytes, ih]

end Sys2Proof
end

