-- ==== Sys2Proof/Laws/Memory.lean ====
section
/-! SUPPORT. Memory: what a read after a write gives, and that every operation keeps the canonical
form (R60 to R66). -/

namespace Sys2Proof.Machine

/-! ### Canonical form -/

theorem Memory.wfFrom_mono {m : Memory} {lo lo' : Nat} (h : m.wfFrom lo) (hle : lo' ≤ lo) :
    m.wfFrom lo' := by
  cases m with
  | nil => rfl
  | cons c rest =>
    obtain ⟨k, v⟩ := c
    simp only [Memory.wfFrom, Bool.and_eq_true, decide_eq_true_eq] at h ⊢
    exact ⟨⟨⟨by omega, h.1.1.2⟩, h.1.2⟩, h.2⟩

/-- Below the first address a canonical memory may list, every byte reads 0x00. -/
theorem Memory.read_below {m : Memory} {lo a : Nat} (h : m.wfFrom lo) (ha : a < lo) : m.read a = 0#8 := by
  cases m with
  | nil => rfl
  | cons c rest =>
    obtain ⟨k, v⟩ := c
    simp only [Memory.wfFrom, Bool.and_eq_true, decide_eq_true_eq] at h
    simp only [Memory.read]
    rw [if_pos (by omega)]

theorem Memory.wfFrom_write {m : Memory} {lo a : Nat} {b : Byte} (h : m.wfFrom lo) (hlo : lo ≤ a)
    (ha : a < memSize) : (m.write a b).wfFrom lo := by
  induction m generalizing lo with
  | nil => by_cases hb : b = 0#8 <;> simp [Memory.write, Memory.wfFrom, hb, hlo, ha]
  | cons c rest ih =>
    obtain ⟨k, v⟩ := c
    simp only [Memory.wfFrom, Bool.and_eq_true, decide_eq_true_eq, bne_iff_ne, ne_eq] at h
    obtain ⟨⟨⟨h1, h2⟩, h3⟩, h4⟩ := h
    simp only [Memory.write]
    split_ifs with hk hb hk' hb
    · simp [Memory.wfFrom, h1, h2, h3, h4]
    · have hka : a + 1 ≤ k := hk
      simp [Memory.wfFrom, h2, h3, h4, hb, hlo, ha, hka]
    · exact Memory.wfFrom_mono h4 (by omega)
    · subst hk'
      simp [Memory.wfFrom, h4, hb, hlo, ha]
    · have := ih h4 (by omega)
      simp [Memory.wfFrom, h1, h2, h3, this]

/-- A write inside the address space keeps the canonical form. -/
theorem Memory.wf_write {m : Memory} {a : Nat} {b : Byte} (h : m.wf) (ha : a < memSize) :
    (m.write a b).wf :=
  Memory.wfFrom_write h (Nat.zero_le _) ha

theorem Memory.wf_writeBytes {m : Memory} {a : Nat} {bytes : List Byte} (h : m.wf)
    (ha : a + bytes.length ≤ memSize) : (m.writeBytes a bytes).wf := by
  induction bytes generalizing m a with
  | nil => exact h
  | cons b rest ih =>
    simp only [List.length_cons] at ha
    exact ih (Memory.wf_write h (by omega)) (by omega)

theorem Memory.wfFrom_ofBytes {a : Nat} {bytes : List Byte} (ha : a + bytes.length ≤ memSize) :
    (Memory.ofBytes a bytes).wfFrom a := by
  induction bytes generalizing a with
  | nil => rfl
  | cons b rest ih =>
    simp only [List.length_cons] at ha
    have hrest := ih (a := a + 1) (by omega)
    simp only [Memory.ofBytes]
    split_ifs with hb
    · exact Memory.wfFrom_mono hrest (by omega)
    · have : a < memSize := by omega
      simp [Memory.wfFrom, hb, hrest, this]

/-- The memory `load` makes is canonical. -/
theorem Memory.wf_ofBytes {bytes : List Byte} (h : bytes.length ≤ memSize) :
    (Memory.ofBytes 0 bytes).wf :=
  Memory.wfFrom_ofBytes (by omega)

/-! ### Reads after writes -/

theorem Memory.read_write_from {m : Memory} {lo a a' : Nat} {b : Byte} (h : m.wfFrom lo) :
    (m.write a b).read a' = if a' = a then b else m.read a' := by
  induction m generalizing lo with
  | nil =>
    by_cases hb : b = 0#8
    · simp [Memory.write, Memory.read, hb]
    · simp only [Memory.write, hb, if_false, Memory.read]
      by_cases h1 : a' = a
      · simp [h1]
      · simp [h1]
  | cons c rest ih =>
    obtain ⟨k, v⟩ := c
    simp only [Memory.wfFrom, Bool.and_eq_true, decide_eq_true_eq] at h
    obtain ⟨⟨⟨h1, h2⟩, h3⟩, h4⟩ := h
    rcases Nat.lt_trichotomy a k with hk | hk | hk
    · by_cases ha : a' = a
      · subst ha
        by_cases hb : b = 0#8 <;> simp [Memory.write, Memory.read, hk, hb]
      · by_cases hb : b = 0#8
        · simp [Memory.write, hk, hb, ha]
        · have : a' < a → a' < k := by omega
          by_cases h5 : a' < a <;> simp_all [Memory.write, Memory.read]
    · subst hk
      by_cases ha : a' = a
      · subst ha
        by_cases hb : b = 0#8
        · simp [Memory.write, hb, Memory.read_below h4]
        · simp [Memory.write, Memory.read, hb]
      · by_cases hb : b = 0#8
        · by_cases h5 : a' < a
          · simp [Memory.write, Memory.read, hb, ha, h5, Memory.read_below h4 (show a' < a + 1 by omega)]
          · simp [Memory.write, Memory.read, hb, ha, h5]
        · simp [Memory.write, Memory.read, hb, ha]
    · have hk1 : ¬ a < k := by omega
      have hk2 : ¬ a = k := by omega
      simp only [Memory.write, hk1, hk2, if_false, Memory.read, ih h4]
      by_cases ha : a' = a
      · simp [ha, hk1, hk2]
      · simp [ha]

/-- A read after a write to a canonical memory: the byte written at its own address, every other byte
as it was. -/
theorem Memory.read_write {m : Memory} {a a' : Nat} {b : Byte} (h : m.wf) :
    (m.write a b).read a' = if a' = a then b else m.read a' :=
  Memory.read_write_from h

theorem Memory.length_readBytes (m : Memory) (a n : Nat) : (m.readBytes a n).length = n := by
  induction n generalizing a with
  | zero => rfl
  | succ n ih => simp [Memory.readBytes, ih]

theorem Memory.getElem?_readBytes (m : Memory) (a n i : Nat) :
    (m.readBytes a n)[i]? = if i < n then some (m.read (a + i)) else none := by
  induction n generalizing a i with
  | zero => simp [Memory.readBytes]
  | succ n ih =>
    cases i with
    | zero => simp [Memory.readBytes]
    | succ i => simp [Memory.readBytes, ih, Nat.add_assoc, Nat.add_comm 1]

/-- A block write to a canonical memory: byte `i` of the block at `a + i`, every other byte as it was. -/
theorem Memory.read_writeBytes {m : Memory} {a a' : Nat} {bytes : List Byte} (h : m.wf)
    (ha : a + bytes.length ≤ memSize) :
    (m.writeBytes a bytes).read a' =
      if a ≤ a' then bytes[a' - a]?.getD (m.read a') else m.read a' := by
  induction bytes generalizing m a with
  | nil => simp [Memory.writeBytes]
  | cons b rest ih =>
    simp only [List.length_cons] at ha
    rw [Memory.writeBytes, ih (Memory.wf_write h (by omega)) (by omega)]
    rw [Memory.read_write h]
    by_cases h1 : a + 1 ≤ a'
    · have h2 : a' - a = (a' - (a + 1)) + 1 := by omega
      have h3 : a ≤ a' := by omega
      have h4 : ¬ a' = a := by omega
      rw [if_pos h1, if_pos h3, if_neg h4, h2, List.getElem?_cons_succ]
    · rw [if_neg h1]
      by_cases h3 : a' = a
      · simp [h3]
      · rw [if_neg h3, if_neg (by omega)]

theorem Memory.read_ofBytes {a a' : Nat} {bytes : List Byte} (ha : a + bytes.length ≤ memSize) :
    (Memory.ofBytes a bytes).read a' = if a ≤ a' then bytes[a' - a]?.getD 0#8 else 0#8 := by
  induction bytes generalizing a with
  | nil => simp [Memory.ofBytes, Memory.read]
  | cons b rest ih =>
    simp only [List.length_cons] at ha
    have hrest := ih (a := a + 1) (by omega)
    have hwf := Memory.wfFrom_ofBytes (a := a + 1) (bytes := rest) (by omega)
    rcases Nat.lt_trichotomy a' a with h | h | h
    · have h1 : ¬ a ≤ a' := by omega
      by_cases hb : b = 0#8
      · simp [Memory.ofBytes, hb, h1, Memory.read_below hwf (show a' < a + 1 by omega)]
      · simp [Memory.ofBytes, hb, h1, Memory.read, h]
    · subst h
      by_cases hb : b = 0#8
      · simp [Memory.ofBytes, hb, Memory.read_below hwf (show a' < a' + 1 by omega)]
      · simp [Memory.ofBytes, hb, Memory.read]
    · have h1 : a ≤ a' := by omega
      have h2 : a' - a = (a' - (a + 1)) + 1 := by omega
      have h3 : ¬ a' < a := by omega
      have h4 : ¬ a' = a := by omega
      rw [if_pos (show a + 1 ≤ a' from h)] at hrest
      by_cases hb : b = 0#8
      · simp [Memory.ofBytes, hb, h1, h2, hrest]
      · simp [Memory.ofBytes, hb, h1, h2, h3, h4, hrest, Memory.read]

/-! ### The primitives of R64 and R65 -/

theorem wordOf_lo_hi (v : Word) : wordOf (loByte v) (hiByte v) = v := by
  apply BitVec.eq_of_getLsbD_eq
  intro i hi
  simp only [wordOf, loByte, hiByte, BitVec.getLsbD_append, BitVec.getLsbD_setWidth,
    BitVec.getLsbD_ushiftRight]
  split_ifs with h
  · simp [h]
  · have : i - 8 < 8 := by omega
    simp [this, show 8 + (i - 8) = i by omega]

theorem loByte_wordOf (lo hi' : Byte) : loByte (wordOf lo hi') = lo := by
  apply BitVec.eq_of_getLsbD_eq
  intro i hi
  have h : (wordOf lo hi').getLsbD i = lo.getLsbD i := by
    rw [wordOf, BitVec.getLsbD_append, if_pos hi]
  rw [loByte, BitVec.getLsbD_setWidth, h]
  simp [hi]

theorem hiByte_wordOf (lo hi' : Byte) : hiByte (wordOf lo hi') = hi' := by
  apply BitVec.eq_of_getLsbD_eq
  intro i hi
  have h : (wordOf lo hi').getLsbD (8 + i) = hi'.getLsbD i := by
    rw [wordOf, BitVec.getLsbD_append, if_neg (by omega), Nat.add_sub_cancel_left]
  rw [hiByte, BitVec.getLsbD_setWidth, BitVec.getLsbD_ushiftRight, h]
  simp [hi]

theorem inBounds_iff (addr : Word) (n : Nat) : inBounds addr n = true ↔ addr.toNat + n ≤ memSize := by
  simp only [inBounds, decide_eq_true_eq]

/-- Everything a 16-bit `MemRead` can answer. -/
theorem State.memRead_two (s : State) (addr : Word) :
    s.memRead addr .two =
      if addr.toNat + 2 ≤ memSize then
        some (wordOf (s.ram.read addr.toNat) (s.ram.read (addr.toNat + 1)))
      else none := by
  simp only [State.memRead, inBounds_iff, widthBytes]

/-- Everything a 16-bit `MemWrite` can answer. -/
theorem State.memWrite_two (s : State) (addr v : Word) :
    s.memWrite addr .two v =
      if addr.toNat + 2 ≤ memSize then
        some { s with
          ram := (s.ram.write addr.toNat (loByte v)).write (addr.toNat + 1) (hiByte v) }
      else none := by
  simp only [State.memWrite, inBounds_iff, widthBytes]

/-- The bytes of a 16-bit write to a canonical memory. -/
theorem Memory.read_write_two {m : Memory} {a a' : Nat} {lo hi : Byte} (h : m.wf)
    (ha : a + 2 ≤ memSize) :
    ((m.write a lo).write (a + 1) hi).read a' =
      if a' = a + 1 then hi else if a' = a then lo else m.read a' := by
  rw [Memory.read_write (Memory.wf_write h (by omega)), Memory.read_write h]

/-- The copy of R303 keeps the canonical form. -/
theorem State.wf_copyBytes {s : State} {src dst len : Nat} (h : s.ram.wf) (hd : dst + len ≤ memSize) :
    (s.copyBytes src dst len).ram.wf :=
  Memory.wf_writeBytes h (by rw [Memory.length_readBytes]; exact hd)

/-- The copy of R303, byte by byte: every byte comes from the memory before the copy. -/
theorem State.read_copyBytes {s : State} {src dst len a : Nat} (h : s.ram.wf)
    (hd : dst + len ≤ memSize) :
    (s.copyBytes src dst len).ram.read a =
      if dst ≤ a ∧ a < dst + len then s.ram.read (src + (a - dst)) else s.ram.read a := by
  rw [State.copyBytes, Memory.read_writeBytes h (by rw [Memory.length_readBytes]; exact hd),
    Memory.getElem?_readBytes]
  by_cases h1 : dst ≤ a
  · by_cases h2 : a < dst + len
    · rw [if_pos h1, if_pos (by omega), if_pos ⟨h1, h2⟩]; rfl
    · rw [if_pos h1, if_neg (by omega), if_neg (by omega)]; rfl
  · rw [if_neg h1, if_neg (by omega)]

end Sys2Proof.Machine
end

