-- ==== Sys2Proof/Laws/Stack.lean ====
section
/-! SUPPORT. The stack primitives: everything they can do (R220, R221). -/

namespace Sys2Proof.Machine

/-- The state after a push that has room (R220). -/
def State.pushed (s : State) (v : Word) : State :=
  { s with
    ram := (s.ram.write (stackAddr s.sp) (loByte v)).write (stackAddr (s.sp - 1#16)) (hiByte v),
    sp := s.sp - 2#16 }

theorem State.push16_drop {s : State} (h : s.sp = 0#16) (v : Word) : s.push16 v = .next s := by
  simp only [State.push16, h, if_true]

theorem State.push16_split {s : State} (h : s.sp = 1#16) (v : Word) :
    s.push16 v = .fault .stackSplitPush := by
  simp [State.push16, h]

theorem State.push16_room {s : State} (h1 : 2 ≤ s.sp.toNat) (h2 : s.sp.toNat ≤ 255) (v : Word) :
    s.push16 v = .next (s.pushed v) := by
  have h3 : s.sp ≠ 0#16 := by intro h; simp [h] at h1
  have h4 : s.sp ≠ 1#16 := by intro h; simp [h] at h1
  simp only [State.push16, h3, h4, if_false, if_neg (show ¬ 255 < s.sp.toNat by omega), State.pushed]

/-- Everything a push can answer. -/
theorem State.push16_cases (s : State) (v : Word) :
    (s.sp = 0#16 ∧ s.push16 v = .next s) ∨
    (2 ≤ s.sp.toNat ∧ s.sp.toNat ≤ 255 ∧ s.push16 v = .next (s.pushed v)) ∨
    ∃ f, s.push16 v = .fault f := by
  by_cases h0 : s.sp = 0#16
  · exact .inl ⟨h0, State.push16_drop h0 v⟩
  · by_cases h1 : s.sp = 1#16
    · exact .inr (.inr ⟨_, State.push16_split h1 v⟩)
    · by_cases h2 : 255 < s.sp.toNat
      · exact .inr (.inr ⟨.stackOutsideRam, by simp only [State.push16, h0, h1, h2, if_false, if_true]⟩)
      · have h3 : s.sp.toNat ≠ 0 := fun h => h0 (BitVec.eq_of_toNat_eq h)
        have h4 : s.sp.toNat ≠ 1 := fun h => h1 (BitVec.eq_of_toNat_eq h)
        exact .inr (.inl ⟨by omega, by omega, State.push16_room (by omega) (by omega) v⟩)

/-- The two addresses of a push that has room. -/
theorem stackAddr_pred {sp : Word} (h : 2 ≤ sp.toNat) : stackAddr (sp - 1#16) + 1 = stackAddr sp := by
  simp only [stackAddr]
  have : (sp - 1#16).toNat = sp.toNat - 1 := by
    rw [BitVec.toNat_sub_of_le (by simp [BitVec.le_def]; omega)]; rfl
  omega

theorem stackAddr_lt {sp : Word} (h : sp.toNat ≤ 255) : stackAddr sp < memSize := by
  simp only [stackAddr, stackBase, memSize]; omega

theorem State.wf_pushed {s : State} {v : Word} (hm : s.ram.wf) (h1 : 2 ≤ s.sp.toNat)
    (h2 : s.sp.toNat ≤ 255) : (s.pushed v).ram.wf := by
  have := stackAddr_pred h1
  have := stackAddr_lt h2
  exact Memory.wf_write (Memory.wf_write hm (by omega)) (by omega)

/-- The bytes of a push: the low byte at `0xFF00 + sp`, the high byte below it (R220). -/
theorem State.read_pushed {s : State} {v : Word} {a : Nat} (hm : s.ram.wf)
    (h2 : s.sp.toNat ≤ 255) :
    (s.pushed v).ram.read a =
      if a = stackAddr (s.sp - 1#16) then hiByte v
      else if a = stackAddr s.sp then loByte v else s.ram.read a := by
  have := stackAddr_lt h2
  rw [State.pushed, Memory.read_write (Memory.wf_write hm (by omega)), Memory.read_write hm]

/-- What a pop that has two bytes to pop gives (R221). -/
def State.topWord (s : State) : Word :=
  wordOf (s.ram.read (stackAddr (s.sp + 2#16))) (s.ram.read (stackAddr (s.sp + 1#16)))

theorem State.pop16_drop {s : State} (h : s.sp = 255#16) : s.pop16 = .dropped := by
  simp only [State.pop16, h, if_true]

theorem State.pop16_split {s : State} (h : s.sp = 254#16) :
    s.pop16 = .unspecified .stackSplitPop := by
  simp [State.pop16, h]

theorem State.pop16_value {s : State} (h : s.sp.toNat ≤ 253) :
    s.pop16 = .value s.topWord { s with sp := s.sp + 2#16 } := by
  have h3 : s.sp ≠ 255#16 := by intro hs; simp [hs] at h
  have h4 : s.sp ≠ 254#16 := by intro hs; simp [hs] at h
  simp only [State.pop16, h3, h4, if_false, if_neg (show ¬ 255 < s.sp.toNat by omega), State.topWord]

/-- Everything a pop can answer. -/
theorem State.pop16_cases (s : State) :
    (s.sp = 255#16 ∧ s.pop16 = .dropped) ∨
    (s.sp.toNat ≤ 253 ∧ s.pop16 = .value s.topWord { s with sp := s.sp + 2#16 }) ∨
    ∃ f, s.pop16 = .unspecified f := by
  by_cases h0 : s.sp = 255#16
  · exact .inl ⟨h0, State.pop16_drop h0⟩
  · by_cases h1 : s.sp = 254#16
    · exact .inr (.inr ⟨_, State.pop16_split h1⟩)
    · by_cases h2 : 255 < s.sp.toNat
      · exact .inr (.inr ⟨.stackOutsideRam, by simp only [State.pop16, h0, h1, h2, if_false, if_true]⟩)
      · have h3 : s.sp.toNat ≠ 255 := fun h => h0 (BitVec.eq_of_toNat_eq h)
        have h4 : s.sp.toNat ≠ 254 := fun h => h1 (BitVec.eq_of_toNat_eq h)
        exact .inr (.inl ⟨by omega, State.pop16_value (by omega)⟩)

end Sys2Proof.Machine
end

