-- ==== Sys2Proof/Laws/PixelPlane.lean ====
section
/-! SUPPORT. The pixel-plane primitives: what a pixel reads after each of them (R170 to R176). -/

namespace Sys2Proof.Machine

/-- A read after a pixel write inside the plane. -/
theorem Surface.pixel_putPixel (sur : Surface) {x y x' y' : Nat} (v : Bool) (hx : x < 320)
    (hy : y < 200) :
    (sur.putPixel x y v).pixel x' y' = if x' = x ∧ y' = y then v else sur.pixel x' y' := by
  have hrow : sur.pixels[y]? = some sur.pixels[y] := Vector.getElem?_eq_getElem hy
  simp only [Surface.putPixel, hrow, Surface.pixel, Vector.getElem?_setIfInBounds]
  by_cases h1 : y' = y
  · subst h1
    simp only [if_true, hy, hrow, Vector.getElem?_setIfInBounds, hx, and_true]
    by_cases h2 : x' = x
    · simp [h2]
    · rw [if_neg (fun h => h2 h.symm), if_neg h2]
  · rw [if_neg (fun h => h1 h.symm), if_neg (by simp [h1])]

/-- The fields a pixel operation leaves alone. -/
def Surface.SameText (sur sur' : Surface) : Prop :=
  sur'.cells = sur.cells ∧ sur'.cursorX = sur.cursorX ∧ sur'.cursorY = sur.cursorY ∧
  sur'.color = sur.color ∧ sur'.cursorVisible = sur.cursorVisible

theorem Surface.SameText.trans {a b c : Surface} (h : a.SameText b) (g : b.SameText c) :
    a.SameText c :=
  ⟨g.1.trans h.1, g.2.1.trans h.2.1, g.2.2.1.trans h.2.2.1, g.2.2.2.1.trans h.2.2.2.1,
    g.2.2.2.2.trans h.2.2.2.2⟩

theorem Surface.sameText_putPixel (sur : Surface) (x y : Nat) (v : Bool) :
    sur.SameText (sur.putPixel x y v) := by
  unfold Surface.putPixel
  split <;> exact ⟨rfl, rfl, rfl, rfl, rfl⟩

theorem Surface.sameText_plot (sur : Surface) (p : Point) : sur.SameText (sur.plot p) := by
  unfold Surface.plot
  split
  · exact sur.sameText_putPixel _ _ _
  · exact ⟨rfl, rfl, rfl, rfl, rfl⟩

theorem Surface.sameText_plotAll (sur : Surface) (points : List Point) :
    sur.SameText (sur.plotAll points) := by
  induction points generalizing sur with
  | nil => exact ⟨rfl, rfl, rfl, rfl, rfl⟩
  | cons p rest ih => exact (sur.sameText_plot p).trans (ih (sur.plot p))

/-- One `Plot` (R170). -/
theorem Surface.pixel_plot (sur : Surface) (p : Point) {x y : Nat} (hx : x < 320) (hy : y < 200) :
    (sur.plot p).pixel x y = (sur.pixel x y || decide (p = ((x : Int), (y : Int)))) := by
  obtain ⟨px, py⟩ := p
  unfold Surface.plot
  simp only [pixW, pixH, Nat.cast_ofNat]
  by_cases h : (0 : Int) ≤ px ∧ px < 320 ∧ 0 ≤ py ∧ py < 200
  · obtain ⟨h1, h2, h3, h4⟩ := h
    rw [if_pos ⟨h1, h2, h3, h4⟩,
      Surface.pixel_putPixel _ _ (by show px.toNat < 320; omega) (by show py.toNat < 200; omega)]
    by_cases hp : x = px.toNat ∧ y = py.toNat
    · have hpe : ((px, py) : Point) = ((x : Int), (y : Int)) := by
        rw [Prod.mk.injEq]; omega
      rw [if_pos hp, hpe]; simp
    · have hpe : ¬ ((px, py) : Point) = ((x : Int), (y : Int)) := by
        rw [Prod.mk.injEq]; omega
      rw [if_neg hp, decide_eq_false hpe, Bool.or_false]
  · have hpe : ¬ ((px, py) : Point) = ((x : Int), (y : Int)) := by
      rw [Prod.mk.injEq]; omega
    rw [if_neg h, decide_eq_false hpe, Bool.or_false]

/-- A run of `Plot`s sets the points of the list and clears none (R170, R176). -/
theorem Surface.pixel_plotAll (sur : Surface) (points : List Point) {x y : Nat} (hx : x < 320)
    (hy : y < 200) :
    (sur.plotAll points).pixel x y =
      (sur.pixel x y || decide (((x : Int), (y : Int)) ∈ points)) := by
  induction points generalizing sur with
  | nil => simp [Surface.plotAll]
  | cons p rest ih =>
    have hcons : sur.plotAll (p :: rest) = (sur.plot p).plotAll rest := rfl
    rw [hcons, ih, Surface.pixel_plot _ _ hx hy]
    simp only [List.mem_cons, Bool.decide_or, Bool.or_assoc, eq_comm]

theorem getElem?_addToRow (inSet : Nat → Bool) (x0 : Nat) (row : List Bool) (x : Nat) :
    (addToRow inSet x0 row)[x]? = (row[x]?).map (· || inSet (x0 + x)) := by
  induction row generalizing x0 x with
  | nil => rfl
  | cons p rest ih =>
    cases x with
    | zero => simp [addToRow]
    | succ x => simp [addToRow, ih, Nat.add_assoc, Nat.add_comm 1]

theorem getElem?_addToRows (inSet : Nat → Nat → Bool) (y0 : Nat) (rows : List PixelRow) (y x : Nat) :
    ((addToRows inSet y0 rows)[y]?.bind (·[x]?)) =
      (rows[y]?.bind (·[x]?)).map (· || inSet x (y0 + y)) := by
  induction rows generalizing y0 y with
  | nil => rfl
  | cons row rest ih =>
    cases y with
    | zero =>
      simp only [addToRows, List.getElem?_cons_zero, Option.bind_some, Nat.add_zero]
      rw [← Vector.getElem?_toList, ← Vector.getElem?_toList]
      simp [getElem?_addToRow]
    | succ y =>
      simp only [addToRows, List.getElem?_cons_succ, ih, Nat.add_assoc, Nat.add_comm 1]

/-- Plotting a set given by membership: the pixels in the set are set, none is cleared (R170, R174). -/
theorem Surface.pixel_plotWhere (sur : Surface) (inSet : Nat → Nat → Bool) {x y : Nat} (hx : x < 320)
    (hy : y < 200) :
    (sur.plotWhere inSet).pixel x y = (sur.pixel x y || inSet x y) := by
  have key : ∀ t : Surface, t.pixel x y = ((t.pixels.toList[y]?.bind (·[x]?)).getD false) := by
    intro t
    rw [Vector.getElem?_toList]
    unfold Surface.pixel
    cases t.pixels[y]? <;> rfl
  rw [key, key]
  simp only [Surface.plotWhere, Vector.toList_mk, getElem?_addToRows, Nat.zero_add]
  have hrow : sur.pixels.toList[y]? = some sur.pixels[y] := by
    rw [Vector.getElem?_toList]; exact Vector.getElem?_eq_getElem hy
  have hcol : (sur.pixels[y])[x]? = some (sur.pixels[y])[x] := Vector.getElem?_eq_getElem hx
  simp [hrow, hcol]

theorem Surface.sameText_plotWhere (sur : Surface) (inSet : Nat → Nat → Bool) :
    sur.SameText (sur.plotWhere inSet) := ⟨rfl, rfl, rfl, rfl, rfl⟩

theorem Surface.sameText_shown (sur : Surface) : sur.SameText sur.shown := ⟨rfl, rfl, rfl, rfl, rfl⟩

@[simp] theorem Surface.pixel_shown (sur : Surface) (x y : Nat) : sur.shown.pixel x y = sur.pixel x y :=
  rfl

end Sys2Proof.Machine
end

