-- ==== Sys2Proof/Laws/State.lean ====
section
/-! SUPPORT. What each update of the state does to each field. -/

namespace Sys2Proof.Machine

variable (s : State)

/-! ### `setReg` -/

@[simp] theorem State.setReg_ram (r : Byte) (v : Word) : (s.setReg r v).ram = s.ram := rfl
@[simp] theorem State.setReg_regs (r : Byte) (v : Word) : (s.setReg r v).regs = s.regs.setIfInBounds r.toNat v := rfl
@[simp] theorem State.setReg_pc (r : Byte) (v : Word) : (s.setReg r v).pc = s.pc := rfl
@[simp] theorem State.setReg_sp (r : Byte) (v : Word) : (s.setReg r v).sp = s.sp := rfl
@[simp] theorem State.setReg_flags (r : Byte) (v : Word) : (s.setReg r v).flags = s.flags := rfl
@[simp] theorem State.setReg_running (r : Byte) (v : Word) : (s.setReg r v).running = s.running := rfl
@[simp] theorem State.setReg_stopReason (r : Byte) (v : Word) : (s.setReg r v).stopReason = s.stopReason := rfl
@[simp] theorem State.setReg_surface (r : Byte) (v : Word) : (s.setReg r v).surface = s.surface := rfl
@[simp] theorem State.setReg_keySlot (r : Byte) (v : Word) : (s.setReg r v).keySlot = s.keySlot := rfl
@[simp] theorem State.setReg_keySeq (r : Byte) (v : Word) : (s.setReg r v).keySeq = s.keySeq := rfl
@[simp] theorem State.setReg_shutdown (r : Byte) (v : Word) : (s.setReg r v).shutdown = s.shutdown := rfl
@[simp] theorem State.setReg_hold (r : Byte) (v : Word) : (s.setReg r v).hold = s.hold := rfl
@[simp] theorem State.setReg_config (r : Byte) (v : Word) : (s.setReg r v).config = s.config := rfl
@[simp] theorem State.setReg_schedule (r : Byte) (v : Word) : (s.setReg r v).schedule = s.schedule := rfl
@[simp] theorem State.setReg_draws (r : Byte) (v : Word) : (s.setReg r v).draws = s.draws := rfl

/-! ### `advance` -/

@[simp] theorem State.advance_ram (n : Nat) : (s.advance n).ram = s.ram := rfl
@[simp] theorem State.advance_regs (n : Nat) : (s.advance n).regs = s.regs := rfl
@[simp] theorem State.advance_pc (n : Nat) : (s.advance n).pc = s.pc + BitVec.ofNat 17 n := rfl
@[simp] theorem State.advance_sp (n : Nat) : (s.advance n).sp = s.sp := rfl
@[simp] theorem State.advance_flags (n : Nat) : (s.advance n).flags = s.flags := rfl
@[simp] theorem State.advance_running (n : Nat) : (s.advance n).running = s.running := rfl
@[simp] theorem State.advance_stopReason (n : Nat) : (s.advance n).stopReason = s.stopReason := rfl
@[simp] theorem State.advance_surface (n : Nat) : (s.advance n).surface = s.surface := rfl
@[simp] theorem State.advance_keySlot (n : Nat) : (s.advance n).keySlot = s.keySlot := rfl
@[simp] theorem State.advance_keySeq (n : Nat) : (s.advance n).keySeq = s.keySeq := rfl
@[simp] theorem State.advance_shutdown (n : Nat) : (s.advance n).shutdown = s.shutdown := rfl
@[simp] theorem State.advance_hold (n : Nat) : (s.advance n).hold = s.hold := rfl
@[simp] theorem State.advance_config (n : Nat) : (s.advance n).config = s.config := rfl
@[simp] theorem State.advance_schedule (n : Nat) : (s.advance n).schedule = s.schedule := rfl
@[simp] theorem State.advance_draws (n : Nat) : (s.advance n).draws = s.draws := rfl

/-! ### `jump` -/

@[simp] theorem State.jump_ram (t : Word) : (s.jump t).ram = s.ram := rfl
@[simp] theorem State.jump_regs (t : Word) : (s.jump t).regs = s.regs := rfl
@[simp] theorem State.jump_pc (t : Word) : (s.jump t).pc = t.setWidth 17 := rfl
@[simp] theorem State.jump_sp (t : Word) : (s.jump t).sp = s.sp := rfl
@[simp] theorem State.jump_flags (t : Word) : (s.jump t).flags = s.flags := rfl
@[simp] theorem State.jump_running (t : Word) : (s.jump t).running = s.running := rfl
@[simp] theorem State.jump_stopReason (t : Word) : (s.jump t).stopReason = s.stopReason := rfl
@[simp] theorem State.jump_surface (t : Word) : (s.jump t).surface = s.surface := rfl
@[simp] theorem State.jump_keySlot (t : Word) : (s.jump t).keySlot = s.keySlot := rfl
@[simp] theorem State.jump_keySeq (t : Word) : (s.jump t).keySeq = s.keySeq := rfl
@[simp] theorem State.jump_shutdown (t : Word) : (s.jump t).shutdown = s.shutdown := rfl
@[simp] theorem State.jump_hold (t : Word) : (s.jump t).hold = s.hold := rfl
@[simp] theorem State.jump_config (t : Word) : (s.jump t).config = s.config := rfl
@[simp] theorem State.jump_schedule (t : Word) : (s.jump t).schedule = s.schedule := rfl
@[simp] theorem State.jump_draws (t : Word) : (s.jump t).draws = s.draws := rfl

/-! ### `stop` -/

@[simp] theorem State.stop_ram (why : StopReason) : (s.stop why).ram = s.ram := rfl
@[simp] theorem State.stop_regs (why : StopReason) : (s.stop why).regs = s.regs := rfl
@[simp] theorem State.stop_pc (why : StopReason) : (s.stop why).pc = s.pc := rfl
@[simp] theorem State.stop_sp (why : StopReason) : (s.stop why).sp = s.sp := rfl
@[simp] theorem State.stop_flags (why : StopReason) : (s.stop why).flags = s.flags := rfl
@[simp] theorem State.stop_running (why : StopReason) : (s.stop why).running = false := rfl
@[simp] theorem State.stop_stopReason (why : StopReason) : (s.stop why).stopReason = why := rfl
@[simp] theorem State.stop_surface (why : StopReason) : (s.stop why).surface = s.surface := rfl
@[simp] theorem State.stop_keySlot (why : StopReason) : (s.stop why).keySlot = s.keySlot := rfl
@[simp] theorem State.stop_keySeq (why : StopReason) : (s.stop why).keySeq = s.keySeq := rfl
@[simp] theorem State.stop_shutdown (why : StopReason) : (s.stop why).shutdown = s.shutdown := rfl
@[simp] theorem State.stop_hold (why : StopReason) : (s.stop why).hold = none := rfl
@[simp] theorem State.stop_config (why : StopReason) : (s.stop why).config = s.config := rfl
@[simp] theorem State.stop_schedule (why : StopReason) : (s.stop why).schedule = s.schedule := rfl
@[simp] theorem State.stop_draws (why : StopReason) : (s.stop why).draws = s.draws := rfl

/-! ### `raiseFault` -/

@[simp] theorem State.raiseFault_ram (k : FaultKind) : (s.raiseFault k).ram = s.ram := rfl
@[simp] theorem State.raiseFault_regs (k : FaultKind) : (s.raiseFault k).regs = s.regs := rfl
@[simp] theorem State.raiseFault_pc (k : FaultKind) : (s.raiseFault k).pc = s.pc := rfl
@[simp] theorem State.raiseFault_sp (k : FaultKind) : (s.raiseFault k).sp = s.sp := rfl
@[simp] theorem State.raiseFault_flags (k : FaultKind) : (s.raiseFault k).flags = s.flags := rfl
@[simp] theorem State.raiseFault_running (k : FaultKind) : (s.raiseFault k).running = false := rfl
@[simp] theorem State.raiseFault_stopReason (k : FaultKind) : (s.raiseFault k).stopReason = faultReason k := rfl
@[simp] theorem State.raiseFault_surface (k : FaultKind) : (s.raiseFault k).surface = s.surface.putchars (diagBytes s.config k) := rfl
@[simp] theorem State.raiseFault_keySlot (k : FaultKind) : (s.raiseFault k).keySlot = s.keySlot := rfl
@[simp] theorem State.raiseFault_keySeq (k : FaultKind) : (s.raiseFault k).keySeq = s.keySeq := rfl
@[simp] theorem State.raiseFault_shutdown (k : FaultKind) : (s.raiseFault k).shutdown = s.shutdown := rfl
@[simp] theorem State.raiseFault_hold (k : FaultKind) : (s.raiseFault k).hold = none := rfl
@[simp] theorem State.raiseFault_config (k : FaultKind) : (s.raiseFault k).config = s.config := rfl
@[simp] theorem State.raiseFault_schedule (k : FaultKind) : (s.raiseFault k).schedule = s.schedule := rfl
@[simp] theorem State.raiseFault_draws (k : FaultKind) : (s.raiseFault k).draws = s.draws := rfl

/-! ### `copyBytes` -/

@[simp] theorem State.copyBytes_ram (src dst len : Nat) : (s.copyBytes src dst len).ram = s.ram.writeBytes dst (s.ram.readBytes src len) := rfl
@[simp] theorem State.copyBytes_regs (src dst len : Nat) : (s.copyBytes src dst len).regs = s.regs := rfl
@[simp] theorem State.copyBytes_pc (src dst len : Nat) : (s.copyBytes src dst len).pc = s.pc := rfl
@[simp] theorem State.copyBytes_sp (src dst len : Nat) : (s.copyBytes src dst len).sp = s.sp := rfl
@[simp] theorem State.copyBytes_flags (src dst len : Nat) : (s.copyBytes src dst len).flags = s.flags := rfl
@[simp] theorem State.copyBytes_running (src dst len : Nat) : (s.copyBytes src dst len).running = s.running := rfl
@[simp] theorem State.copyBytes_stopReason (src dst len : Nat) : (s.copyBytes src dst len).stopReason = s.stopReason := rfl
@[simp] theorem State.copyBytes_surface (src dst len : Nat) : (s.copyBytes src dst len).surface = s.surface := rfl
@[simp] theorem State.copyBytes_keySlot (src dst len : Nat) : (s.copyBytes src dst len).keySlot = s.keySlot := rfl
@[simp] theorem State.copyBytes_keySeq (src dst len : Nat) : (s.copyBytes src dst len).keySeq = s.keySeq := rfl
@[simp] theorem State.copyBytes_shutdown (src dst len : Nat) : (s.copyBytes src dst len).shutdown = s.shutdown := rfl
@[simp] theorem State.copyBytes_hold (src dst len : Nat) : (s.copyBytes src dst len).hold = s.hold := rfl
@[simp] theorem State.copyBytes_config (src dst len : Nat) : (s.copyBytes src dst len).config = s.config := rfl
@[simp] theorem State.copyBytes_schedule (src dst len : Nat) : (s.copyBytes src dst len).schedule = s.schedule := rfl
@[simp] theorem State.copyBytes_draws (src dst len : Nat) : (s.copyBytes src dst len).draws = s.draws := rfl

/-! ### `endHold` -/

@[simp] theorem State.endHold_ram (rest : List Turn) : (s.endHold rest).ram = s.ram := rfl
@[simp] theorem State.endHold_regs (rest : List Turn) : (s.endHold rest).regs = s.regs := rfl
@[simp] theorem State.endHold_pc (rest : List Turn) : (s.endHold rest).pc = s.pc := rfl
@[simp] theorem State.endHold_sp (rest : List Turn) : (s.endHold rest).sp = s.sp := rfl
@[simp] theorem State.endHold_flags (rest : List Turn) : (s.endHold rest).flags = s.flags := rfl
@[simp] theorem State.endHold_running (rest : List Turn) : (s.endHold rest).running = s.running := rfl
@[simp] theorem State.endHold_stopReason (rest : List Turn) : (s.endHold rest).stopReason = s.stopReason := rfl
@[simp] theorem State.endHold_surface (rest : List Turn) : (s.endHold rest).surface = s.surface := rfl
@[simp] theorem State.endHold_keySlot (rest : List Turn) : (s.endHold rest).keySlot = s.keySlot := rfl
@[simp] theorem State.endHold_keySeq (rest : List Turn) : (s.endHold rest).keySeq = s.keySeq := rfl
@[simp] theorem State.endHold_shutdown (rest : List Turn) : (s.endHold rest).shutdown = s.shutdown := rfl
@[simp] theorem State.endHold_hold (rest : List Turn) : (s.endHold rest).hold = none := rfl
@[simp] theorem State.endHold_config (rest : List Turn) : (s.endHold rest).config = s.config := rfl
@[simp] theorem State.endHold_schedule (rest : List Turn) : (s.endHold rest).schedule = rest := rfl
@[simp] theorem State.endHold_draws (rest : List Turn) : (s.endHold rest).draws = s.draws := rfl

/-! ### `takeKey` -/

@[simp] theorem State.takeKey_ram (r : Byte) : (s.takeKey r).ram = s.ram := rfl
@[simp] theorem State.takeKey_regs (r : Byte) : (s.takeKey r).regs = s.regs.setIfInBounds r.toNat (s.keySlot.setWidth 16) := rfl
@[simp] theorem State.takeKey_pc (r : Byte) : (s.takeKey r).pc = s.pc := rfl
@[simp] theorem State.takeKey_sp (r : Byte) : (s.takeKey r).sp = s.sp := rfl
@[simp] theorem State.takeKey_flags (r : Byte) : (s.takeKey r).flags = s.flags := rfl
@[simp] theorem State.takeKey_running (r : Byte) : (s.takeKey r).running = s.running := rfl
@[simp] theorem State.takeKey_stopReason (r : Byte) : (s.takeKey r).stopReason = s.stopReason := rfl
@[simp] theorem State.takeKey_surface (r : Byte) : (s.takeKey r).surface = s.surface := rfl
@[simp] theorem State.takeKey_keySlot (r : Byte) : (s.takeKey r).keySlot = s.keySlot := rfl
@[simp] theorem State.takeKey_keySeq (r : Byte) : (s.takeKey r).keySeq = s.keySeq := rfl
@[simp] theorem State.takeKey_shutdown (r : Byte) : (s.takeKey r).shutdown = s.shutdown := rfl
@[simp] theorem State.takeKey_hold (r : Byte) : (s.takeKey r).hold = s.hold := rfl
@[simp] theorem State.takeKey_config (r : Byte) : (s.takeKey r).config = s.config := rfl
@[simp] theorem State.takeKey_schedule (r : Byte) : (s.takeKey r).schedule = s.schedule := rfl
@[simp] theorem State.takeKey_draws (r : Byte) : (s.takeKey r).draws = s.draws := rfl

end Sys2Proof.Machine
end

