-- ==== Sys2Proof/Laws/Registers.lean ====
section
/-! SUPPORT. Register operands, the ALU frames and the flags: everything the shared operations can do
(R21, R22, R23, R240). -/

namespace Sys2Proof.Machine

/-- A register read answers nothing exactly for a bad index. -/
theorem State.reg_eq_none_iff (s : State) (r : Byte) : s.reg r = none ↔ 8 ≤ r.toNat := by
  simp [State.reg]

theorem State.reg_of_bad {s : State} {r : Byte} (h : 8 ≤ r.toNat) : s.reg r = none :=
  (s.reg_eq_none_iff r).2 h

/-- A good index reads some value. -/
theorem State.exists_reg {s : State} {r : Byte} (h : r.toNat < 8) : ∃ v, s.reg r = some v := by
  cases hv : s.reg r with
  | none => have := (s.reg_eq_none_iff r).1 hv; omega
  | some v => exact ⟨v, rfl⟩

theorem State.lt_of_reg {s : State} {r : Byte} {v : Word} (h : s.reg r = some v) : r.toNat < 8 := by
  by_contra hr
  rw [State.reg_of_bad (by omega)] at h
  cases h

/-- A read depends on the register file alone. -/
theorem State.reg_congr {s t : State} (h : t.regs = s.regs) (r : Byte) : t.reg r = s.reg r := by
  simp only [State.reg, h]

/-- A read after a write: the value at the register written, every other register as it was, and a bad
index writes nothing. -/
theorem State.reg_setReg (s : State) (r r' : Byte) (v : Word) :
    (s.setReg r v).reg r' = if r' = r ∧ r.toNat < 8 then some v else s.reg r' := by
  simp only [State.reg, State.setReg_regs, Vector.getElem?_setIfInBounds]
  by_cases h : r' = r
  · subst h
    by_cases h8 : r'.toNat < 8
    · simp [h8]
    · rw [if_pos rfl, if_neg h8, if_neg (by simp [h8])]
      exact (Vector.getElem?_eq_none_iff.2 (by omega)).symm
  · have : r.toNat ≠ r'.toNat := fun hn => h (BitVec.eq_of_toNat_eq hn.symm)
    rw [if_neg this, if_neg (by simp [h])]

/-- A write through a bad index changes nothing (R22). -/
theorem State.setReg_bad {s : State} {r : Byte} (h : 8 ≤ r.toNat) (v : Word) : s.setReg r v = s := by
  have hr : s.regs.setIfInBounds r.toNat v = s.regs := by
    ext i hi
    rw [Vector.getElem_setIfInBounds, if_neg (by omega)]
  simp only [State.setReg, hr]

/-- The three-register frame with both sources good. -/
theorem State.alu3_of_regs {s : State} {d s1 s2 : Byte} {a b : Word} {f : Word → Word → Option Word}
    (h1 : s.reg s1 = some a) (h2 : s.reg s2 = some b) :
    s.alu3 d s1 s2 f = ((f a b).map (s.setReg d)).getD s := by
  simp only [State.alu3, h1, h2]
  cases f a b <;> rfl

/-- The three-register frame with a bad index among its operands changes nothing. -/
theorem State.alu3_of_bad {s : State} {d s1 s2 : Byte} {f : Word → Word → Option Word}
    (h : 8 ≤ d.toNat ∨ 8 ≤ s1.toNat ∨ 8 ≤ s2.toNat) : s.alu3 d s1 s2 f = s := by
  unfold State.alu3
  split
  · rename_i a b h1 h2
    split
    · rcases h with h | h | h
      · exact State.setReg_bad h _
      · rw [State.reg_of_bad h] at h1; cases h1
      · rw [State.reg_of_bad h] at h2; cases h2
    · rfl
  · rfl

/-- Everything the three-register frame can do: nothing, or one register write. -/
theorem State.alu3_cases (s : State) (d s1 s2 : Byte) (f : Word → Word → Option Word) :
    s.alu3 d s1 s2 f = s ∨ ∃ v, s.alu3 d s1 s2 f = s.setReg d v := by
  unfold State.alu3
  split
  · split
    · exact .inr ⟨_, rfl⟩
    · exact .inl rfl
  · exact .inl rfl

theorem State.aluShift_of_regs {s : State} {op : ShiftOp} {d a : Byte} {v c : Word}
    (h1 : s.reg d = some v) (h2 : s.reg a = some c) :
    s.aluShift op d a = s.setReg d (shiftResult s.config op v c) := by
  simp only [State.aluShift, h1, h2]

theorem State.aluShift_of_bad {s : State} {op : ShiftOp} {d a : Byte}
    (h : 8 ≤ d.toNat ∨ 8 ≤ a.toNat) : s.aluShift op d a = s := by
  unfold State.aluShift
  split
  · rename_i v c h1 h2
    rcases h with h | h
    · rw [State.reg_of_bad h] at h1; cases h1
    · rw [State.reg_of_bad h] at h2; cases h2
  · rfl

/-- Everything the shift frame can do: nothing, or one register write. -/
theorem State.aluShift_cases (s : State) (op : ShiftOp) (d a : Byte) :
    s.aluShift op d a = s ∨ ∃ v, s.aluShift op d a = s.setReg d v := by
  unfold State.aluShift
  split
  · exact .inr ⟨_, rfl⟩
  · exact .inl rfl

/-- CMP writes one of the three flags (R252). -/
theorem cmpFlags_cases (a b : Word) : cmpFlags a b = 1#8 ∨ cmpFlags a b = 2#8 ∨ cmpFlags a b = 4#8 := by
  unfold cmpFlags
  split_ifs
  · exact .inl rfl
  · exact .inr (.inl rfl)
  · exact .inr (.inr rfl)

/-- A CMP with a bad index keeps the flags or clears them (R252). -/
theorem badCmpFlags_cases (flags : Byte) (n : Nat) :
    badCmpFlags flags n = flags ∨ badCmpFlags flags n = 0#8 := by
  unfold badCmpFlags
  split_ifs
  · exact .inl rfl
  · exact .inr rfl

/-- Everything a conditional jump can do. -/
theorem State.jumpIf_cases (s : State) (cond : Bool) (t : Word) :
    s.jumpIf cond t = s ∨ s.jumpIf cond t = s.jump t := by
  cases cond
  · exact .inl rfl
  · exact .inr rfl

end Sys2Proof.Machine
end

