-- ==== Sys2Proof/Laws/TextPlane.lean ====
section
/-! SUPPORT. The text-plane primitives: cells, scrolling, and what they leave alone (R130 to R135). -/

namespace Sys2Proof.Machine

theorem Surface.cell_none_of_row (sur : Surface) {row col : Nat} (h : 25 ≤ row) :
    sur.cell row col = none := by
  simp only [Surface.cell, Vector.getElem?_eq_none_iff.2 h]

/-- A read after a cell write: the cell written, every other cell as it was. -/
theorem Surface.cell_putCell (sur : Surface) {row col row' col' : Nat} (c : TextCell) (hr : row < 25)
    (hc : col < 80) :
    (sur.putCell row col c).cell row' col' =
      if row' = row ∧ col' = col then some c else sur.cell row' col' := by
  have hrow : sur.cells[row]? = some sur.cells[row] := Vector.getElem?_eq_getElem hr
  simp only [Surface.putCell, hrow, Surface.cell, Vector.getElem?_setIfInBounds]
  by_cases h1 : row' = row
  · subst h1
    simp only [if_true, hr, hrow, Vector.getElem?_setIfInBounds, hc, true_and]
    by_cases h2 : col' = col
    · simp [h2]
    · rw [if_neg (fun h => h2 h.symm), if_neg h2]
  · rw [if_neg (fun h => h1 h.symm), if_neg (by simp [h1])]

@[simp] theorem Surface.putCell_pixels (sur : Surface) (row col : Nat) (c : TextCell) :
    (sur.putCell row col c).pixels = sur.pixels := by unfold Surface.putCell; split <;> rfl
@[simp] theorem Surface.putCell_cursorX (sur : Surface) (row col : Nat) (c : TextCell) :
    (sur.putCell row col c).cursorX = sur.cursorX := by unfold Surface.putCell; split <;> rfl
@[simp] theorem Surface.putCell_cursorY (sur : Surface) (row col : Nat) (c : TextCell) :
    (sur.putCell row col c).cursorY = sur.cursorY := by unfold Surface.putCell; split <;> rfl
@[simp] theorem Surface.putCell_color (sur : Surface) (row col : Nat) (c : TextCell) :
    (sur.putCell row col c).color = sur.color := by unfold Surface.putCell; split <;> rfl
@[simp] theorem Surface.putCell_pixelMode (sur : Surface) (row col : Nat) (c : TextCell) :
    (sur.putCell row col c).pixelMode = sur.pixelMode := by unfold Surface.putCell; split <;> rfl
@[simp] theorem Surface.putCell_cursorVisible (sur : Surface) (row col : Nat) (c : TextCell) :
    (sur.putCell row col c).cursorVisible = sur.cursorVisible := by
  unfold Surface.putCell; split <;> rfl
@[simp] theorem Surface.putCell_dirty (sur : Surface) (row col : Nat) (c : TextCell) :
    (sur.putCell row col c).dirty = sur.dirty := by unfold Surface.putCell; split <;> rfl

/-- Row `i` receives row `i + 1`, row 24 the new row (R132). -/
theorem getElem?_shiftUp (cells : Vector (Vector TextCell 80) 25) (bottom : Vector TextCell 80)
    (row : Nat) :
    (shiftUp cells bottom)[row]? =
      if row < 24 then cells[row + 1]? else if row = 24 then some bottom else none := by
  rw [← Vector.getElem?_toList, ← Vector.getElem?_toList]
  simp only [shiftUp, Vector.toList_mk]
  rw [List.getElem?_append]
  simp only [List.length_tail, Vector.length_toList, List.getElem?_tail]
  by_cases h : row < 24
  · rw [if_pos (by omega), if_pos h]
  · rw [if_neg (by omega), if_neg h]
    by_cases h2 : row = 24
    · subst h2; rfl
    · rw [if_neg h2]
      exact List.getElem?_eq_none (by simp; omega)

/-- The cells after a scroll (R132). -/
theorem Surface.cell_scroll (sur : Surface) {row col : Nat} (hc : col < 80) :
    sur.scroll.cell row col =
      if row < 24 then sur.cell (row + 1) col
      else if row = 24 then some ⟨0x20#8, sur.color⟩ else none := by
  simp only [Surface.cell, Surface.scroll, getElem?_shiftUp]
  by_cases h : row < 24
  · simp only [h, if_true]
  · by_cases h2 : row = 24
    · simp [h2, Surface.blankLine, hc]
    · simp [h, h2]

/-- What `PutPrintable` leaves alone. -/
theorem Surface.putPrintable_frame (sur : Surface) (b : Byte) :
    (sur.putPrintable b).pixels = sur.pixels ∧ (sur.putPrintable b).color = sur.color ∧
    (sur.putPrintable b).pixelMode = sur.pixelMode ∧
    (sur.putPrintable b).cursorVisible = sur.cursorVisible ∧
    (sur.putPrintable b).dirty = sur.dirty := by
  simp only [Surface.putPrintable, Surface.storeChar, Surface.putCell_pixels, Surface.putCell_color,
    Surface.putCell_pixelMode, Surface.putCell_cursorVisible, Surface.putCell_dirty,
    Surface.scrollIfBelow, Surface.wrapLine, Surface.scroll]
  split_ifs <;> exact ⟨rfl, rfl, rfl, rfl, rfl⟩

/-- What `Putchar` leaves alone, and that it sets `dirty` (R130, R39). -/
theorem Surface.putchar_frame (sur : Surface) (b : Byte) :
    (sur.putchar b).pixels = sur.pixels ∧ (sur.putchar b).color = sur.color ∧
    (sur.putchar b).pixelMode = sur.pixelMode ∧
    (sur.putchar b).cursorVisible = sur.cursorVisible ∧ (sur.putchar b).dirty = true := by
  obtain ⟨h1, h2, h3, h4, -⟩ := sur.putPrintable_frame b
  simp only [Surface.putchar, Surface.moveOrPrint]
  split_ifs <;> simp [h1, h2, h3, h4]

@[simp] theorem Surface.putchars_nil (sur : Surface) : sur.putchars [] = sur := rfl
@[simp] theorem Surface.putchars_cons (sur : Surface) (b : Byte) (bytes : List Byte) :
    sur.putchars (b :: bytes) = (sur.putchar b).putchars bytes := rfl

theorem Surface.putchars_append (sur : Surface) (xs ys : List Byte) :
    sur.putchars (xs ++ ys) = (sur.putchars xs).putchars ys := by
  simp only [Surface.putchars, List.foldl_append]

/-- What a run of `Putchar`s leaves alone, and that `dirty` never falls. -/
theorem Surface.putchars_frame (sur : Surface) (bytes : List Byte) :
    (sur.putchars bytes).pixels = sur.pixels ∧ (sur.putchars bytes).color = sur.color ∧
    (sur.putchars bytes).pixelMode = sur.pixelMode ∧
    (sur.putchars bytes).cursorVisible = sur.cursorVisible ∧
    (sur.dirty = true → (sur.putchars bytes).dirty = true) := by
  induction bytes generalizing sur with
  | nil => exact ⟨rfl, rfl, rfl, rfl, id⟩
  | cons b rest ih =>
    obtain ⟨h1, h2, h3, h4, h5⟩ := sur.putchar_frame b
    obtain ⟨g1, g2, g3, g4, g5⟩ := ih (sur.putchar b)
    rw [Surface.putchars_cons]
    exact ⟨g1.trans h1, g2.trans h2, g3.trans h3, g4.trans h4, fun _ => g5 h5⟩

end Sys2Proof.Machine
end

