-- ==== Sys2Proof/Laws/HostMoves.lean ====
section
/-! SUPPORT. The host's moves, the schedule and the holds: everything they can do (R330, R333, R340). -/

namespace Sys2Proof.Machine

/-- `load` on a machine that is not running (R360, R361). -/
theorem State.load_stopped {s : State} (h : s.running = false) (blob : List Byte) :
    s.load blob =
      if memSize < blob.length then .errTooLarge
      else .ok { s with
        ram := Memory.ofBytes 0 blob, regs := Vector.replicate 8 0#16, pc := 0#17, sp := 255#16,
        flags := 0#8, running := true, stopReason := .none, hold := none,
        surface := { s.surface with cursorVisible := true } } := by
  unfold State.load
  rw [h]
  split_ifs <;> first | rfl | contradiction

/-- During a run `load` is not accepted (R340). -/
theorem State.load_running {s : State} (h : s.running = true) (blob : List Byte) :
    s.load blob = .notAccepted := by
  unfold State.load
  rw [h]
  rfl

/-- What a host move leaves alone while the machine runs: everything but the key mailbox, `shutdown`
and `dirty` (R340). -/
structure State.HostOnly (s t : State) : Prop where
  ram : t.ram = s.ram
  regs : t.regs = s.regs
  pc : t.pc = s.pc
  sp : t.sp = s.sp
  flags : t.flags = s.flags
  running : t.running = s.running
  stopReason : t.stopReason = s.stopReason
  hold : t.hold = s.hold
  config : t.config = s.config
  schedule : t.schedule = s.schedule
  surface : t.surface = s.surface ∨ t.surface = { s.surface with dirty := false }
  shutdown : s.shutdown = true → t.shutdown = true
  keySeq : s.keySeq ≤ t.keySeq

theorem State.HostOnly.refl (s : State) : s.HostOnly s :=
  ⟨rfl, rfl, rfl, rfl, rfl, rfl, rfl, rfl, rfl, rfl, .inl rfl, id, Nat.le_refl _⟩

theorem State.HostOnly.trans {a b c : State} (h : a.HostOnly b) (g : b.HostOnly c) : a.HostOnly c where
  ram := g.ram.trans h.ram
  regs := g.regs.trans h.regs
  pc := g.pc.trans h.pc
  sp := g.sp.trans h.sp
  flags := g.flags.trans h.flags
  running := g.running.trans h.running
  stopReason := g.stopReason.trans h.stopReason
  hold := g.hold.trans h.hold
  config := g.config.trans h.config
  schedule := g.schedule.trans h.schedule
  surface := by
    rcases h.surface with h1 | h1 <;> rcases g.surface with g1 | g1 <;> simp [h1, g1]
  shutdown := fun hs => g.shutdown (h.shutdown hs)
  keySeq := h.keySeq.trans g.keySeq

/-- A host move during a run reaches only what the host owns. -/
theorem applyMove_running {s : State} (h : s.running = true) (m : HostMove) :
    s.HostOnly (applyMove m s) := by
  cases m with
  | load blob =>
    simp only [applyMove, State.load_running h]
    exact State.HostOnly.refl s
  | keyEvent k =>
    exact ⟨rfl, rfl, rfl, rfl, rfl, rfl, rfl, rfl, rfl, rfl, .inl rfl, id, Nat.le_succ _⟩
  | shutdown =>
    exact ⟨rfl, rfl, rfl, rfl, rfl, rfl, rfl, rfl, rfl, rfl, .inl rfl, fun _ => rfl, Nat.le_refl _⟩
  | sleepDone => exact State.HostOnly.refl s
  | beepDone => exact State.HostOnly.refl s
  | clearDirty =>
    exact ⟨rfl, rfl, rfl, rfl, rfl, rfl, rfl, rfl, rfl, rfl, .inr rfl, id, Nat.le_refl _⟩
  | device op =>
    simp only [applyMove, h, if_true]
    exact State.HostOnly.refl s

/-- No host move changes a parameter or the schedule, clears `shutdown` or takes `key_seq` back. -/
theorem applyMove_keeps (m : HostMove) (s : State) :
    (applyMove m s).config = s.config ∧ (applyMove m s).schedule = s.schedule ∧
    (s.shutdown = true → (applyMove m s).shutdown = true) ∧ s.keySeq ≤ (applyMove m s).keySeq := by
  cases hr : s.running with
  | true =>
    have h := applyMove_running hr m
    exact ⟨h.config, h.schedule, h.shutdown, h.keySeq⟩
  | false =>
    cases m with
    | load blob =>
      simp only [applyMove, State.load_stopped hr]
      split
      · rename_i t ht
        split_ifs at ht
        cases ht
        exact ⟨rfl, rfl, id, Nat.le_refl _⟩
      · exact ⟨rfl, rfl, id, Nat.le_refl _⟩
      · exact ⟨rfl, rfl, id, Nat.le_refl _⟩
    | keyEvent k => exact ⟨rfl, rfl, id, Nat.le_succ _⟩
    | shutdown => exact ⟨rfl, rfl, fun _ => rfl, Nat.le_refl _⟩
    | sleepDone => exact ⟨rfl, rfl, id, Nat.le_refl _⟩
    | beepDone => exact ⟨rfl, rfl, id, Nat.le_refl _⟩
    | clearDirty => exact ⟨rfl, rfl, id, Nat.le_refl _⟩
    | device op =>
      simp [applyMove, hr]

/-- During a run only the host's shutdown sets the flag (R43, R340). -/
theorem applyMove_shutdown {s : State} (hr : s.running = true) {m : HostMove} (hm : m ≠ .shutdown) :
    (applyMove m s).shutdown = s.shutdown := by
  cases m <;> simp_all [applyMove, State.load_running]

/-- A hold passes over turns that neither lift it nor bring a shutdown: the CORE's own turns, while no
key it waits for arrives, and the other host moves, which reach only what the host owns (R330, R333). -/
theorem holdLoop_append {h : Suspension} (turns tail : List Turn) {s : State}
    (hr : s.running = true) (hs : s.shutdown = false) (hk : ∀ u, keyArrived h u = false)
    (hm : ∀ m, .host m ∈ turns → m ≠ .shutdown ∧ lifts m h = false) :
    ∃ u, s.HostOnly u ∧ u.shutdown = false ∧ holdLoop h (turns ++ tail) s = holdLoop h tail u := by
  induction turns generalizing s with
  | nil => exact ⟨s, .refl s, hs, rfl⟩
  | cons turn rest ih =>
    have hm' : ∀ m, .host m ∈ rest → m ≠ .shutdown ∧ lifts m h = false :=
      fun m h => hm m (List.mem_cons_of_mem _ h)
    cases turn with
    | core =>
      obtain ⟨u, hu, hu', he⟩ := ih hr hs hm'
      exact ⟨u, hu, hu', by simpa [holdLoop, hk] using he⟩
    | host m =>
      obtain ⟨h1, h2⟩ := hm m List.mem_cons_self
      have hmove := applyMove_running hr m
      have hs' := (applyMove_shutdown hr h1).trans hs
      obtain ⟨u, hu, hu', he⟩ := ih (hmove.running.trans hr) hs' hm'
      exact ⟨u, hmove.trans hu, hu', by simpa [holdLoop, hs', h2] using he⟩

/-- With an empty schedule there is no host turn. -/
theorem State.hostTurns_nil {s : State} (h : s.schedule = []) : s.hostTurns = s := by
  unfold State.hostTurns
  split_ifs
  · rfl
  · rw [h]
    cases s
    simp_all [applyTurns]

/-- Where a hold leads, beyond the host's own state: it ends with SHUTDOWN, it is lifted, or it goes on
with no turn left. `u` is the state the host's moves of the hold lead to. -/
theorem holdLoop_cases (h : Suspension) (turns : List Turn) {s : State} (hr : s.running = true) :
    ∃ u, s.HostOnly u ∧ ∃ rest,
      (holdLoop h turns s = State.stop { u with schedule := rest } .shutdown ∧ u.shutdown = true ∨
      holdLoop h turns s = afterHold h (u.endHold rest) ∨
      holdLoop h turns s = { u with hold := some h, schedule := [] }) := by
  induction turns generalizing s with
  | nil =>
    refine ⟨s, State.HostOnly.refl s, [], ?_⟩
    simp only [holdLoop, holdAtEnd]
    split_ifs
    · exact .inr (.inl rfl)
    · exact .inr (.inr rfl)
  | cons turn rest ih =>
    cases turn with
    | core =>
      simp only [holdLoop]
      split_ifs
      · exact ⟨s, State.HostOnly.refl s, rest, .inr (.inl rfl)⟩
      · exact ih hr
    | host m =>
      have hm := applyMove_running hr m
      simp only [holdLoop]
      split_ifs with h1
      · exact ⟨applyMove m s, hm, rest, .inl ⟨rfl, h1⟩⟩
      · exact ⟨applyMove m s, hm, rest, .inr (.inl rfl)⟩
      · obtain ⟨u, hu, rest', h2⟩ := ih (hm.running.trans hr)
        exact ⟨u, hm.trans hu, rest', h2⟩

end Sys2Proof.Machine
end

