-- ==== Sys2Proof/Laws/Step.lean ====
section
/-! SUPPORT. Everything a step can do (R104, R342), and where a run starts from (R360). -/

namespace Sys2Proof.Machine

/-- The state after reset is what `load` of the empty program makes of the power-on state (R360). -/
theorem State.load_powerOn : State.powerOn.load [] = .ok State.reset := rfl

/-- Everything a step can do, once the host's moves up to the CORE's turn have led to `u`. -/
theorem step_cases {s u : State} (hu : s.hostTurns = u) :
    (u.running = false ∧ step s = .next u) ∨
    (∃ h, u.running = true ∧ u.hold = some h ∧ step s = finish (.next (u.suspend h))) ∨
    (u.running = true ∧ u.hold = none ∧ memSize ≤ u.pc.toNat ∧ step s = .next (u.stop .pcEnd)) ∨
    (∃ i rest, u.running = true ∧ u.hold = none ∧ u.pc.toNat < memSize ∧
      decode u.fetchBytes = .instr i rest ∧ step s = finish (exec i (u.advance (instrLength i)))) ∨
    ∃ why, u.running = true ∧ u.hold = none ∧ u.pc.toNat < memSize ∧
      decode u.fetchBytes = .reject why ∧ step s = .next (u.rejectFetch why) := by
  simp only [step, hu, State.cycle]
  cases hr : u.running with
  | false => exact .inl ⟨rfl, rfl⟩
  | true =>
    cases hh : u.hold with
    | some h => exact .inr (.inl ⟨h, rfl, rfl, rfl⟩)
    | none =>
      by_cases hp : memSize ≤ u.pc.toNat
      · exact .inr (.inr (.inl ⟨rfl, rfl, hp, by simp only [if_true, if_pos hp]⟩))
      · have hp' : u.pc.toNat < memSize := by omega
        cases hd : decode u.fetchBytes with
        | instr i rest =>
          exact .inr (.inr (.inr (.inl ⟨i, rest, rfl, rfl, hp', rfl, by simp only [if_true, if_neg hp]⟩)))
        | reject why =>
          exact .inr (.inr (.inr (.inr ⟨why, rfl, rfl, hp', rfl, by simp only [if_true, if_neg hp]⟩)))

/-- Everything a hold, or the arrival at one, can lead to: SHUTDOWN, the instruction's end, or a hold
that goes on with no turn left. `u` differs from `s` only in what the host owns. -/
theorem State.suspend_cases {s : State} (h : Suspension) (hr : s.running = true) :
    ∃ u, s.HostOnly u ∧ ∃ rest,
      (s.suspend h = State.stop { u with schedule := rest } .shutdown ∧ u.shutdown = true ∨
      s.suspend h = afterHold h (u.endHold rest) ∨
      s.suspend h = { u with hold := some h, schedule := [] }) := by
  unfold State.suspend
  split_ifs with hs
  · exact ⟨s, State.HostOnly.refl s, s.schedule, .inl ⟨rfl, hs⟩⟩
  · exact holdLoop_cases h s.schedule hr

/-- The loop test stops a run that has gone past 0xFFFF, and leaves every other state (R27). -/
theorem State.loopTest_cases (s : State) :
    (s.running = true ∧ s.hold = none ∧ memSize ≤ s.pc.toNat ∧ s.loopTest = s.stop .pcEnd) ∨
    ((s.running = true → s.hold = none → s.pc.toNat < memSize) ∧ s.loopTest = s) := by
  unfold State.loopTest
  split_ifs with h
  · simp only [Bool.and_eq_true, Option.isNone_iff_eq_none, decide_eq_true_eq] at h
    exact .inl ⟨h.1.1, h.1.2, h.2, rfl⟩
  · simp only [Bool.and_eq_true, Option.isNone_iff_eq_none, decide_eq_true_eq] at h
    exact .inr ⟨fun h1 h2 => by by_contra h3; exact h ⟨⟨h1, h2⟩, by omega⟩, rfl⟩

/-- The loop test after a meaning answers a next state exactly where the meaning does. -/
theorem finish_eq_next {r : Result} {t : State} (h : finish r = .next t) :
    ∃ u, r = .next u ∧ t = u.loopTest := by
  cases r with
  | next u =>
    simp only [finish, Host.Outcome.next.injEq] at h
    exact ⟨u, rfl, h.symm⟩
  | fault f => cases h
  | refused f => cases h

end Sys2Proof.Machine
end

