-- ==== Sys2Proof/Laws/Exec.lean ====
section
/-! SUPPORT. Everything a meaning can do to the state, kind by kind. -/

namespace Sys2Proof.Machine

/-- What an instruction that answers a next state did: one of these kinds of effect. -/
inductive Effect (i : Instr) (s t : State) : Prop where
  /-- Nothing but register writes, and draws. -/
  | registers (frame : t = { s with regs := t.regs, draws := t.draws })
      (others : ∀ r : Byte, r ∉ destRegs i → t.reg r = s.reg r)
  /-- A device operation. -/
  | surface (drives : drivesSurface i = true)
      (frame : t = { s with surface := t.surface, draws := t.draws })
      (visible : t.surface.cursorVisible = s.surface.cursorVisible)
  /-- CMP. -/
  | compare (names : ∃ s1 s2, i = .cmp s1 s2)
      (frame : t = { s with flags := t.flags, draws := t.draws })
      (legal : t.flags = s.flags ∨ t.flags = 0#8 ∨ t.flags = 1#8 ∨ t.flags = 2#8 ∨ t.flags = 4#8)
  /-- HALT. -/
  | halts (eq : t = s.stop .halted)
  /-- Fault(DATA_RANGE). -/
  | faults (eq : t = s.raiseFault .dataRange)
  /-- A store or a copy. -/
  | stores (start count : Nat) (names : storedBytes i s = some (start, count))
      (range : start + count ≤ memSize) (frame : t = { s with ram := t.ram })
      (wf : s.ram.wf = true → t.ram.wf = true)
      (outside : s.ram.wf = true → ∀ a, a < start ∨ start + count ≤ a → t.ram.read a = s.ram.read a)
  /-- A push with room, and CALL's jump after it. -/
  | pushes (v : Word) (moves : movesStack i = true) (room : 2 ≤ s.sp.toNat ∧ s.sp.toNat ≤ 255)
      (names : storedBytes i s = some (stackAddr (s.sp - 1#16), 2))
      (eq : t = s.pushed v ∨ isTransfer i = true ∧ ∃ a, t = (s.pushed v).jump a)
  /-- A pop: POP's register write or RET's jump after it. -/
  | pops (moves : movesStack i = true) (room : s.sp.toNat ≤ 253)
      (eq : (∃ r ∈ destRegs i, t = State.setReg { s with sp := s.sp + 2#16 } r s.topWord) ∨
        isTransfer i = true ∧ t = State.jump { s with sp := s.sp + 2#16 } s.topWord)
  /-- A jump. -/
  | jumps (transfer : isTransfer i = true) (a : Word) (eq : t = s.jump a)
  /-- A hold. `u` differs from `s` only in what the host owns. -/
  | suspends (point : isSuspension i = true) (u : State) (host : s.HostOnly u) (h : Suspension)
      (rest : List Turn)
      (names : ∀ r seq0, h = .readChar r seq0 → r ∈ destRegs i)
      (eq : t = State.stop { u with schedule := rest } .shutdown ∧ u.shutdown = true ∨
        t = afterHold h (u.endHold rest) ∨ t = { u with hold := some h, schedule := [] })

theorem Effect.unchanged (i : Instr) (s : State) : Effect i s s :=
  .registers rfl fun _ _ => rfl

theorem Effect.writesReg {i : Instr} (s : State) (v : Word) {d : Byte} (hd : d ∈ destRegs i) :
    Effect i s (s.setReg d v) := by
  refine .registers rfl fun r hr => ?_
  rw [State.reg_setReg, if_neg]
  rintro ⟨rfl, -⟩
  exact hr hd

theorem Effect.alu {i : Instr} {s : State} {d s1 s2 : Byte} {f : Word → Word → Option Word}
    (hd : d ∈ destRegs i) : Effect i s (s.alu3 d s1 s2 f) := by
  obtain h | ⟨v, h⟩ := s.alu3_cases d s1 s2 f <;> rw [h]
  · exact .unchanged i s
  · exact .writesReg s v hd

theorem Effect.shift {i : Instr} {s : State} {op : ShiftOp} {d a : Byte} (hd : d ∈ destRegs i) :
    Effect i s (s.aluShift op d a) := by
  obtain h | ⟨v, h⟩ := s.aluShift_cases op d a <;> rw [h]
  · exact .unchanged i s
  · exact .writesReg s v hd

theorem Effect.jumpIf {i : Instr} {s : State} {c : Bool} {a : Word} (hi : isTransfer i = true) :
    Effect i s (s.jumpIf c a) := by
  obtain h | h := s.jumpIf_cases c a <;> rw [h]
  · exact .unchanged i s
  · exact .jumps hi a rfl

theorem Effect.drives {i : Instr} {s : State} {sur : Surface} {n : Nat}
    (hi : drivesSurface i = true) (hv : sur.cursorVisible = s.surface.cursorVisible) :
    Effect i s { s with surface := sur, draws := n } :=
  .surface hi rfl hv

theorem Effect.hold {i : Instr} {s : State} {h : Suspension} (hr : s.running = true)
    (hi : isSuspension i = true) (names : ∀ r seq0, h = .readChar r seq0 → r ∈ destRegs i) :
    Effect i s (s.suspend h) := by
  obtain ⟨u, hu, rest, he⟩ := State.suspend_cases h hr
  exact .suspends hi u hu h rest names he

theorem Effect.storesWord {i : Instr} {s t : State} {addr : Word} {r : Byte}
    (hi : r.toNat < 8 → storedBytes i s = some (addr.toNat, 2)) (h : s.storeWord addr r = .next t) :
    Effect i s t := by
  unfold State.storeWord at h
  split at h
  · rename_i v hv
    rw [State.memWrite_two] at h
    split_ifs at h with hb
    · cases h
      refine .stores addr.toNat 2 (hi (State.lt_of_reg hv)) hb rfl (fun hm => ?_) fun hm a ha => ?_
      · exact Memory.wf_write (Memory.wf_write hm (by omega)) (by omega)
      · rw [Memory.read_write_two hm hb, if_neg (by omega), if_neg (by omega)]
    · cases h
      exact .faults rfl
  · split_ifs at h
    cases h
    exact .unchanged i _

theorem Surface.visible_drawRect (sur : Surface) (config : Config) (a b c d : Word) :
    (sur.drawRect config a b c d).cursorVisible = sur.cursorVisible := by
  unfold Surface.drawRect
  split <;> rfl

theorem Surface.visible_fillRect (sur : Surface) (config : Config) (a b c d : Word) :
    (sur.fillRect config a b c d).cursorVisible = sur.cursorVisible := by
  unfold Surface.fillRect
  split <;> rfl

theorem Surface.visible_plotAll (sur : Surface) (points : List Point) :
    (sur.plotAll points).cursorVisible = sur.cursorVisible :=
  (sur.sameText_plotAll points).2.2.2.2

theorem Surface.visible_setPixel (sur : Surface) (x y : Word) (v : Byte) :
    (sur.setPixel x y v).cursorVisible = sur.cursorVisible := by
  unfold Surface.setPixel
  split_ifs
  · exact (sur.sameText_putPixel _ _ _).2.2.2.2
  · rfl

/-- Everything an instruction of a running machine can do when it answers a next state. -/
theorem exec_effect {i : Instr} {s t : State} (hr : s.running = true) (h : exec i s = .next t) :
    Effect i s t := by
  cases i
  case halt => cases h; exact .halts rfl
  case printChar c => cases h; exact .drives rfl (s.surface.putchar_frame c).2.2.2.1
  case printStr str => cases h; exact .drives rfl (s.surface.putchars_frame str).2.2.2.1
  case clearScreen => cases h; exact .drives rfl rfl
  case setColor idx => cases h; exact .drives rfl rfl
  case getCursor rX rY =>
    cases h
    refine .registers rfl fun r hn => ?_
    simp only [destRegs, List.mem_cons, List.not_mem_nil, or_false, not_or] at hn
    rw [State.reg_setReg, if_neg (fun h => hn.2 h.1), State.reg_setReg, if_neg (fun h => hn.1 h.1)]
  case setCursor x y => cases h; exact .drives rfl rfl
  case drawLine x1 y1 x2 y2 => cases h; exact .drives rfl (Surface.visible_plotAll _ _)
  case drawRect a b c d => cases h; exact .drives rfl (Surface.visible_drawRect _ _ _ _ _ _)
  case fillRect a b c d => cases h; exact .drives rfl (Surface.visible_fillRect _ _ _ _ _ _)
  case drawCircle cx cy r => cases h; exact .drives rfl (Surface.visible_plotAll _ _)
  case sleepMs m => cases h; exact .hold hr rfl (fun _ _ h => by cases h)
  case beep f d => cases h; exact .hold hr rfl (fun _ _ h => by cases h)
  case getTime rX =>
    cases h
    refine .registers rfl fun r hn => ?_
    exact (State.reg_congr rfl r).trans ((State.reg_setReg ..).trans (if_neg fun h => hn (by simp [destRegs, h.1])))
  case random rX max =>
    cases h
    refine .registers rfl fun r hn => ?_
    exact (State.reg_congr rfl r).trans ((State.reg_setReg ..).trans (if_neg fun h => hn (by simp [destRegs, h.1])))
  case setPixel x y v => cases h; exact .drives rfl (Surface.visible_setPixel _ _ _ _)
  case clearPixels => cases h; exact .drives rfl rfl
  case loadReg r imm => cases h; exact .writesReg s imm (by simp [destRegs])
  case storeReg r addr => exact .storesWord (fun hl => by simp [storedBytes, hl]) h
  case push r =>
    simp only [exec, execPush] at h
    split at h
    · rename_i v hv
      obtain ⟨-, h1⟩ | ⟨h1, h2, h3⟩ | ⟨f, h1⟩ := s.push16_cases v
      · rw [h1] at h; cases h; exact .unchanged _ _
      · rw [h3] at h
        cases h
        have h0 : s.sp ≠ 0#16 := by intro h; simp [h] at h1
        exact .pushes v rfl ⟨h1, h2⟩ (by simp [storedBytes, State.lt_of_reg hv, h0]) (.inl rfl)
      · rw [h1] at h; cases h
    · cases h; exact .unchanged _ _
  case pop r =>
    simp only [exec, execPop] at h
    obtain ⟨-, h1⟩ | ⟨h1, h2⟩ | ⟨f, h1⟩ := s.pop16_cases
    · rw [h1] at h; cases h; exact .unchanged _ _
    · rw [h2] at h; cases h; exact .pops rfl h1 (.inl ⟨r, by simp [destRegs], rfl⟩)
    · rw [h1] at h; cases h
  case add d s1 s2 => cases h; exact .alu (by simp [destRegs])
  case sub d s1 s2 => cases h; exact .alu (by simp [destRegs])
  case mul d s1 s2 => cases h; exact .alu (by simp [destRegs])
  case div d s1 s2 => cases h; exact .alu (by simp [destRegs])
  case mod d s1 s2 => cases h; exact .alu (by simp [destRegs])
  case and d s1 s2 => cases h; exact .alu (by simp [destRegs])
  case or d s1 s2 => cases h; exact .alu (by simp [destRegs])
  case xor d s1 s2 => cases h; exact .alu (by simp [destRegs])
  case not d src => cases h; exact .alu (by simp [destRegs])
  case shl d a => cases h; exact .shift (by simp [destRegs])
  case shr d a => cases h; exact .shift (by simp [destRegs])
  case cmp s1 s2 =>
    simp only [exec, execCmp] at h
    split at h
    · cases h; exact .compare ⟨_, _, rfl⟩ rfl (.inr (.inr (cmpFlags_cases _ _)))
    · cases h
      refine .compare ⟨_, _, rfl⟩ rfl ?_
      obtain h1 | h1 := badCmpFlags_cases s.flags s.draws
      · exact .inl h1
      · exact .inr (.inl h1)
  case jmp a => cases h; exact .jumps rfl a rfl
  case jz a => cases h; exact .jumpIf rfl
  case jnz a => cases h; exact .jumpIf rfl
  case jg a => cases h; exact .jumpIf rfl
  case jl a => cases h; exact .jumpIf rfl
  case call a =>
    simp only [exec, execCall] at h
    split_ifs at h with hp hs
    obtain ⟨h1, -⟩ | ⟨h1, h2, h3⟩ | ⟨f, h1⟩ := s.push16_cases (s.pc.setWidth 16)
    · exact absurd (by simp [h1]) hs
    · rw [h3] at h; cases h; exact .pushes _ rfl ⟨h1, h2⟩ rfl (.inr ⟨rfl, a, rfl⟩)
    · rw [h1] at h; cases h
  case ret =>
    simp only [exec, execRet] at h
    obtain ⟨-, h1⟩ | ⟨h1, h2⟩ | ⟨f, h1⟩ := s.pop16_cases
    · rw [h1] at h; cases h; exact .unchanged _ _
    · rw [h2] at h; cases h; exact .pops rfl h1 (.inr ⟨rfl, rfl⟩)
    · rw [h1] at h; cases h
  case readChar r => cases h; exact .hold hr rfl (fun _ _ h => by cases h; simp [destRegs])
  case loadMem r addr =>
    simp only [exec, execLoadMem] at h
    split_ifs at h
    split at h
    · cases h; exact .writesReg s _ (by simp [destRegs])
    · cases h; exact .faults rfl
  case storeMem addr r => exact .storesWord (fun hl => by simp [storedBytes, hl]) h
  case copyMem src dst len =>
    simp only [exec, execCopyMem] at h
    split_ifs at h with hb
    · cases h
      simp only [Bool.and_eq_true, inBounds_iff] at hb
      refine .stores dst.toNat len.toNat rfl hb.2 rfl (fun hm => State.wf_copyBytes hm hb.2)
        fun hm a ha => ?_
      rw [State.read_copyBytes hm hb.2, if_neg (by omega)]
    · cases h; exact .faults rfl

end Sys2Proof.Machine
end

