-- ==== Sys2Proof/Laws/PerInstr.lean ====
section
/-! SUPPORT. The family of statements made per instruction: the encoding is as long as the length
column of R99 says (R100). -/

open Sys2Proof

/-- The bytes of `i` are as many as R99's length column says; a PRINT_STR's are its string's and two
more (R100). -/
def Sys2Proof.Laws.EncodeLength.Statement (i : Instr) : Prop := (encode i).length = instrLength i

theorem Sys2Proof.Laws.EncodeLength.halt :
    Sys2Proof.Laws.EncodeLength.Statement (.halt) := rfl
theorem Sys2Proof.Laws.EncodeLength.printChar (c : Byte) :
    Sys2Proof.Laws.EncodeLength.Statement (.printChar c) := rfl
theorem Sys2Proof.Laws.EncodeLength.printStr (str : List Byte) :
    Sys2Proof.Laws.EncodeLength.Statement (.printStr str) := by
  simp [Sys2Proof.Laws.EncodeLength.Statement, encode, instrLength]
theorem Sys2Proof.Laws.EncodeLength.clearScreen :
    Sys2Proof.Laws.EncodeLength.Statement (.clearScreen) := rfl
theorem Sys2Proof.Laws.EncodeLength.setColor (idx : Byte) :
    Sys2Proof.Laws.EncodeLength.Statement (.setColor idx) := rfl
theorem Sys2Proof.Laws.EncodeLength.getCursor (rX : Byte) (rY : Byte) :
    Sys2Proof.Laws.EncodeLength.Statement (.getCursor rX rY) := rfl
theorem Sys2Proof.Laws.EncodeLength.setCursor (x : Byte) (y : Byte) :
    Sys2Proof.Laws.EncodeLength.Statement (.setCursor x y) := rfl
theorem Sys2Proof.Laws.EncodeLength.drawLine (x1 : Word) (y1 : Word) (x2 : Word) (y2 : Word) :
    Sys2Proof.Laws.EncodeLength.Statement (.drawLine x1 y1 x2 y2) := rfl
theorem Sys2Proof.Laws.EncodeLength.drawRect (a : Word) (b : Word) (c : Word) (d : Word) :
    Sys2Proof.Laws.EncodeLength.Statement (.drawRect a b c d) := rfl
theorem Sys2Proof.Laws.EncodeLength.fillRect (a : Word) (b : Word) (c : Word) (d : Word) :
    Sys2Proof.Laws.EncodeLength.Statement (.fillRect a b c d) := rfl
theorem Sys2Proof.Laws.EncodeLength.drawCircle (cx : Word) (cy : Word) (r : Word) :
    Sys2Proof.Laws.EncodeLength.Statement (.drawCircle cx cy r) := rfl
theorem Sys2Proof.Laws.EncodeLength.sleepMs (m : Word) :
    Sys2Proof.Laws.EncodeLength.Statement (.sleepMs m) := rfl
theorem Sys2Proof.Laws.EncodeLength.beep (f : Word) (d : Word) :
    Sys2Proof.Laws.EncodeLength.Statement (.beep f d) := rfl
theorem Sys2Proof.Laws.EncodeLength.getTime (rX : Byte) :
    Sys2Proof.Laws.EncodeLength.Statement (.getTime rX) := rfl
theorem Sys2Proof.Laws.EncodeLength.random (rX : Byte) (max : Word) :
    Sys2Proof.Laws.EncodeLength.Statement (.random rX max) := rfl
theorem Sys2Proof.Laws.EncodeLength.setPixel (x : Word) (y : Word) (v : Byte) :
    Sys2Proof.Laws.EncodeLength.Statement (.setPixel x y v) := rfl
theorem Sys2Proof.Laws.EncodeLength.clearPixels :
    Sys2Proof.Laws.EncodeLength.Statement (.clearPixels) := rfl
theorem Sys2Proof.Laws.EncodeLength.loadReg (r : Byte) (imm : Word) :
    Sys2Proof.Laws.EncodeLength.Statement (.loadReg r imm) := rfl
theorem Sys2Proof.Laws.EncodeLength.storeReg (r : Byte) (addr : Word) :
    Sys2Proof.Laws.EncodeLength.Statement (.storeReg r addr) := rfl
theorem Sys2Proof.Laws.EncodeLength.push (r : Byte) :
    Sys2Proof.Laws.EncodeLength.Statement (.push r) := rfl
theorem Sys2Proof.Laws.EncodeLength.pop (r : Byte) :
    Sys2Proof.Laws.EncodeLength.Statement (.pop r) := rfl
theorem Sys2Proof.Laws.EncodeLength.add (d : Byte) (s1 : Byte) (s2 : Byte) :
    Sys2Proof.Laws.EncodeLength.Statement (.add d s1 s2) := rfl
theorem Sys2Proof.Laws.EncodeLength.sub (d : Byte) (s1 : Byte) (s2 : Byte) :
    Sys2Proof.Laws.EncodeLength.Statement (.sub d s1 s2) := rfl
theorem Sys2Proof.Laws.EncodeLength.mul (d : Byte) (s1 : Byte) (s2 : Byte) :
    Sys2Proof.Laws.EncodeLength.Statement (.mul d s1 s2) := rfl
theorem Sys2Proof.Laws.EncodeLength.div (d : Byte) (s1 : Byte) (s2 : Byte) :
    Sys2Proof.Laws.EncodeLength.Statement (.div d s1 s2) := rfl
theorem Sys2Proof.Laws.EncodeLength.mod (d : Byte) (s1 : Byte) (s2 : Byte) :
    Sys2Proof.Laws.EncodeLength.Statement (.mod d s1 s2) := rfl
theorem Sys2Proof.Laws.EncodeLength.and (d : Byte) (s1 : Byte) (s2 : Byte) :
    Sys2Proof.Laws.EncodeLength.Statement (.and d s1 s2) := rfl
theorem Sys2Proof.Laws.EncodeLength.or (d : Byte) (s1 : Byte) (s2 : Byte) :
    Sys2Proof.Laws.EncodeLength.Statement (.or d s1 s2) := rfl
theorem Sys2Proof.Laws.EncodeLength.xor (d : Byte) (s1 : Byte) (s2 : Byte) :
    Sys2Proof.Laws.EncodeLength.Statement (.xor d s1 s2) := rfl
theorem Sys2Proof.Laws.EncodeLength.not (d : Byte) (src : Byte) :
    Sys2Proof.Laws.EncodeLength.Statement (.not d src) := rfl
theorem Sys2Proof.Laws.EncodeLength.shl (d : Byte) (a : Byte) :
    Sys2Proof.Laws.EncodeLength.Statement (.shl d a) := rfl
theorem Sys2Proof.Laws.EncodeLength.shr (d : Byte) (a : Byte) :
    Sys2Proof.Laws.EncodeLength.Statement (.shr d a) := rfl
theorem Sys2Proof.Laws.EncodeLength.cmp (s1 : Byte) (s2 : Byte) :
    Sys2Proof.Laws.EncodeLength.Statement (.cmp s1 s2) := rfl
theorem Sys2Proof.Laws.EncodeLength.jmp (t : Word) :
    Sys2Proof.Laws.EncodeLength.Statement (.jmp t) := rfl
theorem Sys2Proof.Laws.EncodeLength.jz (t : Word) :
    Sys2Proof.Laws.EncodeLength.Statement (.jz t) := rfl
theorem Sys2Proof.Laws.EncodeLength.jnz (t : Word) :
    Sys2Proof.Laws.EncodeLength.Statement (.jnz t) := rfl
theorem Sys2Proof.Laws.EncodeLength.jg (t : Word) :
    Sys2Proof.Laws.EncodeLength.Statement (.jg t) := rfl
theorem Sys2Proof.Laws.EncodeLength.jl (t : Word) :
    Sys2Proof.Laws.EncodeLength.Statement (.jl t) := rfl
theorem Sys2Proof.Laws.EncodeLength.call (t : Word) :
    Sys2Proof.Laws.EncodeLength.Statement (.call t) := rfl
theorem Sys2Proof.Laws.EncodeLength.ret :
    Sys2Proof.Laws.EncodeLength.Statement (.ret) := rfl
theorem Sys2Proof.Laws.EncodeLength.readChar (r : Byte) :
    Sys2Proof.Laws.EncodeLength.Statement (.readChar r) := rfl
theorem Sys2Proof.Laws.EncodeLength.loadMem (r : Byte) (addr : Word) :
    Sys2Proof.Laws.EncodeLength.Statement (.loadMem r addr) := rfl
theorem Sys2Proof.Laws.EncodeLength.storeMem (addr : Word) (r : Byte) :
    Sys2Proof.Laws.EncodeLength.Statement (.storeMem addr r) := rfl
theorem Sys2Proof.Laws.EncodeLength.copyMem (src : Word) (dst : Word) (len : Word) :
    Sys2Proof.Laws.EncodeLength.Statement (.copyMem src dst len) := rfl
end

