-- ==== Sys2Proof/Tests/Slice0.lean ====
section
/-! SUPPORT. The model's own tests. Expected results come from spec/95_test_vectors.md (its vector is
named before each test) and from the byte layouts of 30_encoding.md R99. The witnesses at the end meet
the hypotheses of the statements in Sys2Proof/Certificates/Slice0/Obligations.lean. -/

namespace Sys2Proof.Tests

open Sys2Proof Sys2Proof.Machine

/-- The load state with `bytes` at `pc` (R360). -/
def at0 (pc : Nat) (bytes : List Byte) : State :=
  { State.reset with pc := BitVec.ofNat 17 pc, ram := Memory.ofBytes pc bytes }

/-- The load state with `bytes` at 0 and R0, R1, R2 given. -/
def with3 (a b c : Word) (bytes : List Byte) : State :=
  { at0 0 bytes with regs := #v[a, b, c, 0, 0, 0, 0, 0] }

/-- The load state with `bytes` at 0 and the cursor at `(x, y)`. -/
def atCursor (x y : Word) (bytes : List Byte) : State :=
  { at0 0 bytes with surface := { Surface.initial with cursorX := x, cursorY := y } }

/-- What `f` reads in a next state; none where the run stopped on a model fault or a refusal. -/
def got {α : Type} (r : Result) (f : State → α) : Option α :=
  match r with
  | .next s => some (f s)
  | .fault _ | .refused _ => none

/-- The fault a step ends in. -/
def faultOf (r : Result) : Option Fault :=
  match r with
  | .fault f => some f
  | .next _ | .refused _ => none

/-! ### WellFormed -/

/-- R91: the string operand holds no 0x00. -/
theorem test_wf_refuses_zero_in_string : (Instr.printStr [0x48, 0x00, 0x69]).wellFormed = false := by
  decide
theorem test_wf_accepts_string : (Instr.printStr [0x48, 0x69]).wellFormed = true := by decide

/-! ### Decoding: words written out from R99 -/

theorem test_dec_draw_line : decode [0x08, 0x00, 0x00, 0x00, 0x00, 0x03, 0x00, 0x01, 0x00] =
    .instr (.drawLine 0 0 3 1) [] := by decide
theorem test_dec_random : decode [0x23, 0x01, 0x06, 0x00] = .instr (.random 1 6) [] := by decide
theorem test_dec_beep : decode [0x21, 0xB8, 0x01, 0xC8, 0x00] = .instr (.beep 440 200) [] := by decide
theorem test_dec_set_pixel : decode [0x30, 0x90, 0x01, 0x2C, 0x01, 0x01] =
    .instr (.setPixel 400 300 1) [] := by decide
theorem test_dec_store_reg : decode [0x41, 0x01, 0xFE, 0xFF] = .instr (.storeReg 1 0xFFFE) [] := by
  decide
theorem test_dec_sub : decode [0x51, 0x00, 0x00, 0x01] = .instr (.sub 0 0 1) [] := by decide
theorem test_dec_call : decode [0x65, 0x0E, 0x00] = .instr (.call 0x000E) [] := by decide
theorem test_dec_read_char : decode [0x70, 0x02] = .instr (.readChar 2) [] := by decide
theorem test_dec_store_mem : decode [0x81, 0x00, 0x10, 0x01] = .instr (.storeMem 0x1000 1) [] := by
  decide
theorem test_dec_copy_mem : decode [0x82, 0x00, 0x20, 0x01, 0x20, 0x04, 0x00] =
    .instr (.copyMem 0x2000 0x2001 4) [] := by decide
theorem test_dec_set_cursor : decode [0x07, 0x4F, 0x18] = .instr (.setCursor 79 24) [] := by decide
/-- R101, at both ends of each range of unassigned bytes. -/
theorem test_dec_unassigned : ∀ op ∈ ([0x03, 0x0C, 0x1F, 0x24, 0x2F, 0x32, 0x3F, 0x44, 0x4F, 0x5C,
    0x5F, 0x67, 0x6F, 0x71, 0x7F, 0x83, 0xFF] : List Byte),
    unassignedOpcode op = true ∧ decode [op] = .reject (.unknownOpcode op) := by decide

/-! ### Fetch faults and the ends of a run (95_test_vectors.md 2.1) -/

/-- E1. -/
theorem test_e1_unknown_opcode : got (step (at0 0 [0x03])) (fun s => (s.stopReason, s.pc, s.running)) =
    some (.faultUnknownOpcode, 1, false) := by decide
/-- E4. -/
theorem test_e4_fetch8_fails : got (step (at0 0xFFFF [0x40])) (fun s => (s.stopReason, s.pc)) =
    some (.faultDecodeRange, 0x10000) := by decide
/-- R94 with one byte left: the 16-bit field at 0xFFFF cannot be fetched, and `pc` stays at it. (Vector
E5 starts one byte higher and is off by one against R93 and R94: log entry 21.) -/
theorem test_fetch16_fails : got (step (at0 0xFFFD [0x40, 0x00, 0x05]))
    (fun s => (s.stopReason, s.pc, s.reg 0)) = some (.faultDecodeRange, 0xFFFF, some 0) := by decide
/-- E7. -/
theorem test_e7_pc_end : got (step (at0 0xFFFD [0x61, 0x00, 0x00])) (fun s => (s.stopReason, s.pc)) =
    some (.pcEnd, 0x10000) := by decide
/-- E8. -/
theorem test_e8_halt_at_top : got (step (at0 0xFFFF [0x00])) (fun s => (s.stopReason, s.pc)) =
    some (.halted, 0x10000) := by decide
/-- F1: the default diagnostic begins with 'E' and leaves the cursor on the next row. -/
theorem test_f1_diagnostic : got (step (at0 0 [0x03]))
    (fun s => (s.surface.cell 0 0, s.surface.cell 0 19, s.surface.cursorX, s.surface.cursorY)) =
    some (some ⟨0x45, 0⟩, some ⟨0x64, 0⟩, 0, 1) := by decide +kernel
/-- F4, and what a run from reset does with nothing placed. -/
theorem test_f4_empty_program : got (step State.reset) (fun s => (s.stopReason, s.pc)) =
    some (.halted, 1) := by decide

/-! ### Text (2.2) -/

/-- T1. -/
theorem test_t1_print_char : got (step (at0 0 [0x01, 0x41]))
    (fun s => (s.surface.cell 0 0, s.surface.cursorX, s.surface.cursorY, s.surface.dirty, s.pc)) =
    some (some ⟨0x41, 0⟩, 1, 0, true, 2) := by decide
/-- T3. -/
theorem test_t3_wrap : got (step (atCursor 80 0 [0x01, 0x42]))
    (fun s => (s.surface.cell 1 0, s.surface.cursorX, s.surface.cursorY)) =
    some (some ⟨0x42, 0⟩, 1, 1) := by decide
/-- T4. -/
theorem test_t4_scroll : got (step { at0 0 [0x01, 0x42] with
      surface := { Surface.initial.putCell 1 0 ⟨0x51, 0⟩ with cursorX := 80, cursorY := 24 } })
    (fun s => (s.surface.cell 0 0, s.surface.cell 24 0, s.surface.cell 24 1, s.surface.cursorX,
      s.surface.cursorY)) = some (some ⟨0x51, 0⟩, some ⟨0x42, 0⟩, some ⟨0x20, 0⟩, 1, 24) := by decide +kernel
/-- T5. -/
theorem test_t5_newline_does_not_scroll : got (step (atCursor 5 24 [0x01, 0x0A]))
    (fun s => (s.surface.cursorX, s.surface.cursorY)) = some (0, 25) := by decide
/-- T6. -/
theorem test_t6_backspace_at_column_0 : got (step (atCursor 0 3 [0x01, 0x08]))
    (fun s => (s.surface.cursorX, s.surface.cursorY)) = some (0, 3) := by decide
/-- T8, and the tab law of 1.7 at 80. -/
theorem test_t8_tab : got (step (atCursor 78 0 [0x01, 0x09])) (fun s => s.surface.cursorX) = some 80 ∧
    got (step (atCursor 80 0 [0x01, 0x09])) (fun s => s.surface.cursorX) = some 84 := by decide
/-- Scenario 1: `Hello`. -/
theorem test_hello : got (step (at0 0 [0x02, 0x48, 0x65, 0x6C, 0x6C, 0x6F, 0x00, 0x00]))
    (fun s => (s.surface.cell 0 0, s.surface.cell 0 4, s.surface.cursorX, s.surface.cursorY, s.pc)) =
    some (some ⟨0x48, 0⟩, some ⟨0x6F, 0⟩, 5, 0, 7) := by decide +kernel
/-- T10. -/
theorem test_t10_empty_string : got (step (at0 0 [0x02, 0x00])) (fun s => (s.surface.dirty, s.pc)) =
    some (false, 2) := by decide
/-- T11. -/
theorem test_t11_clear_screen : got (step { at0 0 [0x04] with
      surface := { Surface.initial with color := 3, pixelMode := true } })
    (fun s => (s.surface.cell 24 79, s.surface.pixelMode, s.surface.dirty)) =
    some (some ⟨0x20, 3⟩, false, true) := by decide
/-- T12 and T13. -/
theorem test_t12_set_color : got (step { at0 0 [0x05, 0x10] with
      surface := { Surface.initial with color := 5 } }) (fun s => s.surface.color) = some 5 ∧
    got (step (at0 0 [0x05, 0x0F])) (fun s => s.surface.color) = some 15 := by decide
/-- T14. -/
theorem test_t14_set_cursor : got (step (atCursor 3 3 [0x07, 0x50, 0x05]))
    (fun s => (s.surface.cursorX, s.surface.cursorY, s.surface.dirty)) = some (3, 5, true) := by decide
/-- T15. -/
theorem test_t15_set_cursor_ignored : got (step (atCursor 3 3 [0x07, 0x50, 0x19]))
    (fun s => (s.surface.cursorX, s.surface.cursorY, s.surface.dirty)) = some (3, 3, false) := by decide
/-- T16. -/
theorem test_t16_get_cursor_same_register : got (step (atCursor 7 9 [0x06, 0x02, 0x02]))
    (fun s => s.reg 2) = some (some 9) := by decide
/-- T17. -/
theorem test_t17_get_cursor_bad_index : got (step (atCursor 7 9 [0x06, 0x08, 0x03]))
    (fun s => (s.reg 3, s.reg 0)) = some (some 9, some 0) := by decide

/-! ### Graphics (2.3) -/

/-- The pixels set in the window of `w` columns and `h` rows at the origin. -/
def pixelsIn (w h : Nat) (s : State) : List (Nat × Nat) :=
  (List.range h).flatMap fun y => ((List.range w).filter fun x => s.surface.pixel x y).map fun x => (x, y)

/-- G1. -/
theorem test_g1_draw_line : got (step (at0 0 [0x08, 0x00, 0x00, 0x00, 0x00, 0x03, 0x00, 0x01, 0x00]))
    (pixelsIn 5 3) = some [(0, 0), (1, 0), (2, 1), (3, 1)] := by decide +kernel
/-- G3: clipped at column 320. -/
theorem test_g3_line_clipped :
    got (step (at0 0 [0x08, 0x3E, 0x01, 0x00, 0x00, 0x42, 0x01, 0x00, 0x00]))
      (fun s => (s.surface.pixel 317 0, s.surface.pixel 318 0, s.surface.pixel 319 0)) =
    some (false, true, true) := by decide +kernel
/-- G5. -/
theorem test_g5_draw_rect : got (step (at0 0 [0x09, 0x01, 0x00, 0x01, 0x00, 0x03, 0x00, 0x03, 0x00]))
    (pixelsIn 5 5) = some [(1, 1), (2, 1), (3, 1), (1, 2), (3, 2), (1, 3), (2, 3), (3, 3)] := by decide +kernel
/-- G7, under both values of `rect_form`. -/
theorem test_g7_draw_rect_empty :
    got (step (at0 0 [0x09, 0x05, 0x00, 0x05, 0x00, 0x00, 0x00, 0x04, 0x00]))
      (fun s => (pixelsIn 8 8 s, s.surface.pixelMode)) = some ([], true) ∧
    got (step { at0 0 [0x09, 0x05, 0x00, 0x05, 0x00, 0x00, 0x00, 0x04, 0x00] with
        config := { Config.specDefaults with rectForm := .x1y1x2y2 } }) (pixelsIn 8 8) =
      some [(0, 4), (1, 4), (2, 4), (3, 4), (4, 4), (5, 4), (0, 5), (1, 5), (2, 5), (3, 5), (4, 5),
        (5, 5)] := by decide +kernel
/-- G6, under both values of `rect_form`. -/
theorem test_g6_fill_rect :
    got (step (at0 0 [0x0A, 0x00, 0x00, 0x00, 0x00, 0x02, 0x00, 0x02, 0x00])) (pixelsIn 4 4) =
      some [(0, 0), (1, 0), (0, 1), (1, 1)] ∧
    got (step { at0 0 [0x0A, 0x00, 0x00, 0x00, 0x00, 0x02, 0x00, 0x02, 0x00] with
        config := { Config.specDefaults with rectForm := .x1y1x2y2 } }) (pixelsIn 4 4) =
      some [(0, 0), (1, 0), (2, 0), (0, 1), (1, 1), (2, 1), (0, 2), (1, 2), (2, 2)] := by decide +kernel
/-- G8: clipped to one pixel. -/
theorem test_g8_fill_rect_clipped :
    got (step (at0 0 [0x0A, 0x3F, 0x01, 0xC7, 0x00, 0x05, 0x00, 0x05, 0x00]))
      (fun s => (s.surface.pixel 319 199, s.surface.pixel 318 199, s.surface.pixel 319 198)) =
    some (true, false, false) := by decide +kernel
/-- G11. -/
theorem test_g11_draw_circle : midpointCircle 10 10 2 =
    [(12, 10), (8, 10), (12, 10), (8, 10), (10, 12), (10, 12), (10, 8), (10, 8),
     (12, 11), (8, 11), (12, 9), (8, 9), (11, 12), (9, 12), (11, 8), (9, 8)] := by decide
/-- G12. -/
theorem test_g12_circle_clipped : got (step (at0 0 [0x0B, 0x00, 0x00, 0x00, 0x00, 0x01, 0x00]))
    (pixelsIn 3 3) = some [(1, 0), (0, 1)] := by decide +kernel
/-- G14 and G15. -/
theorem test_g14_set_pixel : got (step (at0 0 [0x30, 0x05, 0x00, 0x06, 0x00, 0x02])) (pixelsIn 8 8) =
      some [(5, 6)] ∧
    got (step { at0 0 [0x30, 0x05, 0x00, 0x06, 0x00, 0x00] with
        surface := Surface.initial.putPixel 5 6 true })
      (fun s => (s.surface.pixel 5 6, s.surface.pixelMode)) = some (false, true) := by decide +kernel
/-- Scenario 6. -/
theorem test_pixel_out_of_bounds : got (step (at0 0 [0x30, 0x90, 0x01, 0x2C, 0x01, 0x01, 0x00]))
    (fun s => (decide (s.surface.pixels = Surface.initial.pixels), s.surface.pixelMode, s.stopReason)) =
    some (true, true, .none) := by decide +kernel
/-- G17. -/
theorem test_g17_clear_pixels : got (step { at0 0 [0x31] with
      surface := { Surface.initial.putPixel 5 6 true with pixelMode := true } })
    (fun s => (s.surface.pixel 5 6, s.surface.pixelMode)) = some (false, false) := by decide +kernel

/-! ### Time, sound, random and input (2.4, 2.8) -/

/-- W1. -/
theorem test_w1_sleep : got (step { at0 0 [0x20, 0xE8, 0x03] with
      schedule := [.core, .host .sleepDone, .host .beepDone] })
    (fun s => (s.pc, s.running, s.hold, s.schedule)) =
    some (3, true, none, [.host .beepDone]) := by decide
/-- W3. -/
theorem test_w3_shutdown : got (step { at0 0 [0x20, 0xE8, 0x03] with shutdown := true })
    (fun s => (s.stopReason, s.pc, s.surface.dirty)) = some (.shutdown, 3, false) := by decide
/-- W4. -/
theorem test_w4_beep : got (step { at0 0 [0x21, 0xB8, 0x01, 0xC8, 0x00] with
      schedule := [.core, .host .beepDone] }) (fun s => (s.pc, s.running, s.hold)) =
    some (5, true, none) := by decide
/-- W6. -/
theorem test_w6_get_time_bad_index : got (step (at0 0 [0x22, 0x09])) (fun s => (s.regs, s.pc)) =
    some (Vector.replicate 8 0, 2) := by decide
/-- W7: `RandMod(0)` is 0 for every sample. -/
theorem test_w7_random_of_0 : ∀ raw : Word, randMod 0 raw = 0 := by
  intro raw
  simp [randMod, Nat.mod_one]
/-- I1. -/
theorem test_i1_read_char : got (step { at0 0 [0x70, 0x02] with
      schedule := [.core, .host (.keyEvent (.printable 65)), .core] }) (fun s => (s.reg 2, s.pc)) =
    some (some 0x61, 2) := by decide
/-- I3: both interleavings of 'a', 'b' and the CORE's look. -/
theorem test_i3_two_keys :
    got (step { at0 0 [0x70, 0x02] with schedule := [.core, .host (.keyEvent (.printable 65)),
        .host (.keyEvent (.printable 66)), .core] }) (fun s => s.reg 2) = some (some 0x62) ∧
    got (step { at0 0 [0x70, 0x02] with schedule := [.core, .host (.keyEvent (.printable 65)), .core,
        .host (.keyEvent (.printable 66))] }) (fun s => s.reg 2) = some (some 0x61) := by decide

/-! ### Registers and the stack (2.5) -/

/-- K1. -/
theorem test_k1_load_reg : got (step (at0 0 [0x40, 0x00, 0x0A, 0x00])) (fun s => (s.reg 0, s.pc)) =
    some (some 10, 4) := by decide
/-- K4. -/
theorem test_k4_store_reg_at_top : got (step (with3 0 0xBEEF 0 [0x41, 0x01, 0xFE, 0xFF]))
    (fun s => (s.ram.read 0xFFFE, s.ram.read 0xFFFF, s.stopReason)) = some (0xEF, 0xBE, .none) := by
  decide
/-- K5. -/
theorem test_k5_store_reg_faults : got (step (with3 0 0xBEEF 0 [0x41, 0x01, 0xFF, 0xFF]))
    (fun s => (s.ram.read 0xFFFF, s.stopReason, s.pc)) = some (0, .faultDataRange, 4) := by decide
/-- K7. -/
theorem test_k7_bad_register_and_range : faultOf (step (at0 0 [0x41, 0x09, 0xFF, 0xFF])) =
    some .badRegAndRange := by decide
/-- K8. -/
theorem test_k8_push : got (step (with3 0x1234 0 0 [0x42, 0x00]))
    (fun s => (s.ram.read 0xFFFF, s.ram.read 0xFFFE, s.sp)) = some (0x34, 0x12, 253) := by decide
/-- K14. -/
theorem test_k14_push_split : faultOf (step { at0 0 [0x42, 0x00] with sp := 1 }) =
    some .stackSplitPush := by decide
/-- K9. -/
theorem test_k9_pop : got (step { at0 0 [0x43, 0x01] with
      sp := 253, ram := [(0, 0x43), (1, 0x01), (0xFFFE, 0x12), (0xFFFF, 0x34)] })
    (fun s => (s.reg 1, s.sp)) = some (some 0x1234, 255) := by decide
/-- K10. -/
theorem test_k10_pop_dropped : got (step (with3 0 7 0 [0x43, 0x01])) (fun s => (s.reg 1, s.sp)) =
    some (some 7, 255) := by decide

/-! ### The ALU (2.6) -/

/-- A1. -/
theorem test_a1_add : got (step { with3 0 0xFFFF 1 [0x50, 0x00, 0x01, 0x02] with flags := 2 })
    (fun s => (s.reg 0, s.flags)) = some (some 0, 2) := by decide
/-- A19. -/
theorem test_a19_add_bad_source : got (step (with3 7 0 0 [0x50, 0x00, 0x00, 0x09]))
    (fun s => s.reg 0) = some (some 7) := by decide
/-- A3. -/
theorem test_a3_sub : got (step (with3 0 0 1 [0x51, 0x00, 0x01, 0x02])) (fun s => s.reg 0) =
    some (some 0xFFFF) := by decide
/-- A4. -/
theorem test_a4_mul : got (step (with3 0 0xFFFF 0xFFFF [0x52, 0x00, 0x01, 0x02])) (fun s => s.reg 0) =
    some (some 1) := by decide
/-- A6 and A8. -/
theorem test_a6_div : got (step (with3 0 0xFFFF 2 [0x53, 0x00, 0x01, 0x02])) (fun s => s.reg 0) =
      some (some 0x7FFF) ∧
    got (step (with3 9 5 0 [0x53, 0x00, 0x01, 0x02])) (fun s => s.reg 0) = some (some 9) := by decide
/-- A9 and A10. -/
theorem test_a9_mod : got (step (with3 0 0xFFFF 0x100 [0x54, 0x00, 0x01, 0x02])) (fun s => s.reg 0) =
      some (some 0x00FF) ∧
    got (step (with3 9 5 0 [0x54, 0x00, 0x01, 0x02])) (fun s => s.reg 0) = some (some 9) := by decide
/-- A11. -/
theorem test_a11_and : got (step (with3 0 0xF0F0 0x3C3C [0x55, 0x00, 0x01, 0x02])) (fun s => s.reg 0) =
    some (some 0x3030) := by decide
/-- A11. -/
theorem test_a11_or : got (step (with3 0 0xF0F0 0x3C3C [0x56, 0x00, 0x01, 0x02])) (fun s => s.reg 0) =
    some (some 0xFCFC) := by decide
/-- A11. -/
theorem test_a11_xor : got (step (with3 0 0xF0F0 0x3C3C [0x57, 0x00, 0x01, 0x02])) (fun s => s.reg 0) =
    some (some 0xCCCC) := by decide
/-- A12. -/
theorem test_a12_not : got (step (with3 0 0x00FF 0 [0x58, 0x00, 0x01])) (fun s => s.reg 0) =
    some (some 0xFF00) := by decide
/-- A13 and A18. -/
theorem test_a13_shl : got (step (with3 0x8001 1 0 [0x59, 0x00, 0x01])) (fun s => s.reg 0) =
      some (some 2) ∧
    got (step (with3 3 0 0 [0x59, 0x00, 0x00])) (fun s => s.reg 0) = some (some 0x18) := by decide
/-- A15, and P6 under `shift_large` = count mod 16. -/
theorem test_a15_shl_large : got (step (with3 0x1234 16 0 [0x59, 0x00, 0x01])) (fun s => s.reg 0) =
      some (some 0) ∧
    got (step { with3 7 20 0 [0x59, 0x00, 0x01] with
      config := { Config.specDefaults with shiftLarge := .countMod16 } }) (fun s => s.reg 0) =
      some (some 0x70) := by decide
/-- A16 and A17. -/
theorem test_a16_shr : got (step (with3 0x8000 15 0 [0x5A, 0x00, 0x01])) (fun s => s.reg 0) =
      some (some 1) ∧
    got (step (with3 0x8000 0 0 [0x5A, 0x00, 0x01])) (fun s => s.reg 0) = some (some 0x8000) := by decide
/-- A20, A21 and A22. -/
theorem test_a21_cmp : got (step (with3 7 7 0 [0x5B, 0x00, 0x01])) (fun s => s.flags) = some 1 ∧
    got (step (with3 0xFFFF 1 0 [0x5B, 0x00, 0x01])) (fun s => s.flags) = some 2 ∧
    got (step (with3 1 0xFFFF 0 [0x5B, 0x00, 0x01])) (fun s => s.flags) = some 4 := by decide

/-! ### Control transfer (2.7) -/

/-- J1 and E6. -/
theorem test_j1_jmp : got (step (at0 0x10 [0x60, 0x00, 0x02])) (fun s => s.pc) = some 0x200 ∧
    got (step (at0 0xFFFD [0x60, 0x00, 0x00])) (fun s => (s.pc, s.running)) = some (0, true) := by decide
/-- J2 and J3. -/
theorem test_j2_jz : got (step { at0 0x10 [0x61, 0x00, 0x02] with flags := 1 }) (fun s => s.pc) =
      some 0x200 ∧
    got (step { at0 0x10 [0x61, 0x00, 0x02] with flags := 2 }) (fun s => s.pc) = some 0x13 := by decide
/-- J4 and J5. -/
theorem test_j4_jnz : got (step (at0 0x10 [0x62, 0x00, 0x02])) (fun s => s.pc) = some 0x200 ∧
    got (step { at0 0x10 [0x62, 0x00, 0x02] with flags := 1 }) (fun s => s.pc) = some 0x13 := by decide
/-- J6 and J7. -/
theorem test_j6_jg : got (step { at0 0x10 [0x63, 0x00, 0x02] with flags := 2 }) (fun s => s.pc) =
      some 0x200 ∧
    got (step { at0 0x10 [0x63, 0x00, 0x02] with flags := 4 }) (fun s => s.pc) = some 0x13 := by decide
/-- J6 and J7. -/
theorem test_j7_jl : got (step { at0 0x10 [0x64, 0x00, 0x02] with flags := 2 }) (fun s => s.pc) =
      some 0x13 ∧
    got (step { at0 0x10 [0x64, 0x00, 0x02] with flags := 4 }) (fun s => s.pc) = some 0x200 := by decide
/-- J8. -/
theorem test_j8_call : got (step (at0 0x10 [0x65, 0x00, 0x02]))
    (fun s => (s.ram.read 0xFFFF, s.ram.read 0xFFFE, s.sp, s.pc)) = some (0x13, 0, 253, 0x200) := by
  decide
/-- J11 and J13. -/
theorem test_j11_call_stops : faultOf (step { at0 0x10 [0x65, 0x00, 0x02] with sp := 1 }) =
      some .callStackFull ∧
    faultOf (step (at0 0xFFFD [0x65, 0x00, 0x00])) = some .callAtTop := by decide
/-- J9. -/
theorem test_j9_ret : got (step { at0 0x200 [0x66] with
      sp := 253, ram := [(0x200, 0x66), (0xFFFF, 0x13)] }) (fun s => (s.pc, s.sp)) =
    some (0x13, 255) := by decide
/-- J10. -/
theorem test_j10_ret_dropped : got (step (at0 0x10 [0x66])) (fun s => (s.pc, s.sp)) =
    some (0x11, 255) := by decide

/-! ### Memory instructions (2.9) -/

/-- M2. -/
theorem test_m2_load_mem : got (step { at0 0 [] with
      ram := [(0, 0x80), (1, 0x04), (2, 0x01), (3, 0x10), (0x1001, 0x34), (0x1002, 0x12)] })
    (fun s => s.reg 4) = some (some 0x1234) := by decide
/-- M3. -/
theorem test_m3_load_mem_faults : got (step (at0 0 [0x80, 0x04, 0xFF, 0xFF]))
    (fun s => (s.stopReason, s.reg 4, s.pc)) = some (.faultDataRange, some 0, 4) := by decide
/-- M5. -/
theorem test_m5_store_mem : got (step (with3 0 15 0 [0x81, 0x00, 0x10, 0x01]))
    (fun s => (s.ram.read 0x1000, s.ram.read 0x1001)) = some (0x0F, 0) := by decide
/-- M6. -/
theorem test_m6_store_mem_faults : got (step (with3 0 15 0 [0x81, 0xFF, 0xFF, 0x01]))
    (fun s => (s.stopReason, s.ram.read 0xFFFF)) = some (.faultDataRange, 0) := by decide
/-- M7 and M8: overlap in both directions. -/
theorem test_m7_copy_overlap :
    got (execCopyMem 0x2000 0x2001 4 { at0 0x2000 [1, 2, 3, 4, 5] with pc := 0 })
      (fun s => s.ram.readBytes 0x2000 5) = some [1, 1, 2, 3, 4] ∧
    got (execCopyMem 0x2001 0x2000 4 { at0 0x2000 [1, 2, 3, 4, 5] with pc := 0 })
      (fun s => s.ram.readBytes 0x2000 5) = some [2, 3, 4, 5, 5] := by decide
/-- M11 and M12. -/
theorem test_m11_copy_faults : got (step (at0 0 [0x82, 0x01, 0xFF, 0x00, 0x10, 0x00, 0x01]))
      (fun s => s.stopReason) = some .faultDataRange ∧
    got (step (at0 0 [0x82, 0x00, 0x10, 0xFF, 0xFF, 0x02, 0x00])) (fun s => s.stopReason) =
      some .faultDataRange := by decide

/-! ### Witnesses: states and operands that meet the statements' hypotheses -/

/-- DecodeOfEncode. -/
theorem test_wit_decode_of_encode :
    (Instr.printStr [0x48, 0xFF]).wellFormed = true ∧ (Instr.copyMem 0xFFFF 0 0x1234).wellFormed = true := by
  decide
/-- DecodedBytesAreTheEncoding. -/
theorem test_wit_decoded_bytes :
    decode [0x02, 0x48, 0x00, 0x66] = .instr (.printStr [0x48]) [0x66] := by decide
/-- UnassignedOpcodesFault, at both ends of the range R101 lists last. -/
theorem test_wit_unassigned : (∃ s : State, atBoundary s ∧
      unassignedOpcode (s.ram.read s.pc.toNat) = true) ∧
    atBoundary (at0 0xFFFF [0x83]) ∧ unassignedOpcode ((at0 0xFFFF [0x83]).ram.read 0xFFFF) = true :=
  ⟨⟨at0 0 [0xFF], by decide⟩, by decide, by decide⟩
/-- TruncatedInstrFaultsAtItsField: a SET_PIXEL cut after each of its first two bytes and its last. -/
theorem test_wit_truncated :
    atBoundary (at0 0xFFFF [0x30]) ∧ (at0 0xFFFF [0x30]).fetchBytes = (encode (.setPixel 9 2 1)).take 1 ∧
    atBoundary (at0 0xFFFE [0x30, 0x09]) ∧
    (at0 0xFFFE [0x30, 0x09]).fetchBytes = (encode (.setPixel 9 2 1)).take 2 ∧
    atBoundary (at0 0xFFFB [0x30, 0x09, 0x00, 0x02, 0x00]) ∧
    (at0 0xFFFB [0x30, 0x09, 0x00, 0x02, 0x00]).fetchBytes = (encode (.setPixel 9 2 1)).take 5 ∧
    5 < (encode (.setPixel 9 2 1)).length ∧ ∀ str, Instr.setPixel 9 2 1 ≠ .printStr str := by
  refine ⟨?_, ?_, ?_, ?_, ?_, ?_, ?_, fun str h => by cases h⟩ <;> decide
/-- UnterminatedStringPrintsThenFaults, with a string and with none. -/
theorem test_wit_unterminated : atBoundary (at0 0xFFFD [0x02, 0x48, 0x69]) ∧
    (at0 0xFFFD [0x02, 0x48, 0x69]).fetchBytes = [0x02, 0x48, 0x69] ∧ (0x00 : Byte) ∉ [0x48#8, 0x69#8] ∧
    atBoundary (at0 0xFFFF [0x02]) ∧ (at0 0xFFFF [0x02]).fetchBytes = [0x02] := by decide
/-- StepRunsTheDecodedInstr, first clause, after a host move. -/
theorem test_wit_step_runs :
    let s := { at0 0xFFFC [0x40, 0x00, 0x0A, 0x00] with schedule := [.host .shutdown, .core] }
    s.hostTurns.running = true ∧ s.hostTurns.hold = none ∧ s.hostTurns.pc.toNat < memSize ∧
      decode s.hostTurns.fetchBytes = .instr (.loadReg 0 10) [] ∧ s.hostTurns.shutdown = true := by decide
/-- StepRunsTheDecodedInstr, second clause. -/
theorem test_wit_empty_schedule : State.reset.schedule = [] := by decide
/-- PcEndAfterTheLastByte: the first clause at `pc = 0x10000`, the second at 0xFFFF. -/
theorem test_wit_pc_end :
    atBoundary (at0 0xFFFC [0x40, 0x00, 0x0A, 0x00]) ∧
    decode (at0 0xFFFC [0x40, 0x00, 0x0A, 0x00]).fetchBytes = .instr (.loadReg 0 10) [] ∧
    got (exec (.loadReg 0 10) ((at0 0xFFFC [0x40, 0x00, 0x0A, 0x00]).advance 4))
      (fun t => (t.running, t.hold, t.pc)) = some (true, none, 0x10000) ∧
    atBoundary (at0 0xFFFB [0x40, 0x00, 0x0A, 0x00, 0x31]) ∧
    decode (at0 0xFFFB [0x40, 0x00, 0x0A, 0x00, 0x31]).fetchBytes = .instr (.loadReg 0 10) [0x31] ∧
    got (exec (.loadReg 0 10) ((at0 0xFFFB [0x40, 0x00, 0x0A, 0x00, 0x31]).advance 4))
      (fun t => (t.running, t.hold, t.pc)) = some (true, none, 0xFFFF) := by decide
/-- PcEndAfterTheLastByte, its clauses about a hold that is lifted, at `pc = 0x10000` and at 0xFFFF. -/
theorem test_wit_pc_end_after_hold :
    let s : State := { State.reset with pc := 0x10000, hold := some (.sleep 5),
                                        schedule := [.host .sleepDone] }
    let u : State := { State.reset with pc := 0xFFFF, hold := some (.sleep 5),
                                        schedule := [.core, .host .sleepDone] }
    (s.running = true ∧ s.hold = some (.sleep 5) ∧ (s.suspend (.sleep 5)).running = true ∧
      (s.suspend (.sleep 5)).hold = none ∧ (s.suspend (.sleep 5)).pc = 0x10000#17) ∧
    (u.suspend (.sleep 5)).hold = none ∧ (u.suspend (.sleep 5)).pc.toNat < memSize := by decide
/-- HaltStops, its clause about a step, at the last address. -/
theorem test_wit_halt : atBoundary (at0 0xFFFF []) ∧
    (at0 0xFFFF []).ram.read (at0 0xFFFF []).pc.toNat = 0x00#8 := by decide
/-- StoppedMachineExecutesNothing. -/
theorem test_wit_stopped :
    let s := { State.reset with running := false, stopReason := .halted,
                                schedule := [.host (.keyEvent .newline), .host (.device (.putchar 0x41))] }
    s.running = false ∧ ∀ blob, Turn.host (.load blob) ∉ s.schedule := by
  refine ⟨rfl, fun blob h => ?_⟩
  simp at h
/-- LoadSetsEveryElement: both clauses, the second at 0 bytes and at 65536. -/
theorem test_wit_load : State.reset.running = true ∧ State.powerOn.running = false ∧
    ([] : List Byte).length ≤ memSize ∧ (List.replicate 65536 (0x31 : Byte)).length ≤ memSize := by
  refine ⟨rfl, rfl, Nat.zero_le _, ?_⟩
  rw [List.length_replicate]
/-- LoadTooLargeChangesNothing, at 65537 bytes. -/
theorem test_wit_load_too_large :
    let blob : List Byte := List.replicate 65537 0x31
    let s := { State.powerOn with schedule := [.host (.load blob)] }
    s.running = false ∧ memSize < blob.length ∧ s.schedule = [.host (.load blob)] := by
  refine ⟨rfl, ?_, rfl⟩
  rw [List.length_replicate]
  decide
/-- StepKeepsTheInvariant and StepsKeepWhatTheHostOwns. -/
theorem test_wit_step_keeps : State.reset.inv = true ∧ ∃ t, step State.reset = .next t :=
  ⟨by decide, _, rfl⟩
/-- StepsKeepWhatTheHostOwns, with the flag set. -/
theorem test_wit_shutdown_kept : ({ State.reset with shutdown := true } : State).shutdown = true ∧
    ∃ t, step { State.reset with shutdown := true } = .next t := ⟨rfl, _, rfl⟩
/-- PrintableByteIsStoredAtTheCursor, and its cases where they meet: columns 79 and 80, rows 24 and 25. -/
theorem test_wit_printable : (0x41 : Byte) ≠ 0x0A ∧ (0x41 : Byte) ≠ 0x0D ∧ (0x41 : Byte) ≠ 0x08 ∧
    (0x41 : Byte) ≠ 0x09 ∧
    got (exec (.printChar 0x41) (atCursor 79 24 [])) (fun t => (t.surface.cursorX, t.surface.cursorY,
      t.surface.cell 24 79)) = some (80, 24, some ⟨0x41, 0⟩) ∧
    got (exec (.printChar 0x41) (atCursor 79 25 [])) (fun t => (t.surface.cursorX, t.surface.cursorY,
      t.surface.cell 24 79)) = some (80, 24, some ⟨0x41, 0⟩) := by decide
/-- SetColorSelectsOrIgnores and SetCursorMovesEachCoordinate: the last good and the first bad value of
each range. -/
theorem test_wit_ranges : (15 : Byte).toNat < 16 ∧ 16 ≤ (16 : Byte).toNat ∧ (79 : Byte).toNat < 80 ∧
    80 ≤ (80 : Byte).toNat ∧ (24 : Byte).toNat < 25 ∧ 25 ≤ (25 : Byte).toNat := by decide
/-- GetCursorWritesBothRegisters. -/
theorem test_wit_get_cursor : (7 : Byte).toNat < 8 ∧ (0 : Byte).toNat < 8 ∧ (0 : Byte) ≠ 7 := by decide
/-- The pixel statements: the last point of the plane, and a circle's point. -/
theorem test_wit_plane : 319 < 320 ∧ 199 < 200 ∧ ((5 : Int) + 3, (5 : Int) + 0) ∈ midpointCircle 5 5 3 := by
  decide
/-- FillRectSetsItsRectangle and DrawRectSetsItsBorder, at the plane's last point, whose sums would wrap
in 16 bits. -/
theorem test_wit_rect : rectOf .xywh 319 199 0xFFFF 0xFFFF = some ⟨319, 65853, 199, 65733⟩ := by decide
/-- SleepAndBeepEndOnTheirSignal, its clauses on a signal that comes next. -/
theorem test_wit_signals :
    ({ State.reset with schedule := [.host .sleepDone, .core] } : State).schedule =
      .host .sleepDone :: [.core] ∧
    ({ State.reset with schedule := [.host .beepDone] } : State).schedule = .host .beepDone :: [] ∧
    State.reset.shutdown = false := ⟨rfl, rfl, rfl⟩
/-- SleepAndBeepEndOnTheirSignal, its clauses on a signal that comes later, on none, and on a hold taken
up again. -/
theorem test_wit_timed_hold :
    let before : List Turn := [.core, .host (.keyEvent .newline), .host .clearDirty, .host .beepDone]
    let s : State := { State.reset with hold := some (.sleep 7),
                                        schedule := before ++ .host .sleepDone :: [.core] }
    timedHold (.sleepMs 7) = some (.sleep 7, .sleepDone) ∧
    timedHold (.beep 1 2) = some (.beep 1 2, .beepDone) ∧
    (s.running = true ∧ s.shutdown = false ∧ s.hold = some (.sleep 7)) ∧
    Turn.host .sleepDone ∉ before ∧ Turn.host .shutdown ∉ before ∧
    Turn.host .beepDone ∉ State.reset.schedule ∧ Turn.host .shutdown ∉ State.reset.schedule := by
  decide
/-- R200, R201, D31: SLEEP_MS 0 and BEEP do not go on without a host event; the hold keeps the request. -/
theorem test_no_signal_holds :
    got (step (at0 0 [0x20, 0x00, 0x00])) (fun s => (s.pc, s.running, s.hold)) =
      some (3, true, some (.sleep 0)) ∧
    got (step { at0 0 [0x21, 0xB8, 0x01, 0xC8, 0x00] with schedule := [.host .sleepDone] })
      (fun s => (s.pc, s.running, s.hold)) = some (5, true, some (.beep 440 200)) := by decide
/-- ShutdownEndsTheRunAtSuspensionPoints: its first, second and last clauses. -/
theorem test_wit_shutdown :
    (isSuspension (.readChar 9) = true ∧ ({ State.reset with shutdown := true } : State).shutdown = true) ∧
    (isSuspension (.sleepMs 0) = true ∧ State.reset.shutdown = false ∧
      ({ State.reset with schedule := [.core, .core, .host .shutdown] } : State).schedule =
        List.replicate 2 .core ++ .host .shutdown :: []) ∧
    isSuspension (.loadReg 0 1) = false ∧
      ∃ t, exec (.loadReg 0 1) { State.reset with shutdown := false } = .next t :=
  ⟨⟨rfl, rfl⟩, ⟨rfl, rfl, rfl⟩, rfl, _, rfl⟩
/-- ShutdownEndsTheRunAtSuspensionPoints, its third clause: on arrival, and during a hold after a key. -/
theorem test_wit_shutdown_seen :
    got (exec (.readChar 2) { State.reset with
        schedule := [.core, .host (.keyEvent .newline), .host .shutdown, .core] })
      (fun t => (t.shutdown, t.stopReason, t.regs)) =
      some (true, .shutdown, Vector.replicate 8 0) ∧
    got (step { State.reset with hold := some (.beep 1 1), schedule := [.host .shutdown] })
      (fun t => (t.shutdown, t.stopReason)) = some (true, .shutdown) := by decide
/-- ReadCharTakesTheLastArrivedKey, after one earlier key and after none. -/
theorem test_wit_read_char :
    let key (k : Key) : Turn := .host (.keyEvent k)
    ({ State.reset with schedule := [key .newline, key (.printable 94), .core] } : State).schedule =
      [Key.newline].map (fun e => Turn.host (.keyEvent e)) ++ key (.printable 94) :: .core :: [] ∧
    ({ State.reset with schedule := [key .backspace, .core] } : State).schedule =
      ([] : List Key).map (fun e => Turn.host (.keyEvent e)) ++ key .backspace :: .core :: [] ∧
    State.reset.shutdown = false := ⟨rfl, rfl, rfl⟩
/-- ReadCharHoldsWithoutAKey. -/
theorem test_wit_read_char_holds :
    State.reset.running = true ∧ State.reset.shutdown = false ∧ State.reset.schedule = [] := by decide
/-- DefaultCircleIsSymmetricAndComplete, at the first and the last column. -/
theorem test_wit_circle : ((5 : Int) + 2, (5 : Int) + 1) ∈ midpointCircle 5 5 2 ∧ 0 ≤ 2 ∧ 2 ≤ 2 := by
  decide
/-- RandomStaysInItsRange, second clause, at both ends of the set. -/
theorem test_wit_random : (0 : Word).toNat ≤ (6 : Word).toNat ∧ (6 : Word).toNat ≤ (6 : Word).toNat ∧
    (0xFFFF : Word).toNat ≤ (0xFFFF : Word).toNat := by decide
/-- LoadRegWritesTheImmediate, GetTimeWritesTheClock, RandomStaysInItsRange: the last good and the first
bad register byte. -/
theorem test_wit_registers : (7 : Byte).toNat < 8 ∧ 8 ≤ (8 : Byte).toNat := by decide
/-- StoresWriteTwoBytes and StoreThenLoadReturnsTheRegister, at the last address with room. -/
theorem test_wit_stores : (with3 0 0xBEEF 0 []).ram.wf = true ∧
    (with3 0 0xBEEF 0 []).reg 1 = some 0xBEEF ∧ (0xFFFE : Word).toNat ≤ 0xFFFE ∧
    (7 : Byte).toNat < 8 ∧ (Instr.storeReg 1 0xFFFE = .storeReg 1 0xFFFE ∨
      Instr.storeReg 1 0xFFFE = .storeMem 0xFFFE 1) := by decide
/-- DataRangeFaultHasNoOtherEffect: both disjuncts; the copy one byte past the end on each side. -/
theorem test_wit_data_range :
    ((7 : Byte).toNat < 8 ∧ (Instr.loadMem 7 0xFFFF = .loadMem 7 0xFFFF#16 ∨
      Instr.loadMem 7 0xFFFF = .storeMem 0xFFFF#16 7 ∨ Instr.loadMem 7 0xFFFF = .storeReg 7 0xFFFF#16)) ∧
    0x10000 < (0xFFFF : Word).toNat + (2 : Word).toNat ∧
    0x10000 < (0x0002 : Word).toNat + (0xFFFF : Word).toNat := by decide
/-- BadRegisterWithAnAddress: both clauses where they meet. -/
theorem test_wit_bad_register : 8 ≤ (8 : Byte).toNat ∧ (0xFFFE : Word).toNat ≤ 0xFFFE ∧
    (0xFFFF : Word) = 0xFFFF#16 ∧ (Instr.loadMem 8 0 = .loadMem 8 0 ∨ Instr.loadMem 8 0 = .storeMem 0 8 ∨
      Instr.loadMem 8 0 = .storeReg 8 0) := by decide
/-- PushWritesLowByteFirst and PopUndoesPush, at both ends of the range of `sp`; the drop and the stop. -/
theorem test_wit_push :
    (with3 7 0 0 []).ram.wf = true ∧ (with3 7 0 0 []).reg 0 = some 7 ∧ (2 : Word).toNat = 2 ∧
    2 ≤ (with3 7 0 0 []).sp.toNat ∧ (with3 7 0 0 []).sp.toNat ≤ 255 ∧
    ({ State.reset with sp := 2 } : State).sp.toNat = 2 ∧ ({ State.reset with sp := 0 } : State).sp = 0#16 ∧
    ({ State.reset with sp := 1 } : State).sp = 1#16 := by decide
/-- PopReadsHighByteFirst and RetPopsThePc: the last `sp` with a value to pop, and the two above it. -/
theorem test_wit_pop :
    ({ State.reset with sp := 253 } : State).sp.toNat ≤ 253 ∧
    ({ State.reset with sp := 254 } : State).sp = 254#16 ∧ State.reset.sp = 255#16 := by decide
/-- The ALU statements: two good sources, a good destination, a divisor of 0 and another. -/
theorem test_wit_alu : (with3 5 0 0xFFFF []).reg 2 = some 0xFFFF ∧ (with3 5 0 0xFFFF []).reg 1 = some 0 ∧
    (0 : Byte).toNat < 8 ∧ (0 : Word) = 0#16 ∧ (0xFFFF : Word) ≠ 0#16 := by decide
/-- ShiftsUseTheCountRegister: counts 15 and 16, and the default parameter. -/
theorem test_wit_shift : (with3 1 15 16 []).reg 0 = some 1 ∧ (with3 1 15 16 []).reg 1 = some 15 ∧
    (with3 1 15 16 []).reg 2 = some 16 ∧ (15 : Word).toNat < 16 ∧ 16 ≤ (16 : Word).toNat ∧
    (with3 1 15 16 []).config.shiftLarge = .zero := by decide
/-- CmpSetsOneFlag, second clause, and AluIgnoresBadRegisters. -/
theorem test_wit_bad_indexes : 8 ≤ (8 : Byte).toNat ∧ 8 ≤ (255 : Byte).toNat := by decide
/-- CallPushesTheReturnAddress and RetUndoesCall: room for two bytes at the last `pc`; the two stops. -/
theorem test_wit_call :
    let s : State := { State.reset with pc := 0xFFFF, sp := 2 }
    (s.ram.wf = true ∧ s.pc.toNat < memSize ∧ 2 ≤ s.sp.toNat ∧ s.sp.toNat ≤ 255) ∧
    ({ State.reset with pc := 0x10000 } : State).pc = 0x10000#17 ∧
    ({ State.reset with sp := 1 } : State).sp.toNat ≤ 1 ∧ State.reset.pc.toNat < memSize := by decide
/-- LoadMemReadsTwoBytes and CopyMemReadsBeforeItWrites, both ranges ending at 0xFFFF. -/
theorem test_wit_memory : (0xFFFE : Word).toNat ≤ 0xFFFE ∧ State.reset.ram.wf = true ∧
    (0xFF00 : Word).toNat + (0x100 : Word).toNat ≤ 0x10000 ∧
    (0x8000 : Word).toNat + (0x100 : Word).toNat ≤ 0x10000 := by decide
/-- The frames: an instruction that answers a next state, a register it does not name, an address it
does not store to. -/
theorem test_wit_frames :
    State.reset.running = true ∧ State.reset.ram.wf = true ∧
    (∃ t, exec (.storeMem 0x1000 1) State.reset = .next t ∧ t.running = true) ∧
    (1 : Byte) ∉ destRegs (.storeMem 0x1000 1) ∧
    (∀ start count, storedBytes (.storeMem 0x1000 1) State.reset = some (start, count) →
      0x0FFF < start ∨ start + count ≤ 0x0FFF) ∧
    drivesSurface (.storeMem 0x1000 1) = false ∧ isSuspension (.storeMem 0x1000 1) = false ∧
    movesStack (.storeMem 0x1000 1) = false ∧ isTransfer (.storeMem 0x1000 1) = false ∧
    ∀ s1 s2, Instr.storeMem 0x1000 1 ≠ .cmp s1 s2 := by
  refine ⟨rfl, rfl, ⟨_, rfl, rfl⟩, by decide, fun start count h => ?_, rfl, rfl, rfl, rfl,
    fun s1 s2 h => by cases h⟩
  cases h
  decide

end Sys2Proof.Tests
end

section
/-! PROOF. What the host owns survives every step: the parameters (R8), the `shutdown` flag (R43) and
the key counter (R42). One relation says so of two states; each part of a step keeps it. -/

namespace Sys2Proof.Machine

/-- From `s` to `t` no parameter changes, `shutdown` is not cleared and `key_seq` is not taken back. -/
structure State.KeepsHostOwned (s t : State) : Prop where
  config : t.config = s.config
  shutdown : s.shutdown = true → t.shutdown = true
  keySeq : s.keySeq ≤ t.keySeq

namespace State.KeepsHostOwned

theorem of_eq {s t : State} (hc : t.config = s.config) (hs : t.shutdown = s.shutdown)
    (hk : t.keySeq = s.keySeq) : s.KeepsHostOwned t :=
  ⟨hc, hs.trans, hk.ge⟩

theorem refl (s : State) : s.KeepsHostOwned s := .of_eq rfl rfl rfl

theorem trans {a b c : State} (h : a.KeepsHostOwned b) (g : b.KeepsHostOwned c) :
    a.KeepsHostOwned c :=
  ⟨g.config.trans h.config, fun hs => g.shutdown (h.shutdown hs), h.keySeq.trans g.keySeq⟩

end State.KeepsHostOwned

theorem State.HostOnly.keepsHostOwned {s t : State} (h : s.HostOnly t) : s.KeepsHostOwned t :=
  ⟨h.config, h.shutdown, h.keySeq⟩

theorem State.stop_keepsHostOwned (s : State) (why : StopReason) : s.KeepsHostOwned (s.stop why) :=
  .of_eq rfl rfl rfl

theorem State.loopTest_keepsHostOwned (s : State) : s.KeepsHostOwned s.loopTest := by
  obtain ⟨-, -, -, h⟩ | ⟨-, h⟩ := s.loopTest_cases <;> rw [h]
  · exact s.stop_keepsHostOwned .pcEnd
  · exact .refl s

/-- Every rejected fetch ends in a fault entry, which writes the surface and the run state alone. -/
theorem State.rejectFetch_keepsHostOwned (s : State) (why : Reject) :
    s.KeepsHostOwned (s.rejectFetch why) := by
  cases why <;> exact .of_eq rfl rfl rfl

theorem applyMove_keepsHostOwned (m : HostMove) (s : State) :
    s.KeepsHostOwned (applyMove m s) := by
  obtain ⟨hc, -, hs, hk⟩ := applyMove_keeps m s
  exact ⟨hc, hs, hk⟩

theorem applyTurns_keepsHostOwned (turns : List Turn) (s : State) :
    s.KeepsHostOwned (applyTurns turns s) := by
  induction turns generalizing s with
  | nil => exact .of_eq rfl rfl rfl
  | cons turn rest ih =>
    cases turn with
    | core => exact .of_eq rfl rfl rfl
    | host m => exact (applyMove_keepsHostOwned m s).trans (ih (applyMove m s))

theorem State.hostTurns_keepsHostOwned (s : State) : s.KeepsHostOwned s.hostTurns := by
  unfold State.hostTurns
  split_ifs
  · exact .refl s
  · exact applyTurns_keepsHostOwned s.schedule s

theorem afterHold_keepsHostOwned (h : Suspension) (s : State) :
    s.KeepsHostOwned (afterHold h s) := by
  cases h <;> exact .of_eq rfl rfl rfl

/-- The three ways a hold can go on from `u`, the state its host moves lead to: SHUTDOWN, the
instruction's end, or holding with no turn left (R330, R333). -/
theorem State.KeepsHostOwned.of_hold {s u t : State} {h : Suspension} {rest : List Turn}
    (hu : s.HostOnly u)
    (ht : t = State.stop { u with schedule := rest } .shutdown ∧ u.shutdown = true ∨
      t = afterHold h (u.endHold rest) ∨ t = { u with hold := some h, schedule := [] }) :
    s.KeepsHostOwned t := by
  refine hu.keepsHostOwned.trans ?_
  obtain ⟨rfl, -⟩ | rfl | rfl := ht
  · exact .of_eq rfl rfl rfl
  · have hend : u.KeepsHostOwned (u.endHold rest) := .of_eq rfl rfl rfl
    exact hend.trans (afterHold_keepsHostOwned h _)
  · exact .of_eq rfl rfl rfl

theorem State.suspend_keepsHostOwned {s : State} (h : Suspension) (hr : s.running = true) :
    s.KeepsHostOwned (s.suspend h) := by
  obtain ⟨u, hu, rest, ht⟩ := State.suspend_cases h hr
  exact .of_hold hu ht

/-- Of all effects an instruction can have, only a hold lets the host move. -/
theorem Effect.keepsHostOwned {i : Instr} {s t : State} (h : Effect i s t) :
    s.KeepsHostOwned t := by
  cases h with
  | registers frame => rw [frame]; exact .of_eq rfl rfl rfl
  | surface _ frame => rw [frame]; exact .of_eq rfl rfl rfl
  | compare _ frame => rw [frame]; exact .of_eq rfl rfl rfl
  | halts eq => rw [eq]; exact s.stop_keepsHostOwned .halted
  | faults eq => rw [eq]; exact .of_eq rfl rfl rfl
  | stores _ _ _ _ frame => rw [frame]; exact .of_eq rfl rfl rfl
  | pushes v _ _ _ eq => obtain rfl | ⟨-, a, rfl⟩ := eq <;> exact .of_eq rfl rfl rfl
  | pops _ _ eq => obtain ⟨r, -, rfl⟩ | ⟨-, rfl⟩ := eq <;> exact .of_eq rfl rfl rfl
  | jumps _ a eq => rw [eq]; exact .of_eq rfl rfl rfl
  | suspends _ u host h rest _ eq => exact .of_hold host eq

/-- The loop test after a meaning adds nothing to what the meaning keeps (R27). -/
theorem finish_keepsHostOwned {r : Result} {s t : State} (ht : finish r = .next t)
    (h : ∀ u, r = .next u → s.KeepsHostOwned u) : s.KeepsHostOwned t := by
  obtain ⟨u, hu, rfl⟩ := finish_eq_next ht
  exact (h u hu).trans u.loopTest_keepsHostOwned

theorem step_keepsHostOwned {s t : State} (ht : step s = .next t) : s.KeepsHostOwned t := by
  refine s.hostTurns_keepsHostOwned.trans ?_
  generalize hu : s.hostTurns = u
  obtain ⟨-, he⟩ | ⟨h, hr, -, he⟩ | ⟨-, -, -, he⟩ | ⟨i, rest, hr, -, -, -, he⟩ |
    ⟨why, -, -, -, -, he⟩ := step_cases hu <;> rw [he] at ht
  · cases ht
    exact .refl _
  · refine finish_keepsHostOwned ht fun v hv => ?_
    cases hv
    exact u.suspend_keepsHostOwned h hr
  · cases ht
    exact u.stop_keepsHostOwned .pcEnd
  · refine finish_keepsHostOwned ht fun v hv => ?_
    have hfetch : u.KeepsHostOwned (u.advance (instrLength i)) := .of_eq rfl rfl rfl
    have heffect : Effect i (u.advance (instrLength i)) v := exec_effect hr hv
    exact hfetch.trans heffect.keepsHostOwned
  · cases ht
    exact u.rejectFetch_keepsHostOwned why

/-- Settles O14: the host's turns, the fetch, the meaning or the hold, and the loop test each keep what
the host owns, and so does their composition. -/
theorem stepsKeepWhatTheHostOwns : Obligations.StepsKeepWhatTheHostOwns := by
  intro s t ht
  obtain ⟨hconfig, hshutdown, hkeySeq⟩ := step_keepsHostOwned ht
  exact ⟨hconfig, hshutdown, hkeySeq⟩

end Sys2Proof.Machine
end

section
/-! PROOF. What the decoder takes lies in the bytes it was given (R93, R94, R100), so a fetch leaves `pc`
at 0x10000 at the most (R25). -/

namespace Sys2Proof

/-- The bytes an answer of the decoder accounts for are at most `n`: the instruction's length, or what
was fetched before the rejection. -/
def Decoded.Within (n : Nat) : Decoded → Prop
  | .instr i _ => instrLength i ≤ n
  | .reject (.unknownOpcode _) => 1 ≤ n
  | .reject (.truncated consumed) => consumed ≤ n
  | .reject (.unterminated str) => 1 + str.length ≤ n

/-- A byte field after `c` bytes: its own byte lies within the bytes given, and so does what `k` reads
from there. -/
theorem within_fetchB {c : Nat} {bs : List Byte} {k : Byte → List Byte → Decoded}
    (hk : ∀ b rest, (k b rest).Within (c + 1 + rest.length)) :
    (fetchB c bs k).Within (c + bs.length) := by
  obtain ⟨-, h⟩ | ⟨b, rest, rfl, h⟩ := fetchB_cases c bs k <;> rw [h]
  · exact Nat.le_add_right c _
  · rw [List.length_cons, Nat.add_comm rest.length, ← Nat.add_assoc]
    exact hk b rest

/-- A word field after `c` bytes, as `within_fetchB`. -/
theorem within_fetchW {c : Nat} {bs : List Byte} {k : Word → List Byte → Decoded}
    (hk : ∀ w rest, (k w rest).Within (c + 2 + rest.length)) :
    (fetchW c bs k).Within (c + bs.length) := by
  obtain ⟨-, h⟩ | ⟨lo, hi, rest, rfl, h⟩ := fetchW_cases c bs k <;> rw [h]
  · exact Nat.le_add_right c _
  · rw [List.length_cons, List.length_cons, Nat.add_assoc, Nat.add_comm rest.length, ← Nat.add_assoc]
    exact hk _ rest

theorem within_instr {i : Instr} {rest : List Byte} {c : Nat} (hi : instrLength i = c) :
    (Decoded.instr i rest).Within (c + rest.length) := by
  subst hi
  exact Nat.le_add_right _ _

/-! ### One lemma per format of R99 -/

theorem within_fmtB {mk : Byte → Instr} (h : ∀ a, instrLength (mk a) = 2) (bs : List Byte) :
    (fmtB mk bs).Within (1 + bs.length) :=
  within_fetchB fun a _ => within_instr (h a)

theorem within_fmtBB {mk : Byte → Byte → Instr} (h : ∀ a b, instrLength (mk a b) = 3)
    (bs : List Byte) : (fmtBB mk bs).Within (1 + bs.length) :=
  within_fetchB fun a _ => within_fetchB fun b _ => within_instr (h a b)

theorem within_fmtBBB {mk : Byte → Byte → Byte → Instr} (h : ∀ a b c, instrLength (mk a b c) = 4)
    (bs : List Byte) : (fmtBBB mk bs).Within (1 + bs.length) :=
  within_fetchB fun a _ => within_fetchB fun b _ => within_fetchB fun c _ => within_instr (h a b c)

theorem within_fmtW {mk : Word → Instr} (h : ∀ a, instrLength (mk a) = 3) (bs : List Byte) :
    (fmtW mk bs).Within (1 + bs.length) :=
  within_fetchW fun a _ => within_instr (h a)

theorem within_fmtWW {mk : Word → Word → Instr} (h : ∀ a b, instrLength (mk a b) = 5)
    (bs : List Byte) : (fmtWW mk bs).Within (1 + bs.length) :=
  within_fetchW fun a _ => within_fetchW fun b _ => within_instr (h a b)

theorem within_fmtWWW {mk : Word → Word → Word → Instr} (h : ∀ a b c, instrLength (mk a b c) = 7)
    (bs : List Byte) : (fmtWWW mk bs).Within (1 + bs.length) :=
  within_fetchW fun a _ => within_fetchW fun b _ => within_fetchW fun c _ => within_instr (h a b c)

theorem within_fmtWWWW {mk : Word → Word → Word → Word → Instr}
    (h : ∀ a b c d, instrLength (mk a b c d) = 9) (bs : List Byte) :
    (fmtWWWW mk bs).Within (1 + bs.length) :=
  within_fetchW fun a _ => within_fetchW fun b _ => within_fetchW fun c _ => within_fetchW fun d _ =>
    within_instr (h a b c d)

theorem within_fmtBW {mk : Byte → Word → Instr} (h : ∀ a b, instrLength (mk a b) = 4)
    (bs : List Byte) : (fmtBW mk bs).Within (1 + bs.length) :=
  within_fetchB fun a _ => within_fetchW fun b _ => within_instr (h a b)

theorem within_fmtWB {mk : Word → Byte → Instr} (h : ∀ a b, instrLength (mk a b) = 4)
    (bs : List Byte) : (fmtWB mk bs).Within (1 + bs.length) :=
  within_fetchW fun a _ => within_fetchB fun b _ => within_instr (h a b)

theorem within_fmtWWB {mk : Word → Word → Byte → Instr} (h : ∀ a b c, instrLength (mk a b c) = 6)
    (bs : List Byte) : (fmtWWB mk bs).Within (1 + bs.length) :=
  within_fetchW fun a _ => within_fetchW fun b _ => within_fetchB fun c _ => within_instr (h a b c)

/-- A string ends at its terminator, or takes every byte there is (R142). -/
theorem within_fmtS {mk : List Byte → Instr} (h : ∀ str, instrLength (mk str) = str.length + 2)
    (bs : List Byte) : (fmtS mk bs).Within (1 + bs.length) := by
  unfold fmtS
  split
  next str rest hs =>
    obtain ⟨rfl, -⟩ := splitString_eq_some hs
    have hlen : instrLength (mk str) ≤ 1 + (str ++ 0#8 :: rest).length := by simp [h]; omega
    exact hlen
  next => exact Nat.le_refl _

/-- The opcode map, its rows in the order of R99 grouped by format: each format's length is R99's. -/
theorem within_decodeOp (op : Byte) (bs : List Byte) : (decodeOp op bs).Within (1 + bs.length) := by
  unfold decodeOp
  split
  case h_1 | h_4 | h_17 | h_40 => exact within_instr rfl
  case h_2 | h_5 | h_14 | h_20 | h_21 | h_41 => exact within_fmtB (fun _ => rfl) bs
  case h_6 | h_7 | h_30 | h_31 | h_32 | h_33 => exact within_fmtBB (fun _ _ => rfl) bs
  case h_22 | h_23 | h_24 | h_25 | h_26 | h_27 | h_28 | h_29 =>
    exact within_fmtBBB (fun _ _ _ => rfl) bs
  case h_12 | h_34 | h_35 | h_36 | h_37 | h_38 | h_39 => exact within_fmtW (fun _ => rfl) bs
  case h_13 => exact within_fmtWW (fun _ _ => rfl) bs
  case h_11 | h_44 => exact within_fmtWWW (fun _ _ _ => rfl) bs
  case h_8 | h_9 | h_10 => exact within_fmtWWWW (fun _ _ _ _ => rfl) bs
  case h_15 | h_18 | h_19 | h_42 => exact within_fmtBW (fun _ _ => rfl) bs
  case h_43 => exact within_fmtWB (fun _ _ => rfl) bs
  case h_16 => exact within_fmtWWB (fun _ _ _ => rfl) bs
  case h_3 => exact within_fmtS (fun _ => rfl) bs
  case h_45 => exact Nat.le_add_right 1 _

theorem within_decode (bs : List Byte) : (decode bs).Within bs.length := by
  cases bs with
  | nil => exact Nat.le_refl 0
  | cons op rest =>
    rw [List.length_cons, Nat.add_comm]
    exact within_decodeOp op rest

end Sys2Proof

namespace Sys2Proof.Machine

theorem State.length_fetchBytes (s : State) : s.fetchBytes.length = memSize - s.pc.toNat :=
  s.ram.length_readBytes _ _

/-- The 17-bit counter does not wrap on the way up to 0x10000 (R25). -/
theorem State.toNat_advance_pc {s : State} {n : Nat} (h : s.pc.toNat + n ≤ memSize) :
    (s.advance n).pc.toNat = s.pc.toNat + n := by
  rw [State.advance_pc, BitVec.toNat_add, BitVec.toNat_ofNat, Nat.add_mod_mod, Nat.mod_eq_of_lt]
  exact h.trans_lt (by decide)

/-- A fetched instruction ends at 0xFFFF at the latest. -/
theorem State.add_instrLength_le {s : State} {i : Instr} {rest : List Byte}
    (hp : s.pc.toNat < memSize) (hd : decode s.fetchBytes = .instr i rest) :
    s.pc.toNat + instrLength i ≤ memSize := by
  have hfit := within_decode s.fetchBytes
  rw [hd, s.length_fetchBytes] at hfit
  have hlen : instrLength i ≤ memSize - s.pc.toNat := hfit
  omega

end Sys2Proof.Machine
end

section
/-! PROOF. The machine's invariant is kept by every step (R25, R29 to R33, R40, R66). It is `State.Sound`,
which every part of a step keeps, and a legal `pc` at an instruction boundary, which the loop test
restores (R27). -/

namespace Sys2Proof.Machine

/-- The invariant, but for the bound on `pc` at an instruction boundary: an instruction may complete at
`pc = 0x10000`, until the loop test looks at it (R27). -/
structure State.Sound (s : State) : Prop where
  ram : s.ram.wf = true
  spRange : s.sp.toNat ≤ 255
  spOdd : s.sp.toNat % 2 = 1
  flags : s.flags = 0#8 ∨ s.flags = 1#8 ∨ s.flags = 2#8 ∨ s.flags = 4#8
  pc : s.pc.toNat ≤ memSize
  stopReason : s.running = true → s.stopReason = .none
  hold : s.running = false → s.hold = none
  visible : s.surface.cursorVisible = true

theorem stackLegal_iff (s : State) :
    stackLegal s = true ↔ s.sp.toNat ≤ 255 ∧ s.sp.toNat % 2 = 1 := by
  simp [stackLegal, BitVec.getLsbD, Nat.testBit_zero]

theorem pcLegal_iff (s : State) :
    pcLegal s = true ↔
      s.pc.toNat ≤ memSize ∧ (s.running = true → s.hold = none → s.pc.toNat < memSize) := by
  cases hr : s.running <;> cases hh : s.hold <;> simp [pcLegal, hr, hh]

theorem runLegal_iff (s : State) :
    runLegal s = true ↔
      (s.running = true → s.stopReason = .none) ∧ (s.running = false → s.hold = none) := by
  cases hr : s.running <;> cases hh : s.hold <;> simp [runLegal, hr, hh]

theorem State.inv_iff (s : State) :
    s.inv = true ↔ s.Sound ∧ (s.running = true → s.hold = none → s.pc.toNat < memSize) := by
  simp only [State.inv, Bool.and_eq_true, stackLegal_iff, flagsLegal, decide_eq_true_eq, pcLegal_iff,
    runLegal_iff]
  constructor
  · rintro ⟨⟨⟨⟨⟨hram, hrange, hodd⟩, hflags⟩, hpc, hboundary⟩, hreason, hhold⟩, hvisible⟩
    exact ⟨⟨hram, hrange, hodd, hflags, hpc, hreason, hhold, hvisible⟩, hboundary⟩
  · rintro ⟨⟨hram, hrange, hodd, hflags, hpc, hreason, hhold, hvisible⟩, hboundary⟩
    exact ⟨⟨⟨⟨⟨hram, hrange, hodd⟩, hflags⟩, hpc, hboundary⟩, hreason, hhold⟩, hvisible⟩

namespace State.Sound

variable {s t u : State}

/-! ### The state operations -/

theorem inv_of_stopped (hs : s.Sound) (hr : s.running = false) : s.inv = true :=
  (State.inv_iff s).2 ⟨hs, fun h => absurd (hr.symm.trans h) Bool.false_ne_true⟩

theorem advance {n : Nat} (hs : s.Sound) (hn : s.pc.toNat + n ≤ memSize) : (s.advance n).Sound :=
  { hs with pc := (State.toNat_advance_pc hn).trans_le hn }

/-- A 16-bit target is a legal `pc` (R270). -/
theorem jump (hs : s.Sound) (a : Word) : (s.jump a).Sound := by
  have hpc : (s.jump a).pc.toNat ≤ memSize := by
    rw [State.jump_pc, BitVec.toNat_setWidth]
    exact (Nat.mod_le _ _).trans a.isLt.le
  exact { hs with pc := hpc }

theorem setReg (hs : s.Sound) (r : Byte) (v : Word) : (s.setReg r v).Sound := { hs with }

theorem stop (hs : s.Sound) (why : StopReason) : (s.stop why).Sound :=
  { hs with stopReason := nofun, hold := fun _ => rfl }

/-- No output hides the cursor (R40). -/
theorem putchars (hs : s.Sound) (bytes : List Byte) :
    State.Sound { s with surface := s.surface.putchars bytes } :=
  { hs with visible := (s.surface.putchars_frame bytes).2.2.2.1.trans hs.visible }

theorem raiseFault (hs : s.Sound) (k : FaultKind) : (s.raiseFault k).Sound :=
  (hs.stop (faultReason k)).putchars (diagBytes s.config k)

theorem schedule (hs : s.Sound) (rest : List Turn) : State.Sound { s with schedule := rest } :=
  { hs with }

theorem endHold (hs : s.Sound) (rest : List Turn) : (s.endHold rest).Sound :=
  { hs with hold := fun _ => rfl }

/-- A push with room takes 2 from `sp` (R220). -/
theorem pushed (hs : s.Sound) (v : Word) (h : 2 ≤ s.sp.toNat) : (s.pushed v).Sound := by
  have hodd := hs.spOdd
  have hrange := hs.spRange
  have hsp : (s.pushed v).sp.toNat = s.sp.toNat - 2 :=
    BitVec.toNat_sub_of_le (show 2#16 ≤ s.sp from h)
  exact { hs with ram := State.wf_pushed hs.ram h hrange, spRange := by omega, spOdd := by omega }

/-- A pop with two bytes to pop adds 2 to `sp` (R221). -/
theorem popped (hs : s.Sound) (h : s.sp.toNat ≤ 253) :
    State.Sound { s with sp := s.sp + 2#16 } := by
  have hodd := hs.spOdd
  have hsp : (s.sp + 2#16).toNat = s.sp.toNat + 2 :=
    BitVec.toNat_add_of_lt (show s.sp.toNat + 2 < 2 ^ 16 by omega)
  exact { hs with
    spRange := show (s.sp + 2#16).toNat ≤ 255 by omega,
    spOdd := show (s.sp + 2#16).toNat % 2 = 1 by omega }

/-- The loop test restores the bound on `pc` at a boundary (R27). -/
theorem inv_loopTest (hs : s.Sound) : s.loopTest.inv = true := by
  obtain ⟨-, -, -, h⟩ | ⟨hboundary, h⟩ := s.loopTest_cases <;> rw [h]
  · exact (hs.stop .pcEnd).inv_of_stopped rfl
  · exact (State.inv_iff s).2 ⟨hs, hboundary⟩

/-! ### Holds -/

theorem hostOnly (hs : s.Sound) (hu : s.HostOnly u) : u.Sound where
  ram := hu.ram ▸ hs.ram
  spRange := hu.sp ▸ hs.spRange
  spOdd := hu.sp ▸ hs.spOdd
  flags := hu.flags ▸ hs.flags
  pc := hu.pc ▸ hs.pc
  stopReason := hu.running ▸ hu.stopReason ▸ hs.stopReason
  hold := hu.running ▸ hu.hold ▸ hs.hold
  visible := by obtain h | h := hu.surface <;> rw [h] <;> exact hs.visible

theorem afterHold (hs : s.Sound) (h : Suspension) : (afterHold h s).Sound := by
  cases h with
  | sleep ms => exact hs
  | beep f d => exact hs
  | readChar r seq0 => exact hs.setReg r _

/-- The three ways a hold of a running machine can go on (R330, R333). -/
theorem of_hold {h : Suspension} {rest : List Turn} (hs : s.Sound) (hr : s.running = true)
    (hu : s.HostOnly u)
    (ht : t = State.stop { u with schedule := rest } .shutdown ∧ u.shutdown = true ∨
      t = Machine.afterHold h (u.endHold rest) ∨ t = { u with hold := some h, schedule := [] }) :
    t.Sound := by
  have hsound : u.Sound := hs.hostOnly hu
  have hrunning : u.running = true := hu.running.trans hr
  obtain ⟨rfl, -⟩ | rfl | rfl := ht
  · exact (hsound.schedule rest).stop .shutdown
  · exact (hsound.endHold rest).afterHold h
  · exact { hsound with hold := fun hf => absurd (hf.symm.trans hrunning) Bool.false_ne_true }

theorem suspend (hs : s.Sound) (hr : s.running = true) (h : Suspension) : (s.suspend h).Sound := by
  obtain ⟨u, hu, rest, ht⟩ := State.suspend_cases h hr
  exact hs.of_hold hr hu ht

/-! ### Instructions and rejected fetches -/

/-- Every kind of effect an instruction can have keeps what is sound. -/
theorem effect {i : Instr} (hs : s.Sound) (hr : s.running = true) (h : Effect i s t) : t.Sound := by
  cases h with
  | registers frame => rw [frame]; exact { hs with }
  | surface _ frame visible => rw [frame]; exact { hs with visible := visible.trans hs.visible }
  | compare _ frame legal =>
    have hlegal : t.flags = 0#8 ∨ t.flags = 1#8 ∨ t.flags = 2#8 ∨ t.flags = 4#8 := by
      obtain h | h := legal
      · rw [h]; exact hs.flags
      · exact h
    rw [frame]
    exact { hs with flags := hlegal }
  | halts eq => rw [eq]; exact hs.stop .halted
  | faults eq => rw [eq]; exact hs.raiseFault .dataRange
  | stores _ _ _ _ frame wf => rw [frame]; exact { hs with ram := wf hs.ram }
  | pushes v _ room _ eq =>
    have hpushed := hs.pushed v room.1
    obtain rfl | ⟨-, a, rfl⟩ := eq
    · exact hpushed
    · exact hpushed.jump a
  | pops _ room eq =>
    have hpopped := hs.popped room
    obtain ⟨r, -, rfl⟩ | ⟨-, rfl⟩ := eq
    · exact hpopped.setReg r _
    · exact hpopped.jump _
  | jumps _ a eq => rw [eq]; exact hs.jump a
  | suspends _ u host h rest _ eq => exact hs.of_hold hr host eq

/-- A rejected fetch stops within the bytes it was given (R93, R101, R142). -/
theorem rejectFetch {why : Reject} (hs : s.Sound) (hp : s.pc.toNat < memSize)
    (hd : decode s.fetchBytes = .reject why) : (s.rejectFetch why).Sound := by
  have hfit := within_decode s.fetchBytes
  rw [hd, s.length_fetchBytes] at hfit
  cases why with
  | unknownOpcode op => exact (hs.advance hp).raiseFault .unknownOpcode
  | truncated consumed =>
    have hlen : consumed ≤ memSize - s.pc.toNat := hfit
    exact (hs.advance (by omega)).raiseFault .decodeRange
  | unterminated str =>
    have hlen : 1 + str.length ≤ memSize - s.pc.toNat := hfit
    have hadvance := hs.advance (n := 1 + str.length) (by omega)
    exact (hadvance.putchars str).raiseFault .decodeRange

end State.Sound

/-! ### The host's moves -/

theorem State.inv_load {s t : State} {blob : List Byte} (h : s.load blob = .ok t) :
    t.inv = true := by
  unfold State.load at h
  split_ifs at h with hr hlen
  cases h
  have hram : (Memory.ofBytes 0 blob).wf = true := Memory.wf_ofBytes (Nat.le_of_not_lt hlen)
  have hodd : (255#16).toNat % 2 = 1 := by decide
  exact (State.inv_iff _).2 ⟨⟨hram, Nat.le_refl 255, hodd, .inl rfl, Nat.zero_le _, fun _ => rfl,
    fun _ => rfl, rfl⟩, fun _ _ => Nat.zero_lt_succ _⟩

theorem applyDevice_cursorVisible (config : Config) (raises : Bool) (op : DeviceOp)
    (sur : Surface) :
    (applyDevice config raises op sur).cursorVisible = sur.cursorVisible := by
  cases op with
  | putchar b => exact (sur.putchar_frame b).2.2.2.1
  | clearText => rfl
  | setColor idx => rfl
  | setCursor x y => rfl
  | setPixel x y v => exact sur.visible_setPixel x y v
  | clearPixels => rfl
  | drawLine x1 y1 x2 y2 => exact sur.visible_plotAll _
  | drawRect a b c d => exact sur.visible_drawRect config a b c d
  | fillRect a b c d => exact sur.visible_fillRect config a b c d
  | drawCircle cx cy r => exact sur.visible_plotAll _

theorem inv_applyMove {s : State} (hs : s.inv = true) (m : HostMove) :
    (applyMove m s).inv = true := by
  cases m with
  | load blob =>
    simp only [applyMove]
    split
    · next t ht => exact State.inv_load ht
    · exact hs
    · exact hs
  | keyEvent k => exact hs
  | shutdown => exact hs
  | sleepDone => exact hs
  | beepDone => exact hs
  | clearDirty => exact hs
  | device op =>
    obtain ⟨hsound, hboundary⟩ := (State.inv_iff s).1 hs
    simp only [applyMove]
    split_ifs
    · exact hs
    · exact (State.inv_iff _).2 ⟨{ hsound with
        visible := (applyDevice_cursorVisible _ _ op s.surface).trans hsound.visible }, hboundary⟩

theorem inv_applyTurns (turns : List Turn) {s : State} (hs : s.inv = true) :
    (applyTurns turns s).inv = true := by
  induction turns generalizing s with
  | nil => exact hs
  | cons turn rest ih =>
    cases turn with
    | core => exact hs
    | host m => exact ih (inv_applyMove hs m)

theorem State.inv_hostTurns {s : State} (hs : s.inv = true) : s.hostTurns.inv = true := by
  unfold State.hostTurns
  split_ifs
  · exact hs
  · exact inv_applyTurns s.schedule hs

/-- The loop test after a meaning whose answer is sound. -/
theorem inv_of_finish {r : Result} {t : State} (ht : finish r = .next t)
    (h : ∀ u, r = .next u → u.Sound) : t.inv = true := by
  obtain ⟨u, hu, rfl⟩ := finish_eq_next ht
  exact (h u hu).inv_loopTest

/-- Settles O13: the host's turns keep the invariant; then the fetch, and the meaning or the hold, keep
it but for the bound on `pc`, which the loop test or a stop restores. -/
theorem stepKeepsTheInvariant : Obligations.StepKeepsTheInvariant := by
  intro s t hs ht
  have hinv := State.inv_hostTurns hs
  generalize hu : s.hostTurns = u at hinv
  obtain ⟨hsound, -⟩ := (State.inv_iff u).1 hinv
  obtain ⟨-, he⟩ | ⟨h, hr, -, he⟩ | ⟨-, -, -, he⟩ | ⟨i, rest, hr, -, hp, hd, he⟩ |
    ⟨why, -, -, hp, hd, he⟩ := step_cases hu <;> rw [he] at ht
  · cases ht
    exact hinv
  · refine inv_of_finish ht fun v hv => ?_
    cases hv
    exact hsound.suspend hr h
  · cases ht
    exact (hsound.stop .pcEnd).inv_of_stopped rfl
  · refine inv_of_finish ht fun v hv => ?_
    have hfetched := hsound.advance (State.add_instrLength_le hp hd)
    exact hfetched.effect hr (exec_effect hr hv)
  · cases ht
    have hstopped : (u.rejectFetch why).running = false := by cases why <;> rfl
    exact (hsound.rejectFetch hp hd).inv_of_stopped hstopped

end Sys2Proof.Machine
end

section
/-! PROOF. Register indexes: a bad one leaves the ALU without effect (R240), and no instruction changes a
register or a piece of control state it does not name (R24, R26, R29, R31). -/

namespace Sys2Proof.Machine

/-- Settles O47: each of the instructions is one of the two ALU frames, and a frame with a bad index
among its operands changes nothing. -/
theorem aluIgnoresBadRegisters : Obligations.AluIgnoresBadRegisters := by
  intro s d s1 s2
  refine ⟨fun hbad i hi => ?_, fun hbad i hi => ?_⟩
  · have hframe (f : Word → Word → Option Word) :
        Host.Outcome.next (s.alu3 d s1 s2 f) = (.next s : Result) :=
      congrArg _ (State.alu3_of_bad hbad)
    simp only [List.mem_cons, List.not_mem_nil, or_false] at hi
    obtain rfl | rfl | rfl | rfl | rfl | rfl | rfl | rfl := hi <;> exact hframe _
  · have hnot : s.alu3 d s1 s1 (fun a _ => some (a ^^^ 0xFFFF#16)) = s :=
      State.alu3_of_bad (hbad.imp_right .inl)
    have hshift (op : ShiftOp) : s.aluShift op d s1 = s := State.aluShift_of_bad hbad
    simp only [List.mem_cons, List.not_mem_nil, or_false] at hi
    obtain rfl | rfl | rfl := hi
    · exact congrArg _ hnot
    · exact congrArg _ (hshift .shl)
    · exact congrArg _ (hshift .shr)

/-- Where a hold of a running machine leads, only READ_CHAR's own destination may differ (R291). -/
theorem reg_of_hold {s u t : State} {h : Suspension} {rest : List Turn} {r : Byte}
    (hu : s.HostOnly u) (hr : ∀ d seq0, h = .readChar d seq0 → r ≠ d)
    (ht : t = State.stop { u with schedule := rest } .shutdown ∧ u.shutdown = true ∨
      t = afterHold h (u.endHold rest) ∨ t = { u with hold := some h, schedule := [] }) :
    t.reg r = s.reg r := by
  have hreg : u.reg r = s.reg r := State.reg_congr hu.regs r
  obtain ⟨rfl, -⟩ | rfl | rfl := ht
  · exact hreg
  · cases h with
    | sleep ms => exact hreg
    | beep f d => exact hreg
    | readChar d seq0 =>
      have hne : r ≠ d := hr d seq0 rfl
      exact (State.reg_setReg _ d r _).trans ((if_neg fun h => hne h.1).trans hreg)
  · exact hreg

/-- Settles O57: of all effects an instruction can have, only register writes, a pop and a lifted hold
reach the registers, and those write what `destRegs` names. -/
theorem onlyDestinationRegistersChange : Obligations.OnlyDestinationRegistersChange := by
  intro i s t r hr h hnot
  cases exec_effect hr h with
  | registers _ others => exact others r hnot
  | surface _ frame => rw [frame]; rfl
  | compare _ frame => rw [frame]; rfl
  | halts eq => rw [eq]; rfl
  | faults eq => rw [eq]; rfl
  | stores _ _ _ _ frame => rw [frame]; rfl
  | pushes v _ _ _ eq => obtain rfl | ⟨-, a, rfl⟩ := eq <;> rfl
  | pops _ _ eq =>
    obtain ⟨d, hd, rfl⟩ | ⟨-, rfl⟩ := eq
    · have hne : r ≠ d := fun h => hnot (h ▸ hd)
      exact (State.reg_setReg _ d r _).trans (if_neg fun h => hne h.1)
    · rfl
  | jumps _ a eq => rw [eq]; rfl
  | suspends _ u host h rest names eq =>
    exact reg_of_hold host (fun d seq0 hd hrd => hnot (hrd ▸ names d seq0 hd)) eq

/-- From `s` to `t`, `i` writes `flags`, `sp` and `pc` only where it is an instruction that names them
(R26, R29, R31). -/
structure OnlyNamedControl (i : Instr) (s t : State) : Prop where
  flags : (∀ s1 s2, i ≠ .cmp s1 s2) → t.flags = s.flags
  sp : movesStack i = false → t.sp = s.sp
  pc : isTransfer i = false → t.pc = s.pc

theorem OnlyNamedControl.of_eq {i : Instr} {s t : State} (hflags : t.flags = s.flags)
    (hsp : t.sp = s.sp) (hpc : t.pc = s.pc) : OnlyNamedControl i s t :=
  ⟨fun _ => hflags, fun _ => hsp, fun _ => hpc⟩

/-- A hold writes no control state, whichever way it goes on (R330, R333). -/
theorem OnlyNamedControl.of_hold {i : Instr} {s u t : State} {h : Suspension} {rest : List Turn}
    (hu : s.HostOnly u)
    (ht : t = State.stop { u with schedule := rest } .shutdown ∧ u.shutdown = true ∨
      t = afterHold h (u.endHold rest) ∨ t = { u with hold := some h, schedule := [] }) :
    OnlyNamedControl i s t := by
  obtain ⟨rfl, -⟩ | rfl | rfl := ht
  · exact .of_eq hu.flags hu.sp hu.pc
  · cases h <;> exact .of_eq hu.flags hu.sp hu.pc
  · exact .of_eq hu.flags hu.sp hu.pc

/-- Everything an instruction can do to the control state: nothing, CMP's flags, a stack
instruction's move of `sp`, or a transfer's jump, which CALL and RET make with such a move. -/
theorem Effect.onlyNamedControl {i : Instr} {s t : State} (h : Effect i s t) :
    OnlyNamedControl i s t := by
  cases h with
  | registers frame => rw [frame]; exact .of_eq rfl rfl rfl
  | surface _ frame => rw [frame]; exact .of_eq rfl rfl rfl
  | compare names frame =>
    obtain ⟨s1, s2, hi⟩ := names
    rw [frame]
    exact ⟨fun hn => absurd hi (hn s1 s2), fun _ => rfl, fun _ => rfl⟩
  | halts eq => rw [eq]; exact .of_eq rfl rfl rfl
  | faults eq => rw [eq]; exact .of_eq rfl rfl rfl
  | stores _ _ _ _ frame => rw [frame]; exact .of_eq rfl rfl rfl
  | pushes v moves _ _ eq =>
    refine ⟨fun _ => ?_, fun hn => by simp [hn] at moves, fun hn => ?_⟩
    · obtain rfl | ⟨-, a, rfl⟩ := eq <;> rfl
    · obtain rfl | ⟨htransfer, -⟩ := eq
      · rfl
      · simp [hn] at htransfer
  | pops moves _ eq =>
    refine ⟨fun _ => ?_, fun hn => by simp [hn] at moves, fun hn => ?_⟩
    · obtain ⟨r, -, rfl⟩ | ⟨-, rfl⟩ := eq <;> rfl
    · obtain ⟨r, -, rfl⟩ | ⟨htransfer, -⟩ := eq
      · rfl
      · simp [hn] at htransfer
  | jumps transfer a eq =>
    rw [eq]
    exact ⟨fun _ => rfl, fun _ => rfl, fun hn => by simp [hn] at transfer⟩
  | suspends _ u host h rest _ eq => exact .of_hold host eq

/-- Settles O59: each clause holds of every kind of effect, and every effect keeps the parameters. -/
theorem onlyNamedControlStateChanges : Obligations.OnlyNamedControlStateChanges := by
  intro i s t hr h
  have heffect := exec_effect hr h
  obtain ⟨hflags, hsp, hpc⟩ := heffect.onlyNamedControl
  exact ⟨hflags, hsp, hpc, heffect.keepsHostOwned.config⟩

end Sys2Proof.Machine
end

section
/-! PROOF. The ends of a run: a machine that is not running stays as it is (R32, R327), and the loop test
ends a run at `pc = 0x10000` alone (R27). -/

namespace Sys2Proof.Machine

/-- What no host move but a load changes: the machine state of R46 that a run works on. -/
structure State.SameMachine (s t : State) : Prop where
  running : t.running = s.running
  stopReason : t.stopReason = s.stopReason
  ram : t.ram = s.ram
  regs : t.regs = s.regs
  pc : t.pc = s.pc
  sp : t.sp = s.sp
  flags : t.flags = s.flags

theorem State.SameMachine.trans {a b c : State} (h : a.SameMachine b) (g : b.SameMachine c) :
    a.SameMachine c where
  running := g.running.trans h.running
  stopReason := g.stopReason.trans h.stopReason
  ram := g.ram.trans h.ram
  regs := g.regs.trans h.regs
  pc := g.pc.trans h.pc
  sp := g.sp.trans h.sp
  flags := g.flags.trans h.flags

theorem applyMove_sameMachine {m : HostMove} (hm : ∀ blob, m ≠ .load blob) (s : State) :
    s.SameMachine (applyMove m s) := by
  cases m with
  | load blob => exact absurd rfl (hm blob)
  | keyEvent k => exact ⟨rfl, rfl, rfl, rfl, rfl, rfl, rfl⟩
  | shutdown => exact ⟨rfl, rfl, rfl, rfl, rfl, rfl, rfl⟩
  | sleepDone => exact ⟨rfl, rfl, rfl, rfl, rfl, rfl, rfl⟩
  | beepDone => exact ⟨rfl, rfl, rfl, rfl, rfl, rfl, rfl⟩
  | clearDirty => exact ⟨rfl, rfl, rfl, rfl, rfl, rfl, rfl⟩
  | device op =>
    simp only [applyMove]
    split_ifs <;> exact ⟨rfl, rfl, rfl, rfl, rfl, rfl, rfl⟩

theorem applyTurns_sameMachine {turns : List Turn} (hload : ∀ blob, .host (.load blob) ∉ turns)
    (s : State) : s.SameMachine (applyTurns turns s) := by
  induction turns generalizing s with
  | nil => exact ⟨rfl, rfl, rfl, rfl, rfl, rfl, rfl⟩
  | cons turn rest ih =>
    cases turn with
    | core => exact ⟨rfl, rfl, rfl, rfl, rfl, rfl, rfl⟩
    | host m =>
      have hm (blob : List Byte) : m ≠ .load blob := by
        rintro rfl
        exact hload blob List.mem_cons_self
      have hrest (blob : List Byte) : .host (.load blob) ∉ rest :=
        fun h => hload blob (List.mem_cons_of_mem _ h)
      exact (applyMove_sameMachine hm s).trans (ih hrest (applyMove m s))

theorem State.hostTurns_stopped {s : State} (hr : s.running = false) :
    s.hostTurns = applyTurns s.schedule s := by
  simp [State.hostTurns, hr]

/-- A machine that holds meets the host's moves in its hold. -/
theorem State.hostTurns_holding {s : State} {h : Suspension} (hr : s.running = true)
    (hh : s.hold = some h) : s.hostTurns = s := by
  simp [State.hostTurns, hr, hh]

/-- The CORE does nothing on the turn of a machine that is not running (R32). -/
theorem step_stopped {s : State} (hr : s.hostTurns.running = false) : step s = .next s.hostTurns := by
  simp [step, State.cycle, hr]

theorem step_holding {s : State} {h : Suspension} (hr : s.running = true) (hh : s.hold = some h) :
    step s = .next (s.suspend h).loopTest := by
  simp [step, State.hostTurns_holding hr hh, State.cycle, hr, hh, finish]

theorem step_atBoundary {s : State} {i : Instr} {rest : List Byte} (hs : atBoundary s)
    (hd : decode s.fetchBytes = .instr i rest) :
    step s = finish (exec i (s.advance (instrLength i))) := by
  obtain ⟨hr, hh, hsched, hp⟩ := hs
  simp [step, State.hostTurns_nil hsched, State.cycle, hr, hh, hp.not_ge, hd]

/-- Settles O9: without a load, no host move touches the machine, so the CORE's turn finds it stopped. -/
theorem stoppedMachineExecutesNothing : Obligations.StoppedMachineExecutesNothing := by
  intro s hr hload
  have hsame : s.SameMachine s.hostTurns := by
    rw [State.hostTurns_stopped hr]
    exact applyTurns_sameMachine hload s
  have hstopped : s.hostTurns.running = false := hsame.running.trans hr
  exact ⟨s.hostTurns, step_stopped hstopped, hstopped, hsame.stopReason, hsame.ram, hsame.regs,
    hsame.pc, hsame.sp, hsame.flags⟩

/-- A stop of a machine that holds at nothing writes the run state alone. -/
theorem State.stop_of_hold_none {s : State} (hh : s.hold = none) (why : StopReason) :
    s.stop why = { s with running := false, stopReason := why } := by
  rw [State.stop, hh]

/-- R27's two answers, for an instruction that has completed. -/
theorem State.loopTest_of_completed {s : State} (hr : s.running = true) (hh : s.hold = none) :
    (s.pc = 0x10000#17 → s.loopTest = { s with running := false, stopReason := .pcEnd }) ∧
    (s.pc.toNat < memSize → s.loopTest = s) := by
  obtain ⟨-, -, hend, h⟩ | ⟨hbelow, h⟩ := s.loopTest_cases <;> rw [h]
  · exact ⟨fun _ => s.stop_of_hold_none hh .pcEnd, fun hp => absurd hp (Nat.not_lt.2 hend)⟩
  · have hp : s.pc.toNat < memSize := hbelow hr hh
    refine ⟨fun hend => ?_, fun _ => rfl⟩
    rw [hend] at hp
    exact absurd hp (by decide)

/-- Settles O8: an instruction run at once and one whose hold is lifted both end in the loop test. -/
theorem pcEndAfterTheLastByte : Obligations.PcEndAfterTheLastByte := by
  constructor
  · intro s i rest t hs hd hexec hr hh
    obtain ⟨hend, hbelow⟩ := State.loopTest_of_completed hr hh
    rw [step_atBoundary hs hd, hexec]
    exact ⟨fun h => congrArg _ (hend h), fun h => congrArg _ (hbelow h)⟩
  · intro s h hrunning hhold hr hh
    obtain ⟨hend, hbelow⟩ := State.loopTest_of_completed hr hh
    rw [step_holding hrunning hhold]
    exact ⟨fun h => congrArg _ (hend h), fun h => congrArg _ (hbelow h)⟩

end Sys2Proof.Machine
end

section
/-! PROOF. The memory instructions: one rule each for a 16-bit store and a 16-bit load, inside `ram` and
past its end (R62 to R65, R226, R300 to R303, R321, R325). -/

namespace Sys2Proof.Machine

/-! ### The two bytes of a word (R62) -/

theorem toNat_loByte (v : Word) : (loByte v).toNat = v.toNat % 256 :=
  BitVec.toNat_setWidth 8 v

theorem toNat_hiByte (v : Word) : (hiByte v).toNat = v.toNat / 256 := by
  have hv : v.toNat < 65536 := v.isLt
  rw [hiByte, BitVec.toNat_setWidth, BitVec.toNat_ushiftRight, Nat.shiftRight_eq_div_pow]
  omega

theorem toNat_wordOf (lo hi : Byte) : (wordOf lo hi).toNat = lo.toNat + 256 * hi.toNat := by
  have hlo := toNat_loByte (wordOf lo hi)
  have hhi := toNat_hiByte (wordOf lo hi)
  rw [loByte_wordOf] at hlo
  rw [hiByte_wordOf] at hhi
  omega

/-! ### The 16-bit store -/

/-- The state after a 16-bit store that has room (R65). -/
def State.stored (s : State) (addr v : Word) : State :=
  { s with ram := (s.ram.write addr.toNat (loByte v)).write (addr.toNat + 1) (hiByte v) }

/-- STORE_REG and STORE_MEM are the same store, named in two orders (R226, R302). -/
theorem exec_store {i : Instr} {r : Byte} {addr : Word}
    (hi : i = .storeReg r addr ∨ i = .storeMem addr r) (s : State) :
    exec i s = s.storeWord addr r := by
  obtain rfl | rfl := hi <;> rfl

theorem State.storeWord_room {s : State} {r : Byte} {addr v : Word} (hv : s.reg r = some v)
    (ha : addr.toNat ≤ 0xFFFE) : s.storeWord addr r = .next (s.stored addr v) := by
  have hroom : addr.toNat + 2 ≤ memSize := Nat.add_le_add_right ha 2
  simp only [State.storeWord, hv, State.memWrite_two, if_pos hroom, State.stored]

theorem State.storeWord_top {s : State} {r : Byte} (hr : r.toNat < 8) :
    s.storeWord 0xFFFF#16 r = .next (s.raiseFault .dataRange) := by
  obtain ⟨v, hv⟩ := s.exists_reg hr
  have hpast : ¬ (0xFFFF#16).toNat + 2 ≤ memSize := by decide
  simp only [State.storeWord, hv, State.memWrite_two, if_neg hpast]

theorem State.read_stored {s : State} {addr v : Word} {a : Nat} (hm : s.ram.wf = true)
    (ha : addr.toNat ≤ 0xFFFE) :
    (s.stored addr v).ram.read a =
      if a = addr.toNat + 1 then hiByte v else if a = addr.toNat then loByte v else s.ram.read a :=
  Memory.read_write_two hm (Nat.add_le_add_right ha 2)

/-! ### The 16-bit load -/

/-- The little-endian word at an address (R62, R64). -/
def State.wordAt (s : State) (addr : Word) : Word :=
  wordOf (s.ram.read addr.toNat) (s.ram.read (addr.toNat + 1))

theorem State.wordAt_stored {s : State} {addr : Word} (v : Word) (hm : s.ram.wf = true)
    (ha : addr.toNat ≤ 0xFFFE) : (s.stored addr v).wordAt addr = v := by
  rw [State.wordAt, State.read_stored hm ha, State.read_stored hm ha, if_neg (by omega), if_pos rfl,
    if_pos rfl, wordOf_lo_hi]

theorem exec_loadMem_room {addr : Word} (s : State) (r : Byte) (ha : addr.toNat ≤ 0xFFFE) :
    exec (.loadMem r addr) s = .next (s.setReg r (s.wordAt addr)) := by
  have hroom : addr.toNat + 2 ≤ memSize := Nat.add_le_add_right ha 2
  have hcase : ¬ (8 ≤ r.toNat ∧ addr = 0xFFFF#16) := by
    rintro ⟨-, rfl⟩
    exact absurd ha (by decide)
  simp only [exec, execLoadMem, if_neg hcase, State.memRead_two, if_pos hroom, State.wordAt]

theorem exec_loadMem_top {r : Byte} (hr : r.toNat < 8) (s : State) :
    exec (.loadMem r 0xFFFF#16) s = .next (s.raiseFault .dataRange) := by
  have hpast : ¬ (0xFFFF#16).toNat + 2 ≤ memSize := by decide
  simp only [exec, execLoadMem, hr.not_ge, false_and, if_false, State.memRead_two, if_neg hpast]

/-- Reading back what a store with room wrote, into a good register (R62, R63). -/
theorem exec_loadMem_stored {s : State} {r : Byte} {addr : Word} (v : Word) (hm : s.ram.wf = true)
    (hr : r.toNat < 8) (ha : addr.toNat ≤ 0xFFFE) :
    ∃ u, exec (.loadMem r addr) (s.stored addr v) = .next u ∧ u.reg r = some v := by
  refine ⟨_, exec_loadMem_room _ r ha, ?_⟩
  rw [State.reg_setReg, if_pos ⟨rfl, hr⟩, State.wordAt_stored v hm ha]

/-! ### The copy -/

theorem exec_copyMem_past {src dst len : Word}
    (h : memSize < src.toNat + len.toNat ∨ memSize < dst.toNat + len.toNat) (s : State) :
    exec (.copyMem src dst len) s = .next (s.raiseFault .dataRange) := by
  have hpast : ¬ (inBounds src len.toNat && inBounds dst len.toNat) = true := by
    rw [Bool.and_eq_true, inBounds_iff, inBounds_iff]
    omega
  simp only [exec, execCopyMem, if_neg hpast]

/-! ### The statements -/

/-- Settles O37: both instructions make one store, whose two bytes and frame are `State.read_stored`. -/
theorem storesWriteTwoBytes : Obligations.StoresWriteTwoBytes := by
  intro s r addr v i hm hv ha hi
  refine ⟨s.stored addr v, (exec_store hi s).trans (State.storeWord_room hv ha), rfl, ?_, ?_,
    fun a h0 h1 => ?_⟩
  · rw [State.read_stored hm ha, if_neg (by omega), if_pos rfl, toNat_loByte]
  · rw [State.read_stored hm ha, if_pos rfl, toNat_hiByte]
  · rw [State.read_stored hm ha, if_neg h1, if_neg h0]

/-- Settles O38: each of the four accesses answers the fault entry of R325, which is this state. -/
theorem dataRangeFaultHasNoOtherEffect : Obligations.DataRangeFaultHasNoOtherEffect := by
  rintro s i (⟨r, hr, rfl | hstore | hstore⟩ | ⟨src, dst, len, rfl, hpast⟩)
  · exact exec_loadMem_top hr s
  · exact (exec_store (.inr hstore) s).trans (State.storeWord_top hr)
  · exact (exec_store (.inl hstore) s).trans (State.storeWord_top hr)
  · exact exec_copyMem_past hpast s

/-- Settles O54: a load with room is one register write of the word at the address. -/
theorem loadMemReadsTwoBytes : Obligations.LoadMemReadsTwoBytes := by
  intro s r addr hr ha
  refine ⟨_, s.wordAt addr, exec_loadMem_room s r ha, rfl, ?_, toNat_wordOf _ _, fun r' hne => ?_⟩
  · rw [State.reg_setReg, if_pos ⟨rfl, hr⟩]
  · rw [State.reg_setReg, if_neg fun h => hne h.1]

/-- Settles O56: both stores lead to `State.stored`, and a load there reads the stored word back. -/
theorem storeThenLoadReturnsTheRegister : Obligations.StoreThenLoadReturnsTheRegister := by
  intro s r r' addr v hm hv hr' ha
  have hstore : s.storeWord addr r = .next (s.stored addr v) := State.storeWord_room hv ha
  obtain ⟨u, hload, hu⟩ := exec_loadMem_stored v hm hr' ha
  exact ⟨⟨_, u, (exec_store (.inr rfl) s).trans hstore, hload, hu⟩,
    ⟨_, u, (exec_store (.inl rfl) s).trans hstore, hload, hu⟩⟩

end Sys2Proof.Machine
end

section
/-! PROOF. The frames of memory and of the devices: an instruction changes no byte of `ram` outside those
it stores to (R61), and only device instructions, suspension points and the ends of a run reach the
surface and what the host owns (R60, R330, R336). -/

namespace Sys2Proof.Machine

theorem State.read_pushed_outside {s : State} {v : Word} {a : Nat} (hm : s.ram.wf = true)
    (h1 : 2 ≤ s.sp.toNat) (h2 : s.sp.toNat ≤ 255)
    (ha : a < stackAddr (s.sp - 1#16) ∨ stackAddr (s.sp - 1#16) + 2 ≤ a) :
    (s.pushed v).ram.read a = s.ram.read a := by
  have hpred := stackAddr_pred h1
  rw [State.read_pushed hm h2, if_neg (by omega), if_neg (by omega)]

/-- No hold writes `ram`, whichever way it goes on (R330, R333). -/
theorem ram_of_hold {s u t : State} {h : Suspension} {rest : List Turn} (hu : s.HostOnly u)
    (ht : t = State.stop { u with schedule := rest } .shutdown ∧ u.shutdown = true ∨
      t = afterHold h (u.endHold rest) ∨ t = { u with hold := some h, schedule := [] }) :
    t.ram = s.ram := by
  obtain ⟨rfl, -⟩ | rfl | rfl := ht
  · exact hu.ram
  · cases h <;> exact hu.ram
  · exact hu.ram

/-- Settles O58: of all effects an instruction can have, only a store, a copy and a push reach `ram`, and
those write what `storedBytes` names. -/
theorem onlyStoredBytesChange : Obligations.OnlyStoredBytesChange := by
  intro i s t a hr hm h hout
  cases exec_effect hr h with
  | registers frame => rw [frame]
  | surface _ frame => rw [frame]
  | compare _ frame => rw [frame]
  | halts eq => rw [eq]; rfl
  | faults eq => rw [eq]; rfl
  | stores start count names _ _ _ outside => exact outside hm a (hout start count names)
  | pushes v _ room names eq =>
    have hkept : (s.pushed v).ram.read a = s.ram.read a :=
      State.read_pushed_outside hm room.1 room.2 (hout _ _ names)
    obtain rfl | ⟨-, _, rfl⟩ := eq <;> exact hkept
  | pops _ _ eq => obtain ⟨r, -, rfl⟩ | ⟨-, rfl⟩ := eq <;> rfl
  | jumps _ _ eq => rw [eq]; rfl
  | suspends _ u host h rest _ eq => rw [ram_of_hold host eq]

/-- From `s` to `t` neither the surface, nor what the host writes, nor how the run stands has changed. -/
structure State.SameDevices (s t : State) : Prop where
  surface : t.surface = s.surface
  keySlot : t.keySlot = s.keySlot
  keySeq : t.keySeq = s.keySeq
  shutdown : t.shutdown = s.shutdown
  schedule : t.schedule = s.schedule
  hold : t.hold = s.hold
  stopReason : t.stopReason = s.stopReason

/-- Writes to the machine elements of the CORE alone reach no device (R60). -/
theorem State.SameDevices.of_coreWrites (s : State) (ram : Memory) (regs : Vector Word 8)
    (pc : BitVec 17) (sp : Word) (flags : Byte) (draws : Nat) :
    s.SameDevices
      { s with ram := ram, regs := regs, pc := pc, sp := sp, flags := flags, draws := draws } :=
  ⟨rfl, rfl, rfl, rfl, rfl, rfl, rfl⟩

/-- The effects that reach the devices are a device operation, a hold, and the two ends of a run. -/
theorem Effect.sameDevices {i : Instr} {s t : State} (h : Effect i s t) (hrun : t.running = true)
    (hdrives : drivesSurface i = false) (hpoint : isSuspension i = false) : s.SameDevices t := by
  cases h with
  | registers frame => rw [frame]; exact .of_coreWrites ..
  | surface drives => simp [hdrives] at drives
  | compare _ frame => rw [frame]; exact .of_coreWrites ..
  | halts eq => simp [eq] at hrun
  | faults eq => simp [eq] at hrun
  | stores _ _ _ _ frame => rw [frame]; exact .of_coreWrites ..
  | pushes v _ _ _ eq =>
    obtain rfl | ⟨-, _, rfl⟩ := eq <;> exact .of_coreWrites ..
  | pops _ _ eq =>
    obtain ⟨r, -, rfl⟩ | ⟨-, rfl⟩ := eq <;> exact .of_coreWrites ..
  | jumps _ _ eq => rw [eq]; exact .of_coreWrites ..
  | suspends point => simp [hpoint] at point

/-- Settles O60: an instruction that is neither a device operation nor a suspension point and does not
stop the run has only effects that leave the devices alone. -/
theorem onlyDeviceInstrsTouchTheSurface : Obligations.OnlyDeviceInstrsTouchTheSurface := by
  intro i s t hr h hrun hdrives hpoint
  obtain ⟨hsurface, hkeySlot, hkeySeq, hshutdown, hschedule, hhold, hstopReason⟩ :=
    (exec_effect hr h).sameDevices hrun hdrives hpoint
  exact ⟨hsurface, hkeySlot, hkeySeq, hshutdown, hschedule, hhold, hstopReason⟩

end Sys2Proof.Machine
end

section
/-! PROOF. The decoder and the encoder agree (R90, R91, R99, R100): every encoding is read back, bytes
that are read are an encoding, and an encoding that is cut short is rejected at the field the cut falls
in (R93, R94). The formats of R99 are sequences of byte fields and word fields, so each direction is one
argument per kind of field. -/

namespace Sys2Proof

/-! ### Reading an instruction field by field -/

/-- Started after `c` bytes, the reader `f` takes the operand bytes `ops` as the fields of `i`, which
start at the offsets `starts`, left to right (R98). -/
inductive Reads (i : Instr) : Nat → List Nat → List Byte → (List Byte → Decoded) → Prop
  | done {c : Nat} : Reads i c [] [] (.instr i)
  | byte {c : Nat} {starts : List Nat} {ops : List Byte} {k : Byte → List Byte → Decoded} (b : Byte)
      (next : Reads i (c + 1) starts ops (k b)) :
      Reads i c (c :: starts) (b :: ops) fun bs => fetchB c bs k
  | word {c : Nat} {starts : List Nat} {ops : List Byte} {k : Word → List Byte → Decoded} (w : Word)
      (next : Reads i (c + 2) starts ops (k w)) :
      Reads i c (c :: starts) (loByte w :: hiByte w :: ops) fun bs => fetchW c bs k

/-- `n` is the last of the offsets `starts` that is at most `k`. -/
structure LastStart (starts : List Nat) (k n : Nat) : Prop where
  mem : n ∈ starts
  le : n ≤ k
  last : ∀ m ∈ starts, m ≤ k → m ≤ n

theorem LastStart.head {starts : List Nat} {c k : Nat} (hc : c ≤ k) (hk : ∀ m ∈ starts, k < m) :
    LastStart (c :: starts) k c where
  mem := List.mem_cons_self
  le := hc
  last m hm hmk := by
    obtain rfl | hm := List.mem_cons.mp hm
    · exact Nat.le_refl m
    · exact absurd hmk (hk m hm).not_ge

theorem LastStart.cons {starts : List Nat} {c k n : Nat} (h : LastStart starts k n) (hc : c ≤ n) :
    LastStart (c :: starts) k n where
  mem := List.mem_cons_of_mem c h.mem
  le := h.le
  last m hm hmk := by
    obtain rfl | hm := List.mem_cons.mp hm
    · exact hc
    · exact h.last m hm hmk

section
variable {i : Instr} {c : Nat} {starts : List Nat} {ops : List Byte} {f : List Byte → Decoded}

theorem fetchW_loByte_hiByte (w : Word) (rest : List Byte) (k : Word → List Byte → Decoded) :
    fetchW c (loByte w :: hiByte w :: rest) k = k w rest := by
  rw [fetchW_cons_cons, Machine.wordOf_lo_hi]

/-- With all its operand bytes there, the instruction is read, and what follows is left over. -/
theorem Reads.instr (h : Reads i c starts ops f) (rest : List Byte) :
    f (ops ++ rest) = .instr i rest := by
  induction h with
  | done => rfl
  | byte b _ ih => exact ih
  | word w _ ih => exact (fetchW_loByte_hiByte w _ _).trans ih

/-- No field starts before the reader does. -/
theorem Reads.le_of_mem (h : Reads i c starts ops f) : ∀ m ∈ starts, c ≤ m := by
  induction h with
  | done => simp
  | byte _ _ ih | word _ _ ih =>
    exact List.forall_mem_cons.mpr ⟨Nat.le_refl _, fun m hm => (Nat.le_add_right ..).trans (ih m hm)⟩

/-- With only the first `k` operand bytes there, the reader stops at the last field that starts within
them: a field is fetched whole or not at all (R93, R94). -/
theorem Reads.truncated (h : Reads i c starts ops f) {k : Nat} (hk : k < ops.length) :
    ∃ n, LastStart starts (c + k) n ∧ f (ops.take k) = .reject (.truncated n) := by
  induction h generalizing k with
  | done => cases hk
  | @byte c _ _ _ _ next ih =>
    match k with
    | 0 => exact ⟨c, .head (Nat.le_refl c) next.le_of_mem, rfl⟩
    | k + 1 =>
      obtain ⟨n, hn, heq⟩ := ih (Nat.lt_of_succ_lt_succ hk)
      rw [Nat.add_assoc, Nat.add_comm 1] at hn
      exact ⟨n, hn.cons ((Nat.le_add_right ..).trans (next.le_of_mem n hn.mem)), heq⟩
  | @word c _ _ _ w next ih =>
    match k with
    | 0 => exact ⟨c, .head (Nat.le_refl c) fun m hm => Nat.lt_of_succ_lt (next.le_of_mem m hm), rfl⟩
    | 1 => exact ⟨c, .head (Nat.le_succ c) next.le_of_mem, rfl⟩
    | k + 2 =>
      obtain ⟨n, hn, heq⟩ := ih (Nat.lt_of_succ_lt_succ (Nat.lt_of_succ_lt_succ hk))
      rw [Nat.add_assoc, Nat.add_comm 2] at hn
      exact ⟨n, hn.cons ((Nat.le_add_right ..).trans (next.le_of_mem n hn.mem)),
        (fetchW_loByte_hiByte w _ _).trans heq⟩

end

/-- The opcode map, by instruction: the format `read` of an instruction's opcode takes the fields that
R99's byte layout gives the instruction. -/
theorem reads_operands {i : Instr} (hi : ∀ str, i ≠ .printStr str) :
    ∃ op ops read, encode i = op :: ops ∧ decodeOp op = read ∧ Reads i 1 (fieldStarts i) ops read := by
  cases i
  case printStr str => exact absurd rfl (hi str)
  case halt | clearScreen | clearPixels | ret => exact ⟨_, _, .instr _, rfl, rfl, .done⟩
  case printChar a | setColor a | getTime a | push a | pop a | readChar a =>
    exact ⟨_, _, fmtB _, rfl, rfl, .byte a .done⟩
  case getCursor a b | setCursor a b | not a b | shl a b | shr a b | cmp a b =>
    exact ⟨_, _, fmtBB _, rfl, rfl, .byte a (.byte b .done)⟩
  case add a b c | sub a b c | mul a b c | div a b c | mod a b c | and a b c | or a b c | xor a b c =>
    exact ⟨_, _, fmtBBB _, rfl, rfl, .byte a (.byte b (.byte c .done))⟩
  case sleepMs a | jmp a | jz a | jnz a | jg a | jl a | call a =>
    exact ⟨_, _, fmtW _, rfl, rfl, .word a .done⟩
  case beep a b => exact ⟨_, _, fmtWW _, rfl, rfl, .word a (.word b .done)⟩
  case drawCircle a b c | copyMem a b c =>
    exact ⟨_, _, fmtWWW _, rfl, rfl, .word a (.word b (.word c .done))⟩
  case drawLine a b c d | drawRect a b c d | fillRect a b c d =>
    exact ⟨_, _, fmtWWWW _, rfl, rfl, .word a (.word b (.word c (.word d .done)))⟩
  case random a b | loadReg a b | storeReg a b | loadMem a b =>
    exact ⟨_, _, fmtBW _, rfl, rfl, .byte a (.word b .done)⟩
  case storeMem a b => exact ⟨_, _, fmtWB _, rfl, rfl, .word a (.byte b .done)⟩
  case setPixel a b c => exact ⟨_, _, fmtWWB _, rfl, rfl, .word a (.word b (.byte c .done))⟩

/-! ### Decoding what was encoded -/

theorem decode_printStr {str : List Byte} (hs : (Instr.printStr str).wellFormed = true)
    (rest : List Byte) : decode (encode (.printStr str) ++ rest) = .instr (.printStr str) rest := by
  simp [encode, decode, decodeOp, fmtS, splitString_append str rest hs]

/-- Settles O1: a PRINT_STR ends at its terminator, any other instruction with its last field. -/
theorem decodeOfEncode : Obligations.DecodeOfEncode := by
  intro i rest hwf
  by_cases hi : ∃ str, i = .printStr str
  · obtain ⟨str, rfl⟩ := hi
    exact decode_printStr hwf rest
  · obtain ⟨op, ops, _, henc, rfl, hreads⟩ := reads_operands (not_exists.mp hi)
    rw [henc]
    exact hreads.instr rest

/-- Settles O3, by evaluation: every byte of the six words is given. -/
theorem writtenOutWordsDecode : Obligations.WrittenOutWordsDecode := by
  unfold Obligations.WrittenOutWordsDecode
  decide

/-! ### Encoding what was decoded -/

/-- The answer, if it is an instruction, accounts for every byte of `bs`: its encoding, then what is
left over. -/
def Decoded.Encodes (bs : List Byte) : Decoded → Prop
  | .instr i rest => i.wellFormed = true ∧ bs = encode i ++ rest
  | .reject _ => True

/-- A byte field, with the bytes `pre` read before it. -/
theorem encodes_fetchB {pre : List Byte} {c : Nat} {bs : List Byte} {k : Byte → List Byte → Decoded}
    (hk : ∀ b rest, (k b rest).Encodes ((pre ++ [b]) ++ rest)) :
    (fetchB c bs k).Encodes (pre ++ bs) := by
  obtain ⟨-, h⟩ | ⟨b, rest, rfl, h⟩ := fetchB_cases c bs k <;> rw [h]
  · trivial
  · rw [List.append_cons]
    exact hk b rest

/-- A word field, as `encodes_fetchB`. -/
theorem encodes_fetchW {pre : List Byte} {c : Nat} {bs : List Byte} {k : Word → List Byte → Decoded}
    (hk : ∀ w rest, (k w rest).Encodes ((pre ++ wordBytes w) ++ rest)) :
    (fetchW c bs k).Encodes (pre ++ bs) := by
  obtain ⟨-, h⟩ | ⟨lo, hi, rest, rfl, h⟩ := fetchW_cases c bs k <;> rw [h]
  · trivial
  · have hbytes : wordBytes (wordOf lo hi) = [lo, hi] := by
      rw [wordBytes, Machine.loByte_wordOf, Machine.hiByte_wordOf]
    have hrest := hk (wordOf lo hi) rest
    rwa [hbytes, List.append_assoc] at hrest

theorem encodes_printStr (bs : List Byte) : (fmtS .printStr bs).Encodes ([0x02#8] ++ bs) := by
  unfold fmtS
  split
  next str rest hs =>
    obtain ⟨rfl, hwf⟩ := splitString_eq_some hs
    exact ⟨hwf, by simp [encode]⟩
  next => trivial

/-- The opcode map, its rows in the order of R99 grouped by format: each format reads the fields that
the byte layout of the row's instruction holds. -/
theorem encodes_decodeOp (op : Byte) (bs : List Byte) : (decodeOp op bs).Encodes ([op] ++ bs) := by
  unfold decodeOp
  split
  case h_1 | h_4 | h_17 | h_40 => exact ⟨rfl, rfl⟩
  case h_2 | h_5 | h_14 | h_20 | h_21 | h_41 => exact encodes_fetchB fun _ _ => ⟨rfl, rfl⟩
  case h_6 | h_7 | h_30 | h_31 | h_32 | h_33 =>
    exact encodes_fetchB fun _ _ => encodes_fetchB fun _ _ => ⟨rfl, rfl⟩
  case h_22 | h_23 | h_24 | h_25 | h_26 | h_27 | h_28 | h_29 =>
    exact encodes_fetchB fun _ _ => encodes_fetchB fun _ _ => encodes_fetchB fun _ _ => ⟨rfl, rfl⟩
  case h_12 | h_34 | h_35 | h_36 | h_37 | h_38 | h_39 => exact encodes_fetchW fun _ _ => ⟨rfl, rfl⟩
  case h_13 => exact encodes_fetchW fun _ _ => encodes_fetchW fun _ _ => ⟨rfl, rfl⟩
  case h_11 | h_44 =>
    exact encodes_fetchW fun _ _ => encodes_fetchW fun _ _ => encodes_fetchW fun _ _ => ⟨rfl, rfl⟩
  case h_8 | h_9 | h_10 =>
    exact encodes_fetchW fun _ _ => encodes_fetchW fun _ _ => encodes_fetchW fun _ _ =>
      encodes_fetchW fun _ _ => ⟨rfl, rfl⟩
  case h_15 | h_18 | h_19 | h_42 =>
    exact encodes_fetchB fun _ _ => encodes_fetchW fun _ _ => ⟨rfl, rfl⟩
  case h_43 => exact encodes_fetchW fun _ _ => encodes_fetchB fun _ _ => ⟨rfl, rfl⟩
  case h_16 =>
    exact encodes_fetchW fun _ _ => encodes_fetchW fun _ _ => encodes_fetchB fun _ _ => ⟨rfl, rfl⟩
  case h_3 => exact encodes_printStr bs
  case h_45 => trivial

/-- R100, by the family of statements per instruction. -/
theorem length_encode (i : Instr) : (encode i).length = instrLength i := by
  cases i
  case printStr str => exact Laws.EncodeLength.printStr str
  all_goals rfl

/-- Settles O2: what the opcode's format reads is the encoding of the answer. -/
theorem decodedBytesAreTheEncoding : Obligations.DecodedBytesAreTheEncoding := by
  intro bs i rest hd
  cases bs with
  | nil => cases hd
  | cons op bs =>
    have henc := encodes_decodeOp op bs
    rw [show decodeOp op bs = .instr i rest from hd] at henc
    obtain ⟨hwf, hbytes⟩ := henc
    exact ⟨hwf, hbytes, length_encode i⟩

/-! ### Bytes that are no opcode -/

/-- None of the rows of the opcode map lies in a range of R101. -/
theorem decodeOp_unassigned {op : Byte} (h : unassignedOpcode op = true) (bs : List Byte) :
    decodeOp op bs = .reject (.unknownOpcode op) := by
  unfold decodeOp
  split
  case h_45 => rfl
  all_goals exact absurd h (by decide)

end Sys2Proof
end

section
/-! PROOF. The front half of a step (R104): the dispatch of what was decoded, and the faults of bytes that
are no instruction (R93, R94, R101, R325). -/

namespace Sys2Proof.Machine

/-- Settles O7: the three tests before the dispatch pass, so the CORE's turn is the dispatch of R104. -/
theorem stepRunsTheDecodedInstr : Obligations.StepRunsTheDecodedInstr := by
  refine ⟨fun s i rest hr hh hp hd => ?_, fun s => State.hostTurns_nil⟩
  simp [step, State.cycle, hr, hh, hp.not_ge, hd]

/-- Bytes that are no instruction end the step before any instruction runs. -/
theorem step_rejected {s : State} {why : Reject} (hs : atBoundary s)
    (hd : decode s.fetchBytes = .reject why) : step s = .next (s.rejectFetch why) := by
  obtain ⟨hr, hh, hsched, hp⟩ := hs
  simp [step, State.hostTurns_nil hsched, State.cycle, hr, hh, hp.not_ge, hd]

/-- Fault entry of a machine that holds at nothing: the run state and the diagnostic (R325). -/
theorem State.raiseFault_of_hold_none {s : State} (hh : s.hold = none) (k : FaultKind) :
    s.raiseFault k = { s with
      running := false, stopReason := faultReason k,
      surface := s.surface.putchars (diagBytes s.config k) } := by
  rw [State.raiseFault, State.stop_of_hold_none hh]

/-- Below 0x10000 there is an opcode to fetch (R95). -/
theorem State.fetchBytes_eq_cons {s : State} (hp : s.pc.toNat < memSize) :
    ∃ bs, s.fetchBytes = s.ram.read s.pc.toNat :: bs := by
  rw [State.fetchBytes, ← Nat.succ_pred_eq_of_pos (Nat.sub_pos_of_lt hp)]
  exact ⟨_, rfl⟩

/-- Settles O4: an unassigned opcode is rejected before any operand byte is read. -/
theorem unassignedOpcodesFault : Obligations.UnassignedOpcodesFault := by
  refine ⟨by rfl, fun s hs hop => ?_⟩
  have ⟨_, hhold, _, hp⟩ := hs
  obtain ⟨bs, hbs⟩ := State.fetchBytes_eq_cons hp
  have hd : decode s.fetchBytes = .reject (.unknownOpcode (s.ram.read s.pc.toNat)) := by
    rw [hbs]
    exact decodeOp_unassigned hop bs
  rw [step_rejected hs hd, State.rejectFetch,
    State.raiseFault_of_hold_none ((s.advance_hold 1).trans hhold)]
  rfl

/-- Settles O5: the opcode's format stops at the operand field the cut falls in. -/
theorem truncatedInstrFaultsAtItsField : Obligations.TruncatedInstrFaultsAtItsField := by
  intro s i k hs hi hpos hk hbytes
  obtain ⟨op, ops, _, henc, rfl, hreads⟩ := reads_operands hi
  obtain ⟨k, rfl⟩ : ∃ j, k = j + 1 := Nat.exists_eq_add_one.mpr hpos
  rw [henc] at hk hbytes
  obtain ⟨n, hn, hreject⟩ := hreads.truncated (Nat.lt_of_succ_lt_succ hk)
  have hd : decode s.fetchBytes = .reject (.truncated n) := by
    rw [hbytes]
    exact hreject
  rw [Nat.add_comm] at hn
  have ⟨_, hhold, _, _⟩ := hs
  refine ⟨n, hn.mem, hn.le, hn.last, ?_⟩
  rw [step_rejected hs hd, State.rejectFetch,
    State.raiseFault_of_hold_none ((s.advance_hold n).trans hhold)]
  rfl

end Sys2Proof.Machine
end

section
/-! PROOF. Two ends of a run at the fetch: HALT (R140), and a PRINT_STR with no terminator up to
0xFFFF (R142, R321, R325). -/

namespace Sys2Proof.Machine

/-- The loop test leaves a machine that has stopped: HALTED takes precedence over PC_END (R140). -/
@[simp] theorem State.loopTest_stop (s : State) (why : StopReason) :
    (s.stop why).loopTest = s.stop why := rfl

/-- Settles O15: the byte 0x00 decodes to HALT, whose stop the loop test keeps at any `pc`. -/
theorem haltStops : Obligations.HaltStops := by
  refine ⟨fun _ => rfl, fun s hs hop => ?_⟩
  have ⟨_, hhold, _, hp⟩ := hs
  obtain ⟨bs, hbs⟩ := State.fetchBytes_eq_cons hp
  have hd : decode s.fetchBytes = .instr .halt bs := by
    rw [hbs, hop]
    rfl
  calc step s = .next ((s.advance 1).stop .halted).loopTest := step_atBoundary hs hd
    _ = .next ((s.advance 1).stop .halted) := by rw [State.loopTest_stop]
    _ = _ := by
      rw [State.stop_of_hold_none ((s.advance_hold 1).trans hhold)]
      rfl

/-- With no 0x00 after it, the opcode of PRINT_STR takes every byte there is (R142). -/
theorem decode_unterminated {str : List Byte} (hstr : 0x00#8 ∉ str) :
    decode (0x02#8 :: str) = .reject (.unterminated str) := by
  simp [decode, decodeOp, fmtS, (splitString_eq_none_iff str).2 hstr]

/-- PRINT_STR's output without a terminator, then fault entry (R142, R325). -/
theorem State.printUnterminated_of_hold_none {s : State} (hh : s.hold = none) (str : List Byte) :
    s.printUnterminated str = { s with
      running := false, stopReason := .faultDecodeRange,
      surface := (s.surface.putchars str).putchars s.config.diagDecodeRange } :=
  State.raiseFault_of_hold_none (s := { s with surface := s.surface.putchars str }) hh .decodeRange

/-- All the bytes that can be fetched end at 0xFFFF. -/
theorem State.advance_fetchBytes_pc {s : State} (hp : s.pc.toNat < memSize) :
    (s.advance s.fetchBytes.length).pc = 0x10000#17 := by
  have hend : s.pc.toNat + s.fetchBytes.length = memSize := by
    rw [State.length_fetchBytes, Nat.add_sub_cancel' hp.le]
  apply BitVec.eq_of_toNat_eq
  rw [State.toNat_advance_pc hend.le, hend]
  rfl

/-- Settles O6: the decoder hands over every byte up to 0xFFFF, so the fault finds `pc` at 0x10000. -/
theorem unterminatedStringPrintsThenFaults : Obligations.UnterminatedStringPrintsThenFaults := by
  intro s str hs hbytes hstr
  have ⟨_, hhold, _, hp⟩ := hs
  have hd : decode s.fetchBytes = .reject (.unterminated str) := by
    rw [hbytes]
    exact decode_unterminated hstr
  have hpc : (s.advance (1 + str.length)).pc = 0x10000#17 := by
    rw [← State.advance_fetchBytes_pc hp, hbytes, List.length_cons, Nat.add_comm]
  rw [step_rejected hs hd, State.rejectFetch,
    State.printUnterminated_of_hold_none ((s.advance_hold _).trans hhold), hpc]
  rfl

end Sys2Proof.Machine
end

section
/-! PROOF. The text-plane instructions: what `Putchar` does byte kind by byte kind (R130 to R132), its runs
(R142), and the operations on the plane, the colour and the cursor (R133 to R136). -/

namespace Sys2Proof.Machine

/-! ### Text operations and the rest of the surface -/

/-- An operation that keeps the pixel plane, the colour and the modes is known by what it makes of the
cells, the cursor and `dirty`. -/
theorem Surface.eq_of_frame {sur sur' : Surface} (hpixels : sur'.pixels = sur.pixels)
    (hcolor : sur'.color = sur.color) (hmode : sur'.pixelMode = sur.pixelMode)
    (hvisible : sur'.cursorVisible = sur.cursorVisible) :
    sur' = { sur with
      cells := sur'.cells, cursorX := sur'.cursorX, cursorY := sur'.cursorY, dirty := sur'.dirty } := by
  rw [← hpixels, ← hcolor, ← hmode, ← hvisible]

theorem Surface.putchar_eq (sur : Surface) (b : Byte) :
    sur.putchar b = { sur with
      cells := (sur.putchar b).cells, cursorX := (sur.putchar b).cursorX,
      cursorY := (sur.putchar b).cursorY, dirty := true } := by
  obtain ⟨hpixels, hcolor, hmode, hvisible, hdirty⟩ := sur.putchar_frame b
  rw [← hdirty]
  exact Surface.eq_of_frame hpixels hcolor hmode hvisible

theorem Surface.putchars_eq (sur : Surface) (bytes : List Byte) :
    sur.putchars bytes = { sur with
      cells := (sur.putchars bytes).cells, cursorX := (sur.putchars bytes).cursorX,
      cursorY := (sur.putchars bytes).cursorY, dirty := (sur.putchars bytes).dirty } := by
  obtain ⟨hpixels, hcolor, hmode, hvisible, -⟩ := sur.putchars_frame bytes
  exact Surface.eq_of_frame hpixels hcolor hmode hvisible

theorem Surface.dirty_putchars (sur : Surface) {bytes : List Byte} (h : bytes ≠ []) :
    (sur.putchars bytes).dirty = true := by
  cases bytes with
  | nil => exact absurd rfl h
  | cons b rest =>
    obtain ⟨-, -, -, -, hdirty⟩ := sur.putchar_frame b
    obtain ⟨-, -, -, -, hkeeps⟩ := (sur.putchar b).putchars_frame rest
    exact hkeeps hdirty

/-! ### Control bytes (R130) -/

theorem Surface.putchar_newline (sur : Surface) : sur.putchar 0x0A#8 =
    { sur with cursorY := sur.cursorY + 1#16, cursorX := 0#16, dirty := true } := rfl

theorem Surface.putchar_carriageReturn (sur : Surface) : sur.putchar 0x0D#8 =
    { sur with cursorX := 0#16, dirty := true } := rfl

theorem Surface.putchar_backspace (sur : Surface) : sur.putchar 0x08#8 =
    { sur with cursorX := if sur.cursorX = 0#16 then 0#16 else sur.cursorX - 1#16,
               dirty := true } := rfl

theorem Surface.putchar_tab (sur : Surface) : sur.putchar 0x09#8 =
    { sur with cursorX := (sur.cursorX + 4#16) &&& 0xFFFC#16, dirty := true } := rfl

/-- One column back, held at column 0, is the subtraction of the naturals. -/
theorem toNat_ite_zero_sub_one (x : Word) :
    (if x = 0#16 then 0#16 else x - 1#16).toNat = x.toNat - 1 := by
  split_ifs with h
  · rw [h]; rfl
  · bv_omega

/-- Clearing the two low bits rounds down to a multiple of 4. -/
theorem toNat_and_FFFC (v : Word) : (v &&& 0xFFFC#16).toNat = v.toNat / 4 * 4 := by
  have hmask : v &&& 0xFFFC#16 = v >>> 2 <<< 2 :=
    (BitVec.shiftLeft_ushiftRight (x := v) (n := 2)).symm
  rw [hmask, BitVec.toNat_shiftLeft, BitVec.toNat_ushiftRight, Nat.shiftLeft_eq,
    Nat.shiftRight_eq_div_pow]
  omega

/-- Settles O16: one rule of `Putchar` for each of the four bytes. -/
theorem controlBytesMoveTheCursor : Obligations.ControlBytesMoveTheCursor := by
  intro s
  have hprint (b : Byte) :
      exec (.printChar b) s = .next { s with surface := s.surface.putchar b } := rfl
  refine ⟨?newline, ?carriageReturn, ⟨_, hprint _, ?_, ?backspace⟩, _, hprint _, ?_, ?tab⟩
  case newline => rw [hprint, Surface.putchar_newline]
  case carriageReturn => rw [hprint, Surface.putchar_carriageReturn]
  case backspace =>
    rw [Surface.putchar_backspace]
    exact toNat_ite_zero_sub_one s.surface.cursorX
  case tab =>
    rw [Surface.putchar_tab]
    exact toNat_and_FFFC (s.surface.cursorX + 4#16)
  · rw [Surface.putchar_backspace]
  · rw [Surface.putchar_tab]

/-! ### Printable bytes: the three stages of R131 -/

theorem Surface.toNat_cursorX_wrapLine (sur : Surface) :
    sur.wrapLine.cursorX.toNat = if 80 ≤ sur.cursorX.toNat then 0 else sur.cursorX.toNat := by
  unfold Surface.wrapLine
  split_ifs <;> rfl

theorem Surface.toNat_cursorY_wrapLine (sur : Surface) :
    sur.wrapLine.cursorY.toNat =
      if 80 ≤ sur.cursorX.toNat then (sur.cursorY.toNat + 1) % 65536 else sur.cursorY.toNat := by
  unfold Surface.wrapLine
  split_ifs
  · exact BitVec.toNat_add ..
  · rfl

theorem Surface.cursorX_wrapLine_lt (sur : Surface) : sur.wrapLine.cursorX.toNat < 80 := by
  rw [Surface.toNat_cursorX_wrapLine]
  split_ifs <;> omega

@[simp] theorem Surface.cell_wrapLine (sur : Surface) (row col : Nat) :
    sur.wrapLine.cell row col = sur.cell row col := by
  unfold Surface.wrapLine
  split_ifs <;> rfl

@[simp] theorem Surface.wrapLine_color (sur : Surface) : sur.wrapLine.color = sur.color := by
  unfold Surface.wrapLine
  split_ifs <;> rfl

@[simp] theorem Surface.scrollIfBelow_cursorX (sur : Surface) :
    sur.scrollIfBelow.cursorX = sur.cursorX := by
  unfold Surface.scrollIfBelow
  split_ifs <;> rfl

@[simp] theorem Surface.scrollIfBelow_color (sur : Surface) : sur.scrollIfBelow.color = sur.color := by
  unfold Surface.scrollIfBelow
  split_ifs <;> rfl

theorem Surface.toNat_cursorY_scrollIfBelow (sur : Surface) :
    sur.scrollIfBelow.cursorY.toNat = if 25 ≤ sur.cursorY.toNat then 24 else sur.cursorY.toNat := by
  unfold Surface.scrollIfBelow
  split_ifs <;> rfl

theorem Surface.cursorY_scrollIfBelow_lt (sur : Surface) : sur.scrollIfBelow.cursorY.toNat < 25 := by
  rw [Surface.toNat_cursorY_scrollIfBelow]
  split_ifs <;> omega

/-- The cells after the scroll test: moved up one row where the cursor was below the plane (R132). -/
theorem Surface.cell_scrollIfBelow (sur : Surface) {row col : Nat} (hr : row < 25) (hc : col < 80) :
    sur.scrollIfBelow.cell row col =
      if 25 ≤ sur.cursorY.toNat then
        (if row = 24 then some ⟨0x20#8, sur.color⟩ else sur.cell (row + 1) col)
      else sur.cell row col := by
  unfold Surface.scrollIfBelow
  split_ifs with hbelow hlast
  · subst hlast
    exact sur.cell_scroll (row := 24) hc
  · have hmoved : row < 24 := by omega
    exact (sur.cell_scroll hc).trans (if_pos hmoved)
  · rfl

@[simp] theorem Surface.storeChar_cursorY (sur : Surface) (b : Byte) :
    (sur.storeChar b).cursorY = sur.cursorY := sur.putCell_cursorY ..

/-- A column of the plane has a next one in 16 bits. -/
theorem Surface.toNat_cursorX_storeChar {sur : Surface} (hx : sur.cursorX.toNat < 80) (b : Byte) :
    (sur.storeChar b).cursorX.toNat = sur.cursorX.toNat + 1 :=
  BitVec.toNat_add_of_lt (y := 1#16) (by rw [BitVec.toNat_ofNat]; omega)

theorem Surface.cell_storeChar {sur : Surface} (hx : sur.cursorX.toNat < 80)
    (hy : sur.cursorY.toNat < 25) (b : Byte) (row col : Nat) :
    (sur.storeChar b).cell row col =
      if row = sur.cursorY.toNat ∧ col = sur.cursorX.toNat then some ⟨b, sur.color⟩
      else sur.cell row col :=
  sur.cell_putCell ⟨b, sur.color⟩ hy hx

theorem Surface.moveOrPrint_printable {b : Byte} (hlf : b ≠ 0x0A#8) (hcr : b ≠ 0x0D#8)
    (hbs : b ≠ 0x08#8) (htab : b ≠ 0x09#8) (sur : Surface) :
    sur.moveOrPrint b = sur.putPrintable b := by
  rw [Surface.moveOrPrint, if_neg hlf, if_neg hcr, if_neg hbs, if_neg htab]

/-- Settles O17: after the wrap and the scroll the cursor is on the plane, where the byte is stored. -/
theorem printableByteIsStoredAtTheCursor : Obligations.PrintableByteIsStoredAtTheCursor := by
  intro s b hlf hcr hbs htab wraps x y scrolls row
  have hx : s.surface.wrapLine.scrollIfBelow.cursorX.toNat = x := by
    rw [Surface.scrollIfBelow_cursorX, Surface.toNat_cursorX_wrapLine]
  have hy : s.surface.wrapLine.cursorY.toNat = y := s.surface.toNat_cursorY_wrapLine
  have hrow : s.surface.wrapLine.scrollIfBelow.cursorY.toNat = row := by
    rw [Surface.toNat_cursorY_scrollIfBelow, hy]
  have hxlt : x < 80 := by
    rw [← hx, Surface.scrollIfBelow_cursorX]
    exact s.surface.cursorX_wrapLine_lt
  have hrowlt : row < 25 := hrow ▸ Surface.cursorY_scrollIfBelow_lt _
  have hstore : s.surface.putchar b =
      { s.surface.wrapLine.scrollIfBelow.storeChar b with dirty := true } := by
    rw [Surface.putchar, Surface.moveOrPrint_printable hlf hcr hbs htab, Surface.putPrintable]
  refine ⟨{ s with surface := s.surface.putchar b }, rfl, ?frame, ?column, ?row,
    Nat.le_of_lt_succ hrowlt, hxlt, fun r c hr hc => ?cells⟩
  case frame => exact congrArg (fun sur => { s with surface := sur }) (s.surface.putchar_eq b)
  case column =>
    rw [hstore, ← hx]
    exact Surface.toNat_cursorX_storeChar (hx.trans_lt hxlt) b
  case row =>
    rw [hstore, ← hrow]
    exact congrArg BitVec.toNat (Surface.storeChar_cursorY _ b)
  case cells =>
    rw [hstore]
    refine (Surface.cell_storeChar (hx.trans_lt hxlt) (hrow.trans_lt hrowlt) b r c).trans ?_
    rw [hx, hrow, Surface.cell_scrollIfBelow _ hr hc, hy]
    simp only [Surface.scrollIfBelow_color, Surface.wrapLine_color, Surface.cell_wrapLine, scrolls]

/-! ### PRINT_STR -/

/-- Settles O18: PRINT_STR is a run of `Putchar`s. -/
theorem printStrPrintsByteByByte : Obligations.PrintStrPrintsByteByByte := by
  refine ⟨fun _ => rfl, fun s b str => ⟨_, rfl, ?_⟩, fun s str => ⟨_, rfl, ?_, ?_⟩⟩
  · simp only [exec, execPrintStr, Surface.putchars_cons]
  · exact congrArg (fun sur => { s with surface := sur }) (s.surface.putchars_eq str)
  · exact fun h => s.surface.dirty_putchars h

/-! ### The plane, the colour and the cursor -/

theorem Surface.cell_clearText (sur : Surface) {row col : Nat} (hr : row < 25) (hc : col < 80) :
    sur.clearText.cell row col = some ⟨0x20#8, sur.color⟩ := by
  simp [Surface.cell, Surface.clearText, Surface.blankLine, hr, hc]

/-- Settles O19: `ClearText` (R133). -/
theorem clearScreenBlanksEveryCell : Obligations.ClearScreenBlanksEveryCell :=
  fun s => ⟨_, rfl, fun _ _ hr hc => s.surface.cell_clearText hr hc, rfl⟩

/-- Settles O20: the colour index is tested against 16, and the draw decides `dirty` alone. -/
theorem setColorSelectsOrIgnores : Obligations.SetColorSelectsOrIgnores := by
  intro s idx
  refine ⟨_, rfl, fun hidx => ?selects, fun hidx => ?ignores, ?dirty, rfl⟩
  case selects =>
    calc (if idx.toNat < 16 then idx.setWidth 4 else s.surface.color).toNat
        = (idx.setWidth 4).toNat := by rw [if_pos hidx]
      _ = idx.toNat := by rw [BitVec.toNat_setWidth, Nat.mod_eq_of_lt hidx]
  case ignores => exact if_neg hidx.not_gt
  case dirty =>
    change (s.surface.dirty || Config.colorRaisesDirty s.draws) = _ ∨ _ = true
    cases Config.colorRaisesDirty s.draws
    · exact .inl (Bool.or_false _)
    · exact .inr (Bool.or_true _)

/-- Settles O21: the second write, to `x[rY]`, is read first. -/
theorem getCursorWritesBothRegisters : Obligations.GetCursorWritesBothRegisters := by
  intro s rX rY
  refine ⟨_, rfl, fun hY => ?_, fun hX hne => ?_, fun r hrX hrY => ?_, rfl⟩
  · rw [State.reg_setReg, if_pos ⟨rfl, hY⟩]
  · rw [State.reg_setReg, if_neg (fun h => hne h.1), State.reg_setReg, if_pos ⟨rfl, hX⟩]
  · rw [State.reg_setReg, if_neg (fun h => hrY h.1), State.reg_setReg, if_neg (fun h => hrX h.1)]

/-- Settles O22: each coordinate has its own test. -/
theorem setCursorMovesEachCoordinate : Obligations.SetCursorMovesEachCoordinate := by
  intro s x y
  have hwiden (v : Byte) : (v.setWidth 16).toNat = v.toNat := BitVec.toNat_setWidth_of_le (by decide)
  refine ⟨_, rfl, fun hx => ?_, fun hx => if_neg hx.not_gt, fun hy => ?_, fun hy => if_neg hy.not_gt,
    fun hxy => ?_, fun hx hy => ?_, rfl⟩
  · exact (congrArg BitVec.toNat (if_pos hx)).trans (hwiden x)
  · exact (congrArg BitVec.toNat (if_pos hy)).trans (hwiden y)
  · simp [Surface.setCursor, hxy]
  · simp [Surface.setCursor, hx.not_gt, hy.not_gt]

end Sys2Proof.Machine
end

section
/-! PROOF. The pixel-plane instructions (R180 to R185): the pixels each of them sets or clears, and the rest
of the surface, which it keeps. -/

namespace Sys2Proof.Machine

/-! ### What every shape operation and SET_PIXEL leave unchanged (R171, R176) -/

/-- Drawing that keeps the text plane changes, once it is shown, no more than the pixels and the two modes. -/
theorem Surface.SameText.shown_eq {sur sur' : Surface} (h : sur.SameText sur') :
    sur'.shown = { sur with pixels := sur'.shown.pixels, pixelMode := true, dirty := true } := by
  obtain ⟨hcells, hcursorX, hcursorY, hcolor, hvisible⟩ := h
  simp only [Surface.shown, hcells, hcursorX, hcursorY, hcolor, hvisible]

/-- The same as a next state: nothing outside the surface changes either. -/
theorem State.shown_frame (s : State) {sur : Surface} (h : s.surface.SameText sur) :
    { s with surface := sur.shown } = { s with surface := { s.surface with
      pixels := sur.shown.pixels, pixelMode := true, dirty := true } } :=
  congrArg (fun sur' => { s with surface := sur' }) h.shown_eq

/-! ### DRAW_LINE and DRAW_CIRCLE -/

theorem Surface.pixel_plotAll_shown_iff (sur : Surface) (points : List Point) {x y : Nat}
    (hx : x < 320) (hy : y < 200) : (sur.plotAll points).shown.pixel x y = true ↔
      sur.pixel x y = true ∨ ((x : Int), (y : Int)) ∈ points := by
  rw [Surface.pixel_shown, Surface.pixel_plotAll sur points hx hy, Bool.or_eq_true, decide_eq_true_iff]

/-- Settles O23: both instructions plot a list of points, whatever the list is. -/
theorem linesAndCirclesSetTheirPixels : Obligations.LinesAndCirclesSetTheirPixels :=
  ⟨fun s _ _ _ _ => ⟨_, rfl, fun _ _ hx hy => s.surface.pixel_plotAll_shown_iff _ hx hy,
      s.shown_frame (s.surface.sameText_plotAll _)⟩,
    fun s _ _ _ => ⟨_, rfl, fun _ _ hx hy => s.surface.pixel_plotAll_shown_iff _ hx hy,
      s.shown_frame (s.surface.sameText_plotAll _)⟩⟩

/-! ### FILL_RECT and DRAW_RECT -/

/-- Plotting one of the sets of a rectangle that may be missing: `rect_fill` or `rect_outline` (R174). -/
def Surface.plotRect (sur : Surface) (inSet : Rect → Nat → Nat → Bool) (rect : Option Rect) : Surface :=
  rect.elim sur fun r => sur.plotWhere (inSet r)

theorem exec_fillRect (s : State) (a b c d : Word) : exec (.fillRect a b c d) s = .next { s with
    surface := (s.surface.plotRect Rect.fills (rectOf s.config.rectForm a b c d)).shown } := by
  simp only [exec, execFillRect, Surface.fillRect]
  cases rectOf s.config.rectForm a b c d <;> rfl

theorem exec_drawRect (s : State) (a b c d : Word) : exec (.drawRect a b c d) s = .next { s with
    surface := (s.surface.plotRect Rect.outlines (rectOf s.config.rectForm a b c d)).shown } := by
  simp only [exec, execDrawRect, Surface.drawRect]
  cases rectOf s.config.rectForm a b c d <;> rfl

theorem Surface.sameText_plotRect (sur : Surface) (inSet : Rect → Nat → Nat → Bool)
    (rect : Option Rect) : sur.SameText (sur.plotRect inSet rect) := by
  cases rect with
  | none => exact ⟨rfl, rfl, rfl, rfl, rfl⟩
  | some r => exact sur.sameText_plotWhere (inSet r)

theorem Surface.pixel_plotRect_shown_iff (sur : Surface) (inSet : Rect → Nat → Nat → Bool)
    (rect : Option Rect) {x y : Nat} (hx : x < 320) (hy : y < 200) :
    (sur.plotRect inSet rect).shown.pixel x y = true ↔
      sur.pixel x y = true ∨ ∃ r ∈ rect, inSet r x y = true := by
  cases rect with
  | none => simp [Surface.plotRect]
  | some r => simp [Surface.plotRect, Surface.pixel_plotWhere sur (inSet r) hx hy]

/-- Left, top, width and height name a rectangle unless a side is 0 (R174). -/
theorem exists_mem_rectOf_xywh {a b c d : Word} {p : Rect → Prop} :
    (∃ r ∈ rectOf .xywh a b c d, p r) ↔ 0 < c.toNat ∧ 0 < d.toNat ∧
      p ⟨a.toNat, a.toNat + c.toNat - 1, b.toNat, b.toNat + d.toNat - 1⟩ := by
  have hpos (v : Word) : 0 < v.toNat ↔ v ≠ 0#16 := by
    rw [ne_eq, ← BitVec.toNat_inj]
    exact Nat.pos_iff_ne_zero
  rw [hpos, hpos, rectOf]
  split_ifs with hempty
  · exact iff_of_false (by simp) fun ⟨hc, hd, _⟩ => hempty.elim hc hd
  · obtain ⟨hc, hd⟩ := not_or.1 hempty
    simp only [Option.mem_some_iff, exists_eq_left', ne_eq, hc, hd, not_false_eq_true, true_and]

/-- Two corners always name a rectangle (R174). -/
theorem exists_mem_rectOf_x1y1x2y2 {a b c d : Word} {p : Rect → Prop} :
    (∃ r ∈ rectOf .x1y1x2y2 a b c d, p r) ↔
      p ⟨min a.toNat c.toNat, max a.toNat c.toNat, min b.toNat d.toNat, max b.toNat d.toNat⟩ := by
  simp only [rectOf, Option.mem_some_iff, exists_eq_left']

theorem Rect.fills_iff (r : Rect) (x y : Nat) : r.fills x y = true ↔
    (r.y0 ≤ y ∧ y ≤ r.y1) ∧ r.x0 ≤ x ∧ x ≤ r.x1 := by
  simp [Rect.fills]

theorem Rect.outlines_iff (r : Rect) (x y : Nat) : r.outlines x y = true ↔
    r.fills x y = true ∧ ((x = r.x0 ∨ x = r.x1) ∨ y = r.y0 ∨ y = r.y1) := by
  simp [Rect.outlines]

/-- Settles O24: FILL_RECT plots `rect_fill`, whose inequalities are read off under each form. -/
theorem fillRectSetsItsRectangle : Obligations.FillRectSetsItsRectangle := by
  intro s a b c d
  refine ⟨_, exec_fillRect s a b c d, fun x y hx hy => ?_,
    s.shown_frame (s.surface.sameText_plotRect _ _)⟩
  refine (s.surface.pixel_plotRect_shown_iff _ _ hx hy).trans (or_congr_right ?_)
  cases s.config.rectForm with
  | xywh =>
    simp only [exists_mem_rectOf_xywh, Rect.fills_iff]
    omega
  | x1y1x2y2 =>
    simp only [exists_mem_rectOf_x1y1x2y2, Rect.fills_iff]
    omega

/-- Settles O25: DRAW_RECT plots `rect_outline`, which adds the four sides' equations. -/
theorem drawRectSetsItsBorder : Obligations.DrawRectSetsItsBorder := by
  intro s a b c d
  refine ⟨_, exec_drawRect s a b c d, fun x y hx hy => ?_,
    s.shown_frame (s.surface.sameText_plotRect _ _)⟩
  refine (s.surface.pixel_plotRect_shown_iff _ _ hx hy).trans (or_congr_right ?_)
  cases s.config.rectForm with
  | xywh =>
    simp only [exists_mem_rectOf_xywh, Rect.outlines_iff, Rect.fills_iff]
    omega
  | x1y1x2y2 =>
    simp only [exists_mem_rectOf_x1y1x2y2, Rect.outlines_iff, Rect.fills_iff]
    omega

/-! ### SET_PIXEL and CLEAR_PIXELS -/

theorem Surface.setPixel_inside (sur : Surface) {px py : Word} (v : Byte)
    (h : px.toNat < 320 ∧ py.toNat < 200) :
    sur.setPixel px py v = (sur.putPixel px.toNat py.toNat (v != 0#8)).shown :=
  congrArg Surface.shown (if_pos h)

theorem Surface.setPixel_outside (sur : Surface) {px py : Word} (v : Byte)
    (h : ¬(px.toNat < 320 ∧ py.toNat < 200)) : sur.setPixel px py v = sur.shown :=
  congrArg Surface.shown (if_neg h)

theorem Surface.pixel_setPixel (sur : Surface) (px py : Word) (v : Byte) {x y : Nat} (hx : x < 320)
    (hy : y < 200) : (sur.setPixel px py v).pixel x y =
      if x = px.toNat ∧ y = py.toNat then (v != 0#8) else sur.pixel x y := by
  by_cases h : px.toNat < 320 ∧ py.toNat < 200
  · rw [sur.setPixel_inside v h, Surface.pixel_shown, Surface.pixel_putPixel _ _ h.1 h.2]
  · have hne : ¬(x = px.toNat ∧ y = py.toNat) := by omega
    rw [sur.setPixel_outside v h, Surface.pixel_shown, if_neg hne]

theorem Surface.setPixel_eq (sur : Surface) (px py : Word) (v : Byte) : sur.setPixel px py v =
    { sur with pixels := (sur.setPixel px py v).pixels, pixelMode := true, dirty := true } := by
  by_cases h : px.toNat < 320 ∧ py.toNat < 200
  · rw [sur.setPixel_inside v h]
    exact (sur.sameText_putPixel _ _ _).shown_eq
  · rw [sur.setPixel_outside v h]
    rfl

/-- Settles O26: a point in range is one write to the plane, and one out of range is none. -/
theorem setPixelWritesOnePixel : Obligations.SetPixelWritesOnePixel := fun s px py v =>
  ⟨_, rfl, fun _ _ hx hy => s.surface.pixel_setPixel px py v hx hy,
    congrArg (fun sur => { s with surface := sur }) (s.surface.setPixel_eq px py v)⟩

theorem Surface.pixel_clearPixels (sur : Surface) (x y : Nat) : sur.clearPixels.pixel x y = false := by
  simp only [Surface.pixel, Surface.clearPixels, Vector.getElem?_replicate]
  by_cases hy : y < 200 <;> by_cases hx : x < 320 <;> simp [hy, hx]

/-- Settles O27: `ClearPixels` writes every row at once (R172). -/
theorem clearPixelsZeroesThePlane : Obligations.ClearPixelsZeroesThePlane :=
  fun s => ⟨_, rfl, s.surface.pixel_clearPixels, rfl⟩

end Sys2Proof.Machine
end

section
/-! PROOF. The default `line_pixels` (R173): it runs from end to end along its longer axis, in as many steps
as that axis is long. -/

namespace Sys2Proof.Machine

/-- Bresenham's step treats the two axes alike: exchanging them turns the error round. -/
theorem bresenhamLoop_swap (dx dy sx sy x1 y1 : Int) (fuel : Nat) (x y err : Int) :
    bresenhamLoop dx dy sx sy x1 y1 fuel x y err =
      (bresenhamLoop (-dy) (-dx) sy sx y1 x1 fuel y x (-err)).map Prod.swap := by
  induction fuel generalizing x y err with
  | zero => rfl
  | succ fuel ih =>
    have hx : 2 * err ≥ dy ↔ 2 * -err ≤ -dy := by omega
    have hy : 2 * err ≤ dx ↔ 2 * -err ≥ -dx := by omega
    have herr : -(err + (if 2 * err ≥ dy then dy else 0) + (if 2 * err ≤ dx then dx else 0)) =
        -err + (if 2 * err ≤ dx then -dx else 0) + (if 2 * err ≥ dy then -dy else 0) := by
      split_ifs <;> omega
    simp only [bresenhamLoop, ih, herr]
    simp only [hx, hy, and_comm (a := y = y1), List.map_cons, Prod.swap_prod_mk,
      apply_ite (List.map Prod.swap), List.map_nil]

theorem bresenhamLine_swap (x0 y0 x1 y1 : Int) :
    bresenhamLine x0 y0 x1 y1 = (bresenhamLine y0 x0 y1 x1).map Prod.swap := by
  rw [bresenhamLine, bresenhamLoop_swap, neg_neg, neg_sub, max_comm, bresenhamLine]

theorem head?_bresenhamLine (x0 y0 x1 y1 : Int) :
    (bresenhamLine x0 y0 x1 y1).head? = some (x0, y0) := rfl

/-- On a line `n` columns wide and `d ≤ n` rows high, at a point `m` columns and `j` rows before the end,
`err` says how far the point lies from the true line. Its bounds, half a row each way, make every turn move
to the next column, and leave no row to go when no column is left. -/
theorem bresenhamLoop_runs_to_end {n d sx sy x1 y1 : Int} (hn : 0 < n) (hd : 0 ≤ d) (hdn : d ≤ n)
    (hsx : sx ≠ 0) (m : Nat) (j : Int) {x y err : Int} (hx : x = x1 - sx * m) (hy : y = y1 - sy * j)
    (herr : err = n * (1 - j) + d * (m - 1)) (hlo : n ≤ 2 * err + 2 * d) (hhi : 2 * err + 2 * d ≤ 3 * n) :
    (bresenhamLoop n (-d) sx sy x1 y1 (m + 1) x y err).getLast? = some (x1, y1) ∧
      (bresenhamLoop n (-d) sx sy x1 y1 (m + 1) x y err).length = m + 1 := by
  induction m generalizing j x y err with
  | zero =>
    have hj : j = 0 := by
      subst herr
      push_cast at hlo hhi
      have hlt : j < 1 := by nlinarith
      have hgt : -1 < j := by nlinarith
      omega
    subst hj hx hy
    simp [bresenhamLoop]
  | succ m ih =>
    have hne : ¬(x = x1 ∧ y = y1) := by
      rintro ⟨hend, -⟩
      rw [hx, sub_eq_self] at hend
      exact mul_ne_zero hsx (Nat.cast_ne_zero.2 m.succ_ne_zero) hend
    have hcolumn : 2 * err ≥ -d := by omega
    have hx' : x + sx = x1 - sx * m := by rw [hx]; push_cast; ring
    rw [bresenhamLoop, if_neg hne, if_pos hcolumn, if_pos hcolumn, List.getLast?_cons, List.length_cons]
    by_cases hrow : 2 * err ≤ n
    · have herr' : err + -d + n = n * (1 - (j - 1)) + d * (m - 1) := by rw [herr]; push_cast; ring
      have hy' : y + sy = y1 - sy * (j - 1) := by rw [hy]; ring
      obtain ⟨hlast, hlen⟩ := ih (j - 1) hx' hy' herr' (by omega) (by omega)
      rw [if_pos hrow, if_pos hrow, hlast, hlen]
      exact ⟨rfl, rfl⟩
    · have herr' : err + -d + 0 = n * (1 - j) + d * (m - 1) := by rw [herr]; push_cast; ring
      obtain ⟨hlast, hlen⟩ := ih j hx' hy herr' (by omega) (by omega)
      rw [if_neg hrow, if_neg hrow, hlast, hlen]
      exact ⟨rfl, rfl⟩

/-- A line that is no higher than wide. -/
theorem bresenhamLine_shallow {x0 y0 x1 y1 : Int} (h : (y1 - y0).natAbs ≤ (x1 - x0).natAbs) :
    (bresenhamLine x0 y0 x1 y1).getLast? = some (x1, y1) ∧
      (bresenhamLine x0 y0 x1 y1).length = (x1 - x0).natAbs + 1 := by
  rw [bresenhamLine, max_eq_left h]
  by_cases hpoint : x0 = x1
  · have hy : y0 = y1 := by omega
    subst hpoint hy
    simp [bresenhamLoop]
  · refine bresenhamLoop_runs_to_end (by omega) (by omega) (by omega) ?_ _ ((y1 - y0).natAbs) ?_ ?_
      (by ring) (by omega) (by omega)
    · split_ifs <;> decide
    · split_ifs <;> omega
    · split_ifs <;> omega

theorem bresenhamLine_runs_to_end (x0 y0 x1 y1 : Int) :
    (bresenhamLine x0 y0 x1 y1).getLast? = some (x1, y1) ∧
      (bresenhamLine x0 y0 x1 y1).length = max (x1 - x0).natAbs (y1 - y0).natAbs + 1 := by
  obtain h | h := le_total (y1 - y0).natAbs (x1 - x0).natAbs
  · rw [max_eq_left h]
    exact bresenhamLine_shallow h
  · obtain ⟨hlast, hlen⟩ := bresenhamLine_shallow h
    rw [max_eq_right h, bresenhamLine_swap, List.getLast?_map, List.length_map, hlast, hlen]
    exact ⟨rfl, rfl⟩

/-- Settles O28: the first point by the loop's first turn, the last and the length along the longer
axis. -/
theorem defaultLineRunsFromEndToEnd : Obligations.DefaultLineRunsFromEndToEnd :=
  fun x0 y0 x1 y1 => ⟨head?_bresenhamLine x0 y0 x1 y1, bresenhamLine_runs_to_end x0 y0 x1 y1⟩

end Sys2Proof.Machine
end

section
/-! PROOF. The default `circle_pixels` (R175): its turns, the symmetry of the eight points of one turn, and
the error and the columns of the turns. -/

namespace Sys2Proof.Machine

/-! ### The turns of the loop -/

/-- The first octant: the values of `x` and `y` at each turn of the loop of R175. -/
def midpointTurns : Nat → Int → Int → Int → List Point
  | 0, _, _, _ => []
  | fuel + 1, x, y, err =>
    if x ≥ y then
      (x, y) ::
        if err < 0 then midpointTurns fuel x (y + 1) (err + 2 * (y + 1) + 1)
        else midpointTurns fuel (x - 1) (y + 1) (err + 2 * ((y + 1) - (x - 1)) + 1)
    else []

theorem midpointLoop_eq_flatMap (cx cy : Int) (fuel : Nat) (x y err : Int) :
    midpointLoop cx cy fuel x y err =
      (midpointTurns fuel x y err).flatMap fun turn => octants cx cy turn.1 turn.2 := by
  induction fuel generalizing x y err with
  | zero => rfl
  | succ fuel ih =>
    simp only [midpointLoop, midpointTurns, ih]
    split_ifs <;> simp only [List.flatMap_cons, List.flatMap_nil]

theorem mem_midpointCircle {cx cy : Int} {r : Nat} {p : Point} : p ∈ midpointCircle cx cy r ↔
    ∃ turn ∈ midpointTurns (r + 1) r 0 (1 - r), p ∈ octants cx cy turn.1 turn.2 := by
  rw [midpointCircle, midpointLoop_eq_flatMap, List.mem_flatMap]

/-- Every turn brings `x` and `y` closer, so fuel past their distance is never used. -/
theorem midpointLoop_add_fuel (cx cy : Int) {fuel : Nat} (k : Nat) {x y : Int} (err : Int)
    (h : x - y < fuel) : midpointLoop cx cy (fuel + k) x y err = midpointLoop cx cy fuel x y err := by
  induction fuel generalizing x y err with
  | zero =>
    have hdone : ¬x ≥ y := by omega
    cases k with
    | zero => rfl
    | succ k =>
      rw [Nat.zero_add]
      exact if_neg hdone
  | succ fuel ih =>
    rw [Nat.succ_add, midpointLoop, midpointLoop, ih _ (by omega), ih _ (by omega)]

/-! ### The eight points of a turn -/

/-- The eight points are the two orders and the four signs of the two distances. -/
theorem mem_octants_iff {cx cy u v x y : Int} : (cx + x, cy + y) ∈ octants cx cy u v ↔
    (x.natAbs = u.natAbs ∧ y.natAbs = v.natAbs) ∨ (x.natAbs = v.natAbs ∧ y.natAbs = u.natAbs) := by
  simp only [octants, List.mem_cons, List.not_mem_nil, or_false, Prod.mk.injEq, sub_eq_add_neg,
    add_right_inj, Int.natAbs_eq_natAbs_iff]
  tauto

/-- Membership in the circle looks at the two distances from the centre, in either order. -/
theorem mem_midpointCircle_iff {cx cy x y : Int} {r : Nat} : (cx + x, cy + y) ∈ midpointCircle cx cy r ↔
    ∃ turn ∈ midpointTurns (r + 1) r 0 (1 - r),
      (x.natAbs = turn.1.natAbs ∧ y.natAbs = turn.2.natAbs) ∨
      (x.natAbs = turn.2.natAbs ∧ y.natAbs = turn.1.natAbs) := by
  simp only [mem_midpointCircle, mem_octants_iff]

theorem swap_mem_midpointCircle {cx cy x y : Int} {r : Nat}
    (h : (cx + x, cy + y) ∈ midpointCircle cx cy r) : (cx + y, cy + x) ∈ midpointCircle cx cy r := by
  rw [mem_midpointCircle_iff] at h ⊢
  obtain ⟨turn, hturn, hdist⟩ := h
  exact ⟨turn, hturn, hdist.symm.imp And.symm And.symm⟩

theorem reflect_mem_midpointCircle {cx cy x y x' y' : Int} {r : Nat} (hx : x'.natAbs = x.natAbs)
    (hy : y'.natAbs = y.natAbs) (h : (cx + x, cy + y) ∈ midpointCircle cx cy r) :
    (cx + x', cy + y') ∈ midpointCircle cx cy r := by
  rw [mem_midpointCircle_iff] at h ⊢
  rwa [hx, hy]

/-! ### The distance of a point from the circle -/

/-- The square of the distance from the centre, less that of the radius. -/
def circleError (r x y : Int) : Int := x * x + y * y - r * r

theorem circleError_comm (r x y : Int) : circleError r x y = circleError r y x := by
  rw [circleError, circleError, add_comm]

theorem circleError_congr {r x y u v : Int} (hx : x.natAbs = u.natAbs) (hy : y.natAbs = v.natAbs) :
    circleError r x y = circleError r u v := by
  rw [circleError, circleError, Int.natAbs_eq_iff_mul_self_eq.1 hx, Int.natAbs_eq_iff_mul_self_eq.1 hy]

/-- The loop's `err` is the error of the midpoint it looks at next, so each turn it takes lies within half
a pixel of the circle. -/
theorem circleError_of_mem_midpointTurns {r : Int} {fuel : Nat} {x y err : Int}
    (herr : err = circleError r x y + 2 * y + 1 - x) (hy : 0 ≤ y) (hlo : -x ≤ circleError r x y)
    (hhi : y ≤ x → circleError r x y ≤ x) {u v : Int} (h : (u, v) ∈ midpointTurns fuel x y err) :
    0 ≤ v ∧ v ≤ u ∧ (circleError r u v).natAbs ≤ u := by
  induction fuel generalizing x y err with
  | zero => exact absurd h List.not_mem_nil
  | succ fuel ih =>
    have hrow : circleError r x (y + 1) = circleError r x y + 2 * y + 1 := by
      unfold circleError; ring
    have hdiagonal : circleError r (x - 1) (y + 1) = circleError r x y + 2 * y - 2 * x + 2 := by
      unfold circleError; ring
    have hxy : x ≥ y := by
      by_contra hpassed
      rw [midpointTurns, if_neg hpassed] at h
      exact List.not_mem_nil h
    rw [midpointTurns, if_pos hxy] at h
    obtain hturn | hrest := List.mem_cons.1 h
    · obtain ⟨rfl, rfl⟩ := Prod.mk.inj hturn
      have hle := hhi hxy
      omega
    · split_ifs at hrest <;> exact ih (by omega) (by omega) (by omega) (by omega) hrest

theorem circleError_of_mem_midpointCircle {cx cy x y : Int} {r : Nat}
    (h : (cx + x, cy + y) ∈ midpointCircle cx cy r) :
    (circleError r x y).natAbs ≤ max x.natAbs y.natAbs := by
  obtain ⟨⟨u, v⟩, hturn, hdist⟩ := mem_midpointCircle_iff.1 h
  have hstart : circleError r r 0 = 0 := by unfold circleError; ring
  obtain ⟨hv, hvu, hle⟩ := circleError_of_mem_midpointTurns (r := r)
    (by omega) le_rfl (by omega) (by omega) hturn
  dsimp only at hdist
  obtain ⟨hx, hy⟩ | ⟨hx, hy⟩ := hdist
  · rw [circleError_congr hx hy]
    omega
  · rw [circleError_congr hx hy, circleError_comm]
    omega

/-! ### The columns of the circle -/

theorem mem_midpointTurns_head {x y : Int} (h : x ≥ y) (fuel : Nat) (err : Int) :
    (x, y) ∈ midpointTurns (fuel + 1) x y err := by
  rw [midpointTurns, if_pos h]
  exact List.mem_cons_self

/-- The turns meet every value between `y` and `x`, as the one distance or as the other: one of the two
ends of the interval at this turn, or a value between the next turn's ends. -/
theorem exists_midpointTurn {fuel : Nat} {x y err : Int} (hfuel : x - y < fuel) {k : Int} (hyk : y ≤ k)
    (hkx : k ≤ x) : ∃ turn ∈ midpointTurns fuel x y err, turn.1 = k ∨ turn.2 = k := by
  have hxy : x ≥ y := hyk.trans hkx
  induction fuel generalizing x y err with
  | zero => omega
  | succ fuel ih =>
    by_cases hend : x = k ∨ y = k
    · exact ⟨(x, y), mem_midpointTurns_head hxy fuel err, hend⟩
    · rw [midpointTurns, if_pos hxy]
      split_ifs <;>
        exact List.exists_mem_cons_of_exists (ih (by omega) (by omega) (by omega) (by omega))

theorem rightmost_mem_midpointCircle (cx cy : Int) (r : Nat) : (cx + r, cy) ∈ midpointCircle cx cy r :=
  mem_midpointCircle.2 ⟨(r, 0), mem_midpointTurns_head (Int.natCast_nonneg r) r _, by simp [octants]⟩

theorem exists_mem_midpointCircle_column (cx cy : Int) {r k : Nat} (hk : k ≤ r) :
    ∃ y : Int, (cx + k, cy + y) ∈ midpointCircle cx cy r := by
  obtain ⟨⟨u, v⟩, hturn, rfl | rfl⟩ := exists_midpointTurn (x := r) (y := 0) (err := 1 - r)
    (fuel := r + 1) (k := k) (by omega) (by omega) (by omega)
  · exact ⟨v, mem_midpointCircle_iff.2 ⟨_, hturn, .inl ⟨rfl, rfl⟩⟩⟩
  · exact ⟨u, mem_midpointCircle_iff.2 ⟨_, hturn, .inr ⟨rfl, rfl⟩⟩⟩

/-- Settles O29: the fuel by the distance of `x` and `y`, the symmetry by the eight points, the error by the
loop's own, and the columns by the values the turns meet. -/
theorem defaultCircleIsSymmetricAndComplete : Obligations.DefaultCircleIsSymmetricAndComplete := by
  refine ⟨fun cx cy r k => ?fuel, fun cx cy x y r h => ⟨?left, ?up, ?diagonal, ?error⟩,
    fun cx cy r => ⟨?rightmost, fun k hk => ?column⟩⟩
  case fuel => exact midpointLoop_add_fuel cx cy k _ (by omega)
  case left => exact sub_eq_add_neg cx x ▸ reflect_mem_midpointCircle (Int.natAbs_neg x) rfl h
  case up => exact sub_eq_add_neg cy y ▸ reflect_mem_midpointCircle rfl (Int.natAbs_neg y) h
  case diagonal => exact swap_mem_midpointCircle h
  case error => exact circleError_of_mem_midpointCircle h
  case rightmost => exact rightmost_mem_midpointCircle cx cy r
  case column => exact exists_mem_midpointCircle_column cx cy hk

end Sys2Proof.Machine
end

section
/-! PROOF. The time, sound and random instructions: the registers a free value goes to (R207, R208), and the
holds of SLEEP_MS and BEEP, which the host's signal alone lifts (R200, R201, R330). -/

namespace Sys2Proof.Machine

/-! ### Free values in registers (R202, R203) -/

/-- A register read after a write that counts as a draw. -/
theorem State.reg_setReg_draws (s : State) (r r' : Byte) (v : Word) (n : Nat) :
    State.reg { s.setReg r v with draws := n } r' =
      if r' = r ∧ r.toNat < 8 then some v else s.reg r' :=
  (State.reg_congr rfl r').trans (s.reg_setReg r r' v)

/-- Settles O34: the write keeps the low 16 bits of the counter. -/
theorem getTimeWritesTheClock : Obligations.GetTimeWritesTheClock := by
  intro s rX
  refine ⟨_, rfl, fun hX => ⟨_, ?written, BitVec.toNat_setWidth ..⟩, fun r hne => ?kept, rfl⟩
  case written => rw [State.reg_setReg_draws, if_pos ⟨rfl, hX⟩]
  case kept => rw [State.reg_setReg_draws, if_neg fun h => hne h.1]

/-- The remainder is no greater than the sample, so it fits the word. -/
theorem toNat_randMod (n raw : Word) : (randMod n raw).toNat = raw.toNat % (n.toNat + 1) :=
  (BitVec.toNat_ofNat ..).trans (Nat.mod_eq_of_lt ((Nat.mod_le ..).trans_lt raw.isLt))

theorem randMod_le (n raw : Word) : (randMod n raw).toNat ≤ n.toNat := by
  rw [toNat_randMod]
  exact Nat.le_of_lt_succ (Nat.mod_lt _ n.toNat.succ_pos)

/-- A sample already in the range is the value itself. -/
theorem randMod_of_le {n v : Word} (h : v.toNat ≤ n.toNat) : randMod n v = v :=
  BitVec.eq_of_toNat_eq ((toNat_randMod n v).trans (Nat.mod_eq_of_lt (Nat.lt_succ_of_le h)))

/-- Settles O35: the remainder of the sample is in the range, and each value of the range is its own
remainder. -/
theorem randomStaysInItsRange : Obligations.RandomStaysInItsRange := by
  refine ⟨fun s rX max => ?_, fun max v hv => ⟨v, randMod_of_le hv⟩⟩
  refine ⟨_, rfl, fun hX => ⟨_, ?written, rfl, randMod_le ..⟩, fun r hne => ?kept, rfl⟩
  case written => rw [State.reg_setReg_draws, if_pos ⟨rfl, hX⟩]
  case kept => rw [State.reg_setReg_draws, if_neg fun h => hne h.1]

/-! ### What the host's moves during a hold write (R42, R340) -/

/-- The state that the host's moves in `turns` make of a running machine, as `onlyHostMovesIn` tells it:
the key mailbox takes every key, and `dirty` is cleared where the host clears it. -/
def State.afterMovesIn (s : State) (turns : List Turn) : State :=
  { s with
    keySlot := ((keysIn turns).getLast?.map keyCode).getD s.keySlot,
    keySeq := s.keySeq + (keysIn turns).length,
    surface := { s.surface with dirty := s.surface.dirty && !turns.contains (.host .clearDirty) } }

theorem State.onlyHostMovesIn_afterMovesIn (s : State) (turns : List Turn) (hold : Option Suspension)
    (schedule : List Turn) :
    onlyHostMovesIn turns s { s.afterMovesIn turns with hold := hold, schedule := schedule } := rfl

@[simp] theorem State.afterMovesIn_nil (s : State) : s.afterMovesIn [] = s := by
  simp [State.afterMovesIn, keysIn]

@[simp] theorem State.afterMovesIn_core (s : State) (rest : List Turn) :
    s.afterMovesIn (.core :: rest) = s.afterMovesIn rest := by
  simp [State.afterMovesIn, keysIn]

/-- A load and a device operation have no effect during a run; the host's signals never have one. -/
theorem State.afterMovesIn_host {s : State} {m : HostMove} (hr : s.running = true) (hm : m ≠ .shutdown)
    (rest : List Turn) : s.afterMovesIn (.host m :: rest) = (applyMove m s).afterMovesIn rest := by
  cases m with
  | keyEvent k =>
    simp [State.afterMovesIn, applyMove, keysIn, List.getLast?_cons, Option.getD_map, Nat.add_assoc,
      Nat.add_comm]
  | shutdown => exact absurd rfl hm
  | clearDirty | sleepDone | beepDone => simp [State.afterMovesIn, applyMove, keysIn]
  | load blob => simp [State.afterMovesIn, applyMove, keysIn, State.load_running hr]
  | device op => simp [State.afterMovesIn, applyMove, keysIn, hr]

/-! ### The holds of SLEEP_MS and BEEP (R200, R201) -/

/-- A hold that `signal` alone lifts, with no effect of its own afterwards (R330). -/
structure Suspension.EndsOn (h : Suspension) (signal : HostMove) : Prop where
  lifts_eq (m : HostMove) : lifts m h = decide (m = signal)
  no_key (s : State) : keyArrived h s = false
  no_effect (s : State) : afterHold h s = s
  signal_inert (s : State) : applyMove signal s = s

theorem Suspension.EndsOn.sleep (ms : Word) : (Suspension.sleep ms).EndsOn .sleepDone :=
  ⟨fun _ => rfl, fun _ => rfl, fun _ => rfl, fun _ => rfl⟩

theorem Suspension.EndsOn.beep (f d : Word) : (Suspension.beep f d).EndsOn .beepDone :=
  ⟨fun _ => rfl, fun _ => rfl, fun _ => rfl, fun _ => rfl⟩

/-- The instructions with a timed hold do nothing but hold. -/
theorem timedHold_eq_some {i : Instr} {h : Suspension} {signal : HostMove}
    (hi : timedHold i = some (h, signal)) :
    h.EndsOn signal ∧ ∀ s, exec i s = .next (s.suspend h) := by
  cases i with
  | sleepMs m => cases hi; exact ⟨.sleep m, fun _ => rfl⟩
  | beep f d => cases hi; exact ⟨.beep f d, fun _ => rfl⟩
  | _ => cases hi

/-- With the flag clear, a suspension point is the hold itself (R333). -/
theorem State.suspend_of_not_shutdown {s : State} (hs : s.shutdown = false) (h : Suspension) :
    s.suspend h = holdLoop h s.schedule s := by
  simp [State.suspend, hs]

namespace Suspension.EndsOn

variable {h : Suspension} {signal : HostMove} {s : State}

theorem holdLoop_nil (hsig : h.EndsOn signal) (s : State) :
    holdLoop h [] s = { s with hold := some h, schedule := [] } := by
  simp [holdLoop, holdAtEnd, hsig.no_key]

theorem holdLoop_signal (hsig : h.EndsOn signal) (hs : s.shutdown = false) (rest : List Turn) :
    holdLoop h (.host signal :: rest) s = { s with hold := none, schedule := rest } := by
  simp [holdLoop, hsig.signal_inert, hsig.lifts_eq, hsig.no_effect, hs, State.endHold]

/-- The hold passes over every turn but its signal and a shutdown, and only the host's moves are left of
them. -/
theorem holdLoop_append (hsig : h.EndsOn signal) (turns tail : List Turn) (hr : s.running = true)
    (hs : s.shutdown = false) (hno : .host signal ∉ turns) (hnoshut : .host .shutdown ∉ turns) :
    holdLoop h (turns ++ tail) s = holdLoop h tail (s.afterMovesIn turns) := by
  induction turns generalizing s with
  | nil => rw [List.nil_append, State.afterMovesIn_nil]
  | cons turn rest ih =>
    obtain ⟨hne, hrest⟩ := not_or.1 (mt List.mem_cons.2 hno)
    obtain ⟨hneshut, hrestshut⟩ := not_or.1 (mt List.mem_cons.2 hnoshut)
    cases turn with
    | core =>
      rw [State.afterMovesIn_core, ← ih hr hs hrest hrestshut]
      simp [holdLoop, hsig.no_key]
    | host m =>
      have hm : m ≠ .shutdown := fun e => hneshut (congrArg _ e.symm)
      have hlifts : lifts m h = false := by
        rw [hsig.lifts_eq]
        exact decide_eq_false fun e => hne (congrArg _ e.symm)
      have hs' : (applyMove m s).shutdown = false := (applyMove_shutdown hr hm).trans hs
      have hr' : (applyMove m s).running = true := (applyMove_running hr m).running.trans hr
      rw [State.afterMovesIn_host hr hm, ← ih hr' hs' hrest hrestshut]
      simp [holdLoop, hs', hlifts]

theorem suspend_signal_next (hsig : h.EndsOn signal) (hs : s.shutdown = false) {rest : List Turn}
    (hsched : s.schedule = .host signal :: rest) :
    s.suspend h = { s with hold := none, schedule := rest } := by
  rw [State.suspend_of_not_shutdown hs, hsched, hsig.holdLoop_signal hs]

theorem suspend_signal_later (hsig : h.EndsOn signal) (hr : s.running = true)
    (hs : s.shutdown = false) {before rest : List Turn} (hsched : s.schedule = before ++ .host signal :: rest)
    (hno : .host signal ∉ before) (hnoshut : .host .shutdown ∉ before) :
    s.suspend h = { s.afterMovesIn before with hold := none, schedule := rest } := by
  rw [State.suspend_of_not_shutdown hs, hsched, hsig.holdLoop_append before _ hr hs hno hnoshut]
  exact hsig.holdLoop_signal (s := s.afterMovesIn before) hs rest

theorem suspend_no_signal (hsig : h.EndsOn signal) (hr : s.running = true) (hs : s.shutdown = false)
    (hno : .host signal ∉ s.schedule) (hnoshut : .host .shutdown ∉ s.schedule) :
    s.suspend h = { s.afterMovesIn s.schedule with hold := some h, schedule := [] } := by
  have hloop := hsig.holdLoop_append s.schedule [] hr hs hno hnoshut
  rw [List.append_nil] at hloop
  rw [State.suspend_of_not_shutdown hs, hloop, hsig.holdLoop_nil]

end Suspension.EndsOn

/-- Settles O30: SLEEP_MS and BEEP are their holds, and the signal that ends such a hold comes next, later
or not at all. -/
theorem sleepAndBeepEndOnTheirSignal : Obligations.SleepAndBeepEndOnTheirSignal := by
  refine ⟨fun s m rest hs hsched => ?sleep, fun s f d rest hs hsched => ?beep,
    fun s i h signal hi hr hs => ?timed⟩
  case sleep => exact congrArg _ ((Suspension.EndsOn.sleep m).suspend_signal_next hs hsched)
  case beep => exact congrArg _ ((Suspension.EndsOn.beep f d).suspend_signal_next hs hsched)
  case timed =>
    obtain ⟨hsig, hexec⟩ := timedHold_eq_some hi
    refine ⟨fun before rest hsched hno hnoshut => ?later, fun hno hnoshut => ?never, fun hh => ?again⟩
    case later =>
      rw [hexec, hsig.suspend_signal_later hr hs hsched hno hnoshut]
      exact ⟨_, rfl, s.onlyHostMovesIn_afterMovesIn before none rest, rfl, rfl⟩
    case never =>
      rw [hexec, hsig.suspend_no_signal hr hs hno hnoshut]
      exact ⟨_, rfl, s.onlyHostMovesIn_afterMovesIn s.schedule (some h) [], rfl, rfl⟩
    case again => rw [step_holding hr hh, hexec, finish]

end Sys2Proof.Machine
end

section
/-! PROOF. LOAD_REG, PUSH and POP: the register write of R225, and the two bytes a push and a pop move
between a register and the stack (R220, R221, R227, R228). -/

namespace Sys2Proof.Machine

/-! ### The stack primitives as a pair (R220, R221) -/

theorem toNat_sp_add {sp k : Word} (h : sp.toNat ≤ 255) (hk : k.toNat ≤ 2) :
    (sp + k).toNat = sp.toNat + k.toNat :=
  BitVec.toNat_add_of_lt (show sp.toNat + k.toNat < 2 ^ 16 by omega)

theorem stackAddr_add {sp k : Word} (h : sp.toNat ≤ 255) (hk : k.toNat ≤ 2) :
    stackAddr (sp + k) = stackAddr sp + k.toNat := by
  rw [stackAddr, stackAddr, toNat_sp_add h hk, Nat.add_assoc]

theorem State.toNat_sp_pushed {s : State} (h : 2 ≤ s.sp.toNat) (v : Word) :
    (s.pushed v).sp.toNat = s.sp.toNat - 2 :=
  BitVec.toNat_sub_of_le (show 2#16 ≤ s.sp from h)

theorem State.sp_pushed_add_two (s : State) (v : Word) : (s.pushed v).sp + 2#16 = s.sp :=
  BitVec.sub_add_cancel s.sp 2#16

/-- The two bytes a pop would take off after a push are the word pushed (R220, R221). -/
theorem State.topWord_pushed {s : State} (v : Word) (hm : s.ram.wf = true) (h1 : 2 ≤ s.sp.toNat)
    (h2 : s.sp.toNat ≤ 255) : (s.pushed v).topWord = v := by
  have hpred := stackAddr_pred h1
  have hhigh : (s.pushed v).sp + 1#16 = s.sp - 1#16 := by
    show s.sp - 2#16 + 1#16 = s.sp - 1#16
    bv_omega
  rw [State.topWord, State.sp_pushed_add_two, hhigh, State.read_pushed hm h2, State.read_pushed hm h2,
    if_neg (by omega), if_pos rfl, if_pos rfl, wordOf_lo_hi]

/-! ### PUSH and POP -/

theorem exec_push_good {s : State} {r : Byte} {v : Word} (hv : s.reg r = some v) :
    exec (.push r) s = s.push16 v := by
  simp only [exec, execPush, hv]

theorem exec_push_bad {r : Byte} (hr : 8 ≤ r.toNat) (s : State) : exec (.push r) s = .next s := by
  simp only [exec, execPush, State.reg_of_bad hr]

theorem exec_push_room {s : State} {r : Byte} {v : Word} (hv : s.reg r = some v)
    (h1 : 2 ≤ s.sp.toNat) (h2 : s.sp.toNat ≤ 255) : exec (.push r) s = .next (s.pushed v) :=
  (exec_push_good hv).trans (State.push16_room h1 h2 v)

/-- At `sp = 0` nothing is pushed, from a good register or a bad one (R220, R23). -/
theorem exec_push_drop {s : State} (h : s.sp = 0#16) (r : Byte) : exec (.push r) s = .next s := by
  obtain hr | hr := Nat.lt_or_ge r.toNat 8
  · obtain ⟨v, hv⟩ := s.exists_reg hr
    exact (exec_push_good hv).trans (State.push16_drop h v)
  · exact exec_push_bad hr s

theorem exec_pop_value {s : State} (h : s.sp.toNat ≤ 253) (r : Byte) :
    exec (.pop r) s = .next (State.setReg { s with sp := s.sp + 2#16 } r s.topWord) := by
  simp only [exec, execPop, State.pop16_value h]

/-- The word a pop takes off, from the bytes at its addresses: the high byte stands below (R221). -/
theorem State.toNat_topWord {s : State} (h : s.sp.toNat ≤ 255) :
    s.topWord.toNat =
      (s.ram.read (stackAddr s.sp + 1)).toNat * 256 + (s.ram.read (stackAddr s.sp + 2)).toNat := by
  have hhigh : stackAddr (s.sp + 1#16) = stackAddr s.sp + 1 := stackAddr_add h (by decide)
  have hlow : stackAddr (s.sp + 2#16) = stackAddr s.sp + 2 := stackAddr_add h (by decide)
  rw [State.topWord, toNat_wordOf, hhigh, hlow, Nat.mul_comm, Nat.add_comm]

/-! ### The statements -/

/-- Settles O36: LOAD_REG is one register write. -/
theorem loadRegWritesTheImmediate : Obligations.LoadRegWritesTheImmediate := by
  intro s r imm
  refine ⟨s.setReg r imm, rfl, fun hr => ?_, fun hr => State.setReg_bad hr imm, fun r' hne => ?_, rfl⟩
  · rw [State.reg_setReg, if_pos ⟨rfl, hr⟩]
  · rw [State.reg_setReg, if_neg fun h => hne h.1]

/-- Settles O40: with room PUSH leads to `State.pushed`, whose bytes are `State.read_pushed`; without
room it is the drop or the stop of the push itself. -/
theorem pushWritesLowByteFirst : Obligations.PushWritesLowByteFirst := by
  refine ⟨fun s r v hm hv h1 h2 => ?room, fun s r => ⟨fun hr => exec_push_bad hr s,
    fun h0 => exec_push_drop h0 r, fun hr h => ?split⟩⟩
  case room =>
    have hlow : 0xFF00 + s.sp.toNat = stackAddr s.sp := rfl
    have hpred : stackAddr (s.sp - 1#16) + 1 = stackAddr s.sp := stackAddr_pred h1
    have hhigh : stackAddr s.sp - 1 = stackAddr (s.sp - 1#16) := by omega
    rw [hlow, hhigh]
    refine ⟨s.pushed v, exec_push_room hv h1 h2, rfl, State.toNat_sp_pushed h1 v, ?_, ?_,
      fun a hnlow hnhigh => ?_⟩
    · rw [State.read_pushed hm h2, if_neg (by omega), if_pos rfl, toNat_loByte]
    · rw [State.read_pushed hm h2, if_pos rfl, toNat_hiByte]
    · rw [State.read_pushed hm h2, if_neg hnhigh, if_neg hnlow]
  case split =>
    obtain ⟨v, hv⟩ := s.exists_reg hr
    exact (exec_push_good hv).trans (State.push16_split h v)

/-- Settles O41: with two bytes to pop, POP is one register write of `State.topWord`. -/
theorem popReadsHighByteFirst : Obligations.PopReadsHighByteFirst := by
  refine ⟨fun s r h => ?value, fun s r => ⟨fun h => ?drop, fun h => ?split⟩⟩
  case value =>
    have hle : s.sp.toNat ≤ 255 := by omega
    refine ⟨_, exec_pop_value h r, rfl, toNat_sp_add hle (k := 2#16) (by decide),
      fun hr => ⟨s.topWord, ?_, State.toNat_topWord hle⟩, fun r' hkept => ?_⟩
    · rw [State.reg_setReg, if_pos ⟨rfl, hr⟩]
    · rw [State.reg_setReg, if_neg fun hw => hkept.elim (· hw.1) hw.2.not_ge]
      exact State.reg_congr rfl r'
  case drop => simp only [exec, execPop, State.pop16_drop h]
  case split => simp only [exec, execPop, State.pop16_split h]

/-- Settles O42: the word on top after the push is the word pushed, and the pop gives back the 2 that the
push took from `sp`. -/
theorem popUndoesPush : Obligations.PopUndoesPush := by
  intro s r r' v hm hv hr' h1 h2
  have hsp : (s.pushed v).sp.toNat ≤ 253 := by rw [State.toNat_sp_pushed h1]; omega
  refine ⟨_, _, exec_push_room hv h1 h2, exec_pop_value hsp r', ?_, s.sp_pushed_add_two v⟩
  rw [State.reg_setReg, if_pos ⟨rfl, hr'⟩, State.topWord_pushed v hm h1 h2]

end Sys2Proof.Machine
end

section
/-! PROOF. The ALU instructions: the one register each of them writes from its sources' old values (R240 to
R251), and the flags of CMP, which the conditional jumps test (R252, R270). -/

namespace Sys2Proof.Machine

/-! ### One register write -/

theorem State.reg_setReg_self {d : Byte} (hd : d.toNat < 8) (s : State) (v : Word) :
    (s.setReg d v).reg d = some v :=
  (s.reg_setReg d d v).trans (if_pos ⟨rfl, hd⟩)

theorem State.reg_setReg_of_ne {r d : Byte} (h : r ≠ d) (s : State) (v : Word) :
    (s.setReg d v).reg r = s.reg r :=
  (s.reg_setReg d r v).trans (if_neg fun hw => h hw.1)

/-- The three-register frame with good sources and a value to write is one register write (R240). -/
theorem State.alu3_of_value {s : State} {d s1 s2 : Byte} {a b v : Word} {f : Word → Word → Option Word}
    (h1 : s.reg s1 = some a) (h2 : s.reg s2 = some b) (hf : f a b = some v) :
    s.alu3 d s1 s2 f = s.setReg d v := by
  rw [State.alu3_of_regs h1 h2, hf]
  rfl

/-- The three-register frame writes nothing where `f` gives nothing (R244, R245). -/
theorem State.alu3_of_no_value {s : State} {d s1 s2 : Byte} {a b : Word}
    {f : Word → Word → Option Word} (h1 : s.reg s1 = some a) (h2 : s.reg s2 = some b)
    (hf : f a b = none) : s.alu3 d s1 s2 f = s := by
  rw [State.alu3_of_regs h1 h2, hf]
  rfl

/-! ### ADD to NOT (R241 to R249) -/

/-- Settles O43: each is the three-register frame, with the word operation that `BitVec` defines modulo
2^16. -/
theorem arithmeticIsModulo65536 : Obligations.ArithmeticIsModulo65536 := by
  intro s d s1 s2 a b h1 h2 hd
  have hsub : (a - b).toNat = (a.toNat + 0x10000 - b.toNat) % 65536 := by
    rw [BitVec.toNat_sub]
    omega
  exact ⟨s.setReg d (a + b), s.setReg d (a - b), s.setReg d (a * b), a + b, a - b, a * b,
    congrArg _ (State.alu3_of_value h1 h2 rfl), rfl, s.reg_setReg_self hd _, BitVec.toNat_add a b,
    congrArg _ (State.alu3_of_value h1 h2 rfl), rfl, s.reg_setReg_self hd _, hsub,
    congrArg _ (State.alu3_of_value h1 h2 rfl), rfl, s.reg_setReg_self hd _, BitVec.toNat_mul a b,
    fun r hr => ⟨s.reg_setReg_of_ne hr _, s.reg_setReg_of_ne hr _, s.reg_setReg_of_ne hr _⟩⟩

/-- Settles O44: with divisor 0 the frame has no value to write; with another it writes the quotient or
the remainder of the words as numbers. -/
theorem divisionIsUnsigned : Obligations.DivisionIsUnsigned := by
  intro s d s1 s2 a b h1 h2 hd
  refine ⟨fun hb => ?zero, fun hb => ?nonzero⟩
  case zero =>
    exact ⟨congrArg _ (State.alu3_of_no_value h1 h2 (if_pos hb)),
      congrArg _ (State.alu3_of_no_value h1 h2 (if_pos hb))⟩
  case nonzero =>
    exact ⟨s.setReg d (a / b), s.setReg d (a % b), a / b, a % b,
      congrArg _ (State.alu3_of_value h1 h2 (if_neg hb)), rfl, s.reg_setReg_self hd _, BitVec.toNat_udiv,
      congrArg _ (State.alu3_of_value h1 h2 (if_neg hb)), rfl, s.reg_setReg_self hd _, BitVec.toNat_umod,
      fun r hr => ⟨s.reg_setReg_of_ne hr _, s.reg_setReg_of_ne hr _⟩⟩

/-- NOT's exclusive or with 0xFFFF complements each bit (R249). -/
theorem getLsbD_xor_FFFF (a : Word) {k : Nat} (hk : k < 16) :
    (a ^^^ 0xFFFF#16).getLsbD k = !a.getLsbD k := by
  have hones : a ^^^ 0xFFFF#16 = ~~~a := BitVec.xor_allOnes
  rw [hones, BitVec.getLsbD_not, decide_eq_true hk, Bool.true_and]

/-- Settles O45: each is the three-register frame; NOT reads its one source twice. -/
theorem bitwiseInstrsWorkBitByBit : Obligations.BitwiseInstrsWorkBitByBit := by
  intro s d s1 s2 a b h1 h2 hd
  exact ⟨s.setReg d (a &&& b), s.setReg d (a ||| b), s.setReg d (a ^^^ b), s.setReg d (a ^^^ 0xFFFF#16),
    a &&& b, a ||| b, a ^^^ b, a ^^^ 0xFFFF#16,
    congrArg _ (State.alu3_of_value h1 h2 rfl), rfl, s.reg_setReg_self hd _,
    congrArg _ (State.alu3_of_value h1 h2 rfl), rfl, s.reg_setReg_self hd _,
    congrArg _ (State.alu3_of_value h1 h2 rfl), rfl, s.reg_setReg_self hd _,
    congrArg _ (State.alu3_of_value h1 h1 rfl), rfl, s.reg_setReg_self hd _,
    fun k hk => ⟨BitVec.getLsbD_and, BitVec.getLsbD_or, BitVec.getLsbD_xor, getLsbD_xor_FFFF a hk⟩,
    fun r hr => ⟨s.reg_setReg_of_ne hr _, s.reg_setReg_of_ne hr _, s.reg_setReg_of_ne hr _,
      s.reg_setReg_of_ne hr _⟩⟩

/-! ### SHL and SHR (R250, R251) -/

theorem shiftResult_large (config : Config) (op : ShiftOp) (v : Word) {c : Word} (h : 16 ≤ c.toNat) :
    shiftResult config op v c = shiftLarge config op v c :=
  if_neg h.not_gt

theorem toNat_shiftResult_shl (config : Config) (v : Word) {c : Word} (h : c.toNat < 16) :
    (shiftResult config .shl v c).toNat = v.toNat * 2 ^ c.toNat % 65536 := by
  rw [shiftResult, if_pos h, BitVec.toNat_shiftLeft, Nat.shiftLeft_eq]

theorem toNat_shiftResult_shr (config : Config) (v : Word) {c : Word} (h : c.toNat < 16) :
    (shiftResult config .shr v c).toNat = v.toNat / 2 ^ c.toNat := by
  rw [shiftResult, if_pos h, BitVec.toNat_ushiftRight, Nat.shiftRight_eq_div_pow]

/-- The default of `shift_large` (D7). -/
theorem shiftLarge_zero {config : Config} (h : config.shiftLarge = .zero) (op : ShiftOp) (v c : Word) :
    shiftLarge config op v c = 0#16 := by
  simp only [shiftLarge, h]

/-- Settles O46: both instructions write `shiftResult`, which the count's range decides. -/
theorem shiftsUseTheCountRegister : Obligations.ShiftsUseTheCountRegister := by
  intro s d a v c hv hc
  have hd : d.toNat < 8 := State.lt_of_reg hv
  refine ⟨s.setReg d (shiftResult s.config .shl v c), s.setReg d (shiftResult s.config .shr v c), _, _,
    congrArg _ (State.aluShift_of_regs hv hc), rfl, s.reg_setReg_self hd _,
    congrArg _ (State.aluShift_of_regs hv hc), rfl, s.reg_setReg_self hd _,
    fun hlt => ?small, fun hge => ?large, fun hge hzero => ?default, fun r hr => ?kept⟩
  case small => exact ⟨toNat_shiftResult_shl _ v hlt, toNat_shiftResult_shr _ v hlt⟩
  case large => exact ⟨shiftResult_large _ _ v hge, shiftResult_large _ _ v hge⟩
  case default =>
    exact ⟨(shiftResult_large _ _ v hge).trans (shiftLarge_zero hzero ..),
      (shiftResult_large _ _ v hge).trans (shiftLarge_zero hzero ..)⟩
  case kept => exact ⟨s.reg_setReg_of_ne hr _, s.reg_setReg_of_ne hr _⟩

/-! ### CMP and the jumps after it (R252, R270) -/

theorem exec_cmp_good {s : State} {s1 s2 : Byte} {a b : Word} (h1 : s.reg s1 = some a)
    (h2 : s.reg s2 = some b) : exec (.cmp s1 s2) s = .next { s with flags := cmpFlags a b } := by
  simp only [exec, execCmp, h1, h2]

theorem exec_cmp_bad {s : State} {s1 s2 : Byte} (h : 8 ≤ s1.toNat ∨ 8 ≤ s2.toNat) :
    exec (.cmp s1 s2) s =
      .next { s with flags := badCmpFlags s.flags s.draws, draws := s.draws + 1 } := by
  obtain h | h := h
  · simp only [exec, execCmp, State.reg_of_bad h]
  · cases h1 : s.reg s1 <;> simp only [exec, execCmp, h1, State.reg_of_bad h]

/-- Equal words are equal as numbers, so CMP compares numbers throughout (R252). -/
theorem cmpFlags_eq (a b : Word) : cmpFlags a b =
    if a.toNat = b.toNat then 0x01#8 else if b.toNat < a.toNat then 0x02#8 else 0x04#8 := by
  simp only [cmpFlags, BitVec.toNat_inj]

/-- Settles O48: the two answers of CMP, for good indexes and for a bad one. -/
theorem cmpSetsOneFlag : Obligations.CmpSetsOneFlag := by
  refine fun s s1 s2 => ⟨fun a b h1 h2 => ?good, fun h => ?bad⟩
  case good => rw [exec_cmp_good h1 h2, cmpFlags_eq]
  case bad => exact ⟨_, exec_cmp_bad h, badCmpFlags_cases s.flags s.draws, rfl⟩

/-- Z after a CMP (R30). -/
theorem cmpFlags_getLsbD_Z (a b : Word) :
    (cmpFlags a b).getLsbD 0 = decide (a.toNat = b.toNat) := by
  rw [cmpFlags_eq]
  split_ifs with heq hgt
  · exact (decide_eq_true heq).symm
  · exact (decide_eq_false heq).symm
  · exact (decide_eq_false heq).symm

/-- G after a CMP (R30). -/
theorem cmpFlags_getLsbD_G (a b : Word) :
    (cmpFlags a b).getLsbD 1 = decide (b.toNat < a.toNat) := by
  rw [cmpFlags_eq]
  split_ifs with heq hgt
  · exact (decide_eq_false heq.le.not_gt).symm
  · exact (decide_eq_true hgt).symm
  · exact (decide_eq_false hgt).symm

/-- L after a CMP (R30). -/
theorem cmpFlags_getLsbD_L (a b : Word) :
    (cmpFlags a b).getLsbD 2 = decide (a.toNat < b.toNat) := by
  rw [cmpFlags_eq]
  split_ifs with heq hgt
  · exact (decide_eq_false heq.not_lt).symm
  · exact (decide_eq_false hgt.not_gt).symm
  · exact (decide_eq_true (by omega)).symm

/-- A conditional jump on a bit that says whether `p` holds. -/
theorem State.jumpIf_of_decide {p : Prop} [Decidable p] {cond : Bool} (h : cond = decide p) (s : State)
    (t : Word) : s.jumpIf cond t = if p then s.jump t else s := by
  simp only [h, State.jumpIf, decide_eq_true_eq]

/-- Settles O50: each jump tests its own bit of the flags that CMP wrote. -/
theorem cmpThenJumpContract : Obligations.CmpThenJumpContract := by
  intro s s1 s2 a b t h1 h2
  have hnz : (!(cmpFlags a b).getLsbD 0) = decide (¬a.toNat = b.toNat) := by
    rw [cmpFlags_getLsbD_Z, decide_not]
  refine ⟨_, exec_cmp_good h1 h2, congrArg _ (State.jumpIf_of_decide (cmpFlags_getLsbD_Z a b) _ t),
    congrArg _ ((State.jumpIf_of_decide hnz _ t).trans (ite_not ..)),
    congrArg _ (State.jumpIf_of_decide (cmpFlags_getLsbD_G a b) _ t),
    congrArg _ (State.jumpIf_of_decide (cmpFlags_getLsbD_L a b) _ t)⟩

end Sys2Proof.Machine
end

section
/-! PROOF. The control transfers: the jumps on the flags as they stand (R270 to R275), and CALL and RET, a
push of `pc` and a pop into it with a jump after each (R276, R277). -/

namespace Sys2Proof.Machine

/-! ### The jumps (R270) -/

theorem State.jump_eq (s : State) (t : Word) : s.jump t = { s with pc := BitVec.ofNat 17 t.toNat } := by
  rw [BitVec.ofNat_toNat, State.jump]

/-- A conditional jump writes `pc` alone, and where it is not taken writes it as it was (R270). -/
theorem State.jumpIf_eq_of_decide {p : Prop} [Decidable p] {cond : Bool} (h : cond = decide p)
    (s : State) (t : Word) :
    s.jumpIf cond t = { s with pc := if p then BitVec.ofNat 17 t.toNat else s.pc } := by
  rw [State.jumpIf_of_decide h]
  split_ifs
  · exact s.jump_eq t
  · rfl

theorem State.flagZ_eq (s : State) : s.flagZ = decide (s.flags.toNat % 2 = 1) :=
  Nat.testBit_zero _

theorem State.flagG_eq (s : State) : s.flagG = decide (s.flags.toNat / 2 % 2 = 1) :=
  Nat.testBit_eq_decide_div_mod_eq (i := 1)

theorem State.flagL_eq (s : State) : s.flagL = decide (s.flags.toNat / 4 % 2 = 1) :=
  Nat.testBit_eq_decide_div_mod_eq (i := 2)

/-- Settles O49: each conditional jump tests the bit of `flags` that its flag is. -/
theorem jumpsFollowTheFlags : Obligations.JumpsFollowTheFlags := by
  intro s t
  have hnz : (!s.flagZ) = decide (s.flags.toNat % 2 = 0) := by
    rw [s.flagZ_eq, ← decide_not, decide_eq_decide]
    exact Nat.mod_two_ne_one
  exact ⟨congrArg _ (s.jump_eq t), congrArg _ (State.jumpIf_eq_of_decide s.flagZ_eq s t),
    congrArg _ (State.jumpIf_eq_of_decide hnz s t),
    congrArg _ (State.jumpIf_eq_of_decide s.flagG_eq s t),
    congrArg _ (State.jumpIf_eq_of_decide s.flagL_eq s t)⟩

/-! ### CALL (R276) -/

theorem exec_call_at_top {s : State} (h : memSize ≤ s.pc.toNat) (t : Word) :
    exec (.call t) s = .fault .callAtTop :=
  if_pos h

theorem exec_call_full {s : State} (hpc : s.pc.toNat < memSize) (h : s.sp.toNat ≤ 1) (t : Word) :
    exec (.call t) s = .fault .callStackFull :=
  (if_neg hpc.not_ge).trans (if_pos h)

theorem exec_call_room {s : State} (hpc : s.pc.toNat < memSize) (h1 : 2 ≤ s.sp.toNat)
    (h2 : s.sp.toNat ≤ 255) (t : Word) :
    exec (.call t) s = .next ((s.pushed (s.pc.setWidth 16)).jump t) := by
  have hfull : ¬ s.sp.toNat ≤ 1 := by omega
  simp only [exec, execCall, if_neg hpc.not_ge, if_neg hfull, State.push16_room h1 h2]

/-- The return address is the post-operand PC: below 0x10000 it loses nothing in 16 bits (R276). -/
theorem toNat_setWidth_pc {pc : BitVec 17} (h : pc.toNat < memSize) :
    (pc.setWidth 16).toNat = pc.toNat :=
  (BitVec.toNat_setWidth ..).trans (Nat.mod_eq_of_lt h)

/-- The low byte of a push, at its address as a number (R70, R220). -/
theorem State.toNat_read_pushed_low {s : State} (v : Word) (hm : s.ram.wf = true) (h1 : 2 ≤ s.sp.toNat)
    (h2 : s.sp.toNat ≤ 255) :
    ((s.pushed v).ram.read (0xFF00 + s.sp.toNat)).toNat = v.toNat % 256 := by
  have hlow : 0xFF00 + s.sp.toNat = stackAddr s.sp := rfl
  have hpred := stackAddr_pred h1
  rw [hlow, State.read_pushed hm h2, if_neg (by omega), if_pos rfl, toNat_loByte]

/-- The high byte of a push, one address below the low byte (R70, R220). -/
theorem State.toNat_read_pushed_high {s : State} (v : Word) (hm : s.ram.wf = true)
    (h1 : 2 ≤ s.sp.toNat) (h2 : s.sp.toNat ≤ 255) :
    ((s.pushed v).ram.read (0xFF00 + s.sp.toNat - 1)).toNat = v.toNat / 256 := by
  have hhigh : 0xFF00 + s.sp.toNat - 1 = stackAddr (s.sp - 1#16) :=
    (Nat.eq_sub_of_add_eq (stackAddr_pred h1)).symm
  rw [hhigh, State.read_pushed hm h2, if_pos rfl, toNat_hiByte]

/-- Settles O51: CALL with room is a push of the post-operand PC and a jump, which keeps the bytes the
push wrote. -/
theorem callPushesTheReturnAddress : Obligations.CallPushesTheReturnAddress := by
  intro s t
  refine ⟨fun hm hpc h1 h2 => ?room, fun htop => ?top, fun hpc hfull => exec_call_full hpc hfull t⟩
  case room =>
    refine ⟨_, exec_call_room hpc h1 h2 t, rfl, BitVec.toNat_setWidth_of_le (by decide),
      State.toNat_sp_pushed h1 (s.pc.setWidth 16), ?_, ?_, fun a hnlow hnhigh => ?_⟩
    · rw [State.jump_ram, State.toNat_read_pushed_low _ hm h1 h2, toNat_setWidth_pc hpc]
    · rw [State.jump_ram, State.toNat_read_pushed_high _ hm h1 h2, toNat_setWidth_pc hpc]
    · have hlow : 0xFF00 + s.sp.toNat = stackAddr s.sp := rfl
      have hpred := stackAddr_pred h1
      exact State.read_pushed_outside hm h1 h2 (by omega)
  case top => exact exec_call_at_top (by rw [htop]; decide) t

/-! ### RET (R277) -/

theorem exec_ret_value {s : State} (h : s.sp.toNat ≤ 253) :
    exec .ret s = .next (State.jump { s with sp := s.sp + 2#16 } s.topWord) := by
  simp only [exec, execRet, State.pop16_value h]

/-- Settles O52: with two bytes to pop, RET jumps to `State.topWord`. -/
theorem retPopsThePc : Obligations.RetPopsThePc := by
  refine ⟨fun s h => ?value, fun s h => ?drop, fun s h => ?split⟩
  case value =>
    have hle : s.sp.toNat ≤ 255 := by omega
    exact ⟨_, exec_ret_value h, rfl, toNat_sp_add hle (k := 2#16) (by decide),
      (BitVec.toNat_setWidth_of_le (by decide)).trans (State.toNat_topWord hle)⟩
  case drop => simp only [exec, execRet, State.pop16_drop h]
  case split => simp only [exec, execRet, State.pop16_split h]

/-- A `pc` below 0x10000 comes back from a 16-bit word as it was (R276). -/
theorem setWidth_setWidth_pc {pc : BitVec 17} (h : pc.toNat < memSize) :
    (pc.setWidth 16).setWidth 17 = pc :=
  BitVec.eq_of_toNat_eq <| (BitVec.toNat_setWidth_of_le (by decide)).trans (toNat_setWidth_pc h)

/-- Settles O53: the word on top after the CALL is the post-operand PC, whatever `pc` is by then, and the
pop gives back the 2 that the push took from `sp`. -/
theorem retUndoesCall : Obligations.RetUndoesCall := by
  intro s t there hm hpc h1 h2
  have hsp : (s.pushed (s.pc.setWidth 16)).sp.toNat ≤ 253 := by rw [State.toNat_sp_pushed h1]; omega
  have htop : (s.pushed (s.pc.setWidth 16)).topWord = s.pc.setWidth 16 := State.topWord_pushed _ hm h1 h2
  exact ⟨_, _, exec_call_room hpc h1 h2 t, exec_ret_value hsp,
    (congrArg (BitVec.setWidth 17) htop).trans (setWidth_setWidth_pc hpc),
    s.sp_pushed_add_two (s.pc.setWidth 16)⟩

end Sys2Proof.Machine
end

section
/-! PROOF. READ_CHAR: the keys that arrive during its hold, the CORE's look at the mailbox that lifts it,
and the hold that no key ends (R290, R291). -/

namespace Sys2Proof.Machine

/-- The key alphabet `K` as bytes (R290). -/
theorem keyCode_mem_alphabet (k : Key) :
    (0x20 ≤ (keyCode k).toNat ∧ (keyCode k).toNat ≤ 0x7E) ∨
      (keyCode k).toNat = 0x0A ∨ (keyCode k).toNat = 0x08 := by
  cases k with
  | printable n =>
    have hn : (keyCode (.printable n)).toNat = 0x20 + n.val :=
      (BitVec.toNat_ofNat ..).trans (Nat.mod_eq_of_lt (by omega))
    omega
  | newline => exact .inr (.inl rfl)
  | backspace => exact .inr (.inr rfl)

/-! ### The hold of READ_CHAR -/

/-- A key event alone does not lift the hold: the CORE has to look at the mailbox (R290, R330). -/
theorem holdLoop_readChar_key {s : State} (hs : s.shutdown = false) (r : Byte) (seq0 : Nat) (k : Key)
    (rest : List Turn) :
    holdLoop (.readChar r seq0) (.host (.keyEvent k) :: rest) s =
      holdLoop (.readChar r seq0) rest (applyMove (.keyEvent k) s) := by
  simp [holdLoop, applyMove, lifts, hs]

/-- Of consecutive keys the mailbox keeps the last one, and it counts them all (R42). -/
theorem holdLoop_readChar_keys {s : State} (hs : s.shutdown = false) (r : Byte) (seq0 : Nat)
    (earlier : List Key) (k : Key) (rest : List Turn) :
    holdLoop (.readChar r seq0)
        (earlier.map (fun e => Turn.host (.keyEvent e)) ++ .host (.keyEvent k) :: rest) s =
      holdLoop (.readChar r seq0) rest
        { s with keySlot := keyCode k, keySeq := s.keySeq + earlier.length + 1 } := by
  induction earlier generalizing s with
  | nil => exact holdLoop_readChar_key hs r seq0 k rest
  | cons e es ih =>
    have hseq : (applyMove (.keyEvent e) s).keySeq + es.length = s.keySeq + (e :: es).length :=
      Nat.succ_add ..
    rw [List.map_cons, List.cons_append, holdLoop_readChar_key hs,
      ih (s := applyMove (.keyEvent e) s) hs, hseq]
    rfl

/-- On its own turn the CORE takes a key that arrived since `seq0` (R290). -/
theorem holdLoop_readChar_look {s : State} {seq0 : Nat} (hk : s.keySeq ≠ seq0) (r : Byte)
    (rest : List Turn) :
    holdLoop (.readChar r seq0) (.core :: rest) s = (s.endHold rest).takeKey r := by
  simp [holdLoop, keyArrived, afterHold, hk]

/-- Settles O32: the keys change `key_seq`, so the CORE's look takes the last of them. -/
theorem readCharTakesTheLastArrivedKey : Obligations.ReadCharTakesTheLastArrivedKey := by
  intro s r earlier k rest hs hsched
  have hseq : s.keySeq + earlier.length + 1 ≠ s.keySeq := by omega
  have hexec : exec (.readChar r) s = .next (State.takeKey
      { s with keySlot := keyCode k, keySeq := s.keySeq + earlier.length + 1,
               hold := none, schedule := rest } r) := by
    rw [exec, execReadChar, State.suspend_of_not_shutdown hs, hsched, holdLoop_readChar_keys hs,
      holdLoop_readChar_look hseq, State.endHold]
  have hcode : ((keyCode k).setWidth 16).toNat = (keyCode k).toNat :=
    BitVec.toNat_setWidth_of_le (by decide)
  refine ⟨_, hexec, fun hgood => ⟨(keyCode k).setWidth 16, State.reg_setReg_self hgood _ _, hcode, ?key⟩,
    fun r' hne => State.reg_setReg_of_ne hne _ _, rfl⟩
  case key => exact hcode ▸ keyCode_mem_alphabet k

/-- A READ_CHAR whose `seq0` is still `key_seq` goes on holding where no turn is left (R290). -/
theorem State.suspend_readChar_no_turn {s : State} (hs : s.shutdown = false) (hsched : s.schedule = [])
    (r : Byte) :
    s.suspend (.readChar r s.keySeq) = { s with hold := some (.readChar r s.keySeq) } := by
  rw [State.suspend_of_not_shutdown hs, hsched]
  simp [holdLoop, holdAtEnd, keyArrived, ← hsched]

/-- A step takes such a hold up again with the same `seq0`, and a machine that holds passes the loop test. -/
theorem step_holding_readChar {s : State} {r : Byte} (hr : s.running = true) (hs : s.shutdown = false)
    (hsched : s.schedule = []) (hh : s.hold = some (.readChar r s.keySeq)) : step s = .next s := by
  have hsame : s.suspend (.readChar r s.keySeq) = s := by
    rw [State.suspend_readChar_no_turn hs hsched, ← hh]
  rw [step_holding hr hh, hsame, State.loopTest, hh]
  simp

/-- Settles O33: no turn is left when the instruction begins, and none when a step takes its hold up. -/
theorem readCharHoldsWithoutAKey : Obligations.ReadCharHoldsWithoutAKey := fun _ r hr hs hsched =>
  ⟨congrArg _ (State.suspend_readChar_no_turn hs hsched r), step_holding_readChar hr hs hsched rfl⟩

end Sys2Proof.Machine
end

section
/-! PROOF. The memory accesses with a bad register index (R300), and the copy with room, which reads every
byte before it writes any (R303). -/

namespace Sys2Proof.Machine

theorem State.storeWord_bad_room {r : Byte} {addr : Word} (hr : 8 ≤ r.toNat) (ha : addr.toNat ≤ 0xFFFE)
    (s : State) : s.storeWord addr r = .next s := by
  have hne : addr ≠ 0xFFFF#16 := by
    rintro rfl
    exact absurd ha (by decide)
  simp only [State.storeWord, State.reg_of_bad hr, if_neg hne]

theorem State.storeWord_bad_top {r : Byte} (hr : 8 ≤ r.toNat) (s : State) :
    s.storeWord 0xFFFF#16 r = .fault .badRegAndRange := by
  simp only [State.storeWord, State.reg_of_bad hr, if_true]

theorem exec_loadMem_bad_room {r : Byte} {addr : Word} (hr : 8 ≤ r.toNat) (ha : addr.toNat ≤ 0xFFFE)
    (s : State) : exec (.loadMem r addr) s = .next s := by
  rw [exec_loadMem_room s r ha, State.setReg_bad hr]

theorem exec_loadMem_bad_top {r : Byte} (hr : 8 ≤ r.toNat) (s : State) :
    exec (.loadMem r 0xFFFF#16) s = .fault .badRegAndRange := by
  simp only [exec, execLoadMem, hr, true_and, if_true]

/-- Settles O39: below 0xFFFF the bad index only skips its register or its store, and at 0xFFFF each
meaning tests for the two together. -/
theorem badRegisterWithAnAddress : Obligations.BadRegisterWithAnAddress := by
  rintro s r addr i hr (rfl | hstoreMem | hstoreReg)
  · exact ⟨fun ha => exec_loadMem_bad_room hr ha s, fun ha => ha ▸ exec_loadMem_bad_top hr s⟩
  · rw [exec_store (.inr hstoreMem)]
    exact ⟨fun ha => State.storeWord_bad_room hr ha s, fun ha => ha ▸ State.storeWord_bad_top hr s⟩
  · rw [exec_store (.inl hstoreReg)]
    exact ⟨fun ha => State.storeWord_bad_room hr ha s, fun ha => ha ▸ State.storeWord_bad_top hr s⟩

theorem exec_copyMem_room {src dst len : Word} (hsrc : src.toNat + len.toNat ≤ memSize)
    (hdst : dst.toNat + len.toNat ≤ memSize) (s : State) :
    exec (.copyMem src dst len) s = .next (s.copyBytes src.toNat dst.toNat len.toNat) := by
  have hroom : (inBounds src len.toNat && inBounds dst len.toNat) = true := by
    rw [Bool.and_eq_true, inBounds_iff, inBounds_iff]
    exact ⟨hsrc, hdst⟩
  simp only [exec, execCopyMem, if_pos hroom]

/-- Settles O55: a copy with room is `State.copyBytes`, whose every byte comes from the memory before it. -/
theorem copyMemReadsBeforeItWrites : Obligations.CopyMemReadsBeforeItWrites := by
  intro s src dst len hm hsrc hdst
  refine ⟨_, exec_copyMem_room hsrc hdst s, rfl, fun k hk => ?copied, fun a ha => ?outside⟩
  case copied => rw [State.read_copyBytes hm hdst, if_pos (by omega), Nat.add_sub_cancel_left]
  case outside => rw [State.read_copyBytes hm hdst, if_neg (by omega)]

end Sys2Proof.Machine
end

section
/-! PROOF. The loader, the CORE's only reset: what it sets (R360, R45), what it refuses (R361), and the
invariant where it leads (70_reset_and_hazards.md section 1). -/

namespace Sys2Proof.Machine

theorem Memory.read_ofBytes_zero {bytes : List Byte} (h : bytes.length ≤ memSize) (a : Nat) :
    (Memory.ofBytes 0 bytes).read a = if h : a < bytes.length then bytes[a] else 0#8 := by
  rw [Memory.read_ofBytes ((Nat.zero_add _).trans_le h), if_pos a.zero_le, Nat.sub_zero,
    List.getD_getElem?]

/-- The opcode 0x00 is HALT, whatever bytes come after it (R99). -/
theorem State.decode_fetchBytes_halt {s : State} (hp : s.pc.toNat < memSize)
    (hop : s.ram.read s.pc.toNat = 0x00#8) : ∃ rest, decode s.fetchBytes = .instr .halt rest := by
  obtain ⟨bs, hbs⟩ := State.fetchBytes_eq_cons hp
  rw [hbs, hop]
  exact ⟨bs, rfl⟩

/-- Settles O10: a load writes every machine element out, and the byte it leaves at address 0 when there
is none to place is the opcode of HALT. -/
theorem loadSetsEveryElement : Obligations.LoadSetsEveryElement := by
  refine ⟨fun s blob hr => State.load_running hr blob, fun s blob hr hlen => ?_⟩
  refine ⟨_, (State.load_stopped hr blob).trans (if_neg hlen.not_gt),
    fun a _ => Memory.read_ofBytes_zero hlen a, fun r hgood => ?registers, rfl, rfl,
    rfl, rfl, rfl, rfl, rfl, rfl, rfl, rfl, rfl, rfl, rfl, rfl, rfl, rfl, rfl, fun hempty => ?empty⟩
  case registers => exact Vector.getElem?_replicate_of_lt hgood
  case empty =>
    subst hempty
    exact State.decode_fetchBytes_halt (Nat.zero_lt_succ _) rfl

/-- Settles O11: the rejected load is a host move without effect, and a step of the stopped machine makes
no more than its host moves. -/
theorem loadTooLargeChangesNothing : Obligations.LoadTooLargeChangesNothing := by
  intro s blob hr hlen
  have hload : s.load blob = .errTooLarge := (State.load_stopped hr blob).trans (if_pos hlen)
  have hmove : applyMove (.load blob) s = s := by simp only [applyMove, hload]
  refine ⟨hload, hmove, fun hsched => ?_⟩
  have hturns : s.hostTurns = { s with schedule := [] } := by
    rw [State.hostTurns_stopped hr, hsched, applyTurns, hmove, applyTurns]
  rw [step_stopped (hturns ▸ hr), hturns]

/-- Settles O12: the state after reset is where a load of no bytes leads, and every load leads to a state
that meets the invariant. -/
theorem resetMeetsTheInvariant : Obligations.ResetMeetsTheInvariant :=
  State.inv_load State.load_powerOn

end Sys2Proof.Machine
end

section
/-! PROOF. The shutdown flag: a suspension point that meets it ends the run, on arrival or during its
hold, and leaves it clear when it ends in any other way (R333, R330); no other instruction looks at it. -/

namespace Sys2Proof.Machine

/-! ### Suspension points (R330, R333) -/

/-- A suspension point does nothing but hold, and no key has arrived when it begins (R290). -/
theorem exec_suspension {i : Instr} (hi : isSuspension i = true) (s : State) :
    ∃ h, exec i s = .next (s.suspend h) ∧ keyArrived h s = false := by
  cases i with
  | sleepMs m => exact ⟨.sleep m, rfl, rfl⟩
  | beep f d => exact ⟨.beep f d, rfl, rfl⟩
  | readChar r => exact ⟨.readChar r s.keySeq, rfl, bne_self_eq_false _⟩
  | _ => cases hi

theorem State.suspend_of_shutdown {s : State} (hs : s.shutdown = true) (h : Suspension) :
    s.suspend h = s.stop .shutdown := by
  simp only [State.suspend, hs, if_true]

/-- The CORE's own turns before the event bring no key, so the event meets the hold (R333). -/
theorem holdLoop_waits_shutdown {h : Suspension} {s : State} (hk : keyArrived h s = false) (waits : Nat)
    (rest : List Turn) :
    holdLoop h (List.replicate waits .core ++ .host .shutdown :: rest) s =
      State.stop { s with shutdown := true, schedule := rest } .shutdown := by
  induction waits with
  | zero => rfl
  | succ n ih =>
    rw [List.replicate_succ, List.cons_append, holdLoop, if_neg (hk ▸ Bool.false_ne_true)]
    exact ih

/-- From `s` to `t` a hold has ended the run with SHUTDOWN, after host moves that led to `u`. -/
def State.EndsWithShutdown (s t : State) : Prop :=
  ∃ u, s.HostOnly u ∧ ∃ rest, t = State.stop { u with schedule := rest } .shutdown

@[simp] theorem afterHold_shutdown (h : Suspension) (s : State) :
    (afterHold h s).shutdown = s.shutdown := by
  cases h <;> rfl

/-- A hold that leaves the flag set has seen it on the host event that set it (R333). -/
theorem holdLoop_endsWithShutdown {h : Suspension} {turns : List Turn} {s : State}
    (hr : s.running = true) (hs : s.shutdown = false) (ht : (holdLoop h turns s).shutdown = true) :
    s.EndsWithShutdown (holdLoop h turns s) := by
  induction turns generalizing s with
  | nil =>
    simp only [holdLoop, holdAtEnd] at ht
    split_ifs at ht <;> simp [hs] at ht
  | cons turn rest ih =>
    cases turn with
    | core =>
      simp only [holdLoop] at ht ⊢
      split_ifs at ht ⊢
      · simp [hs] at ht
      · exact ih hr hs ht
    | host m =>
      have hmove : s.HostOnly (applyMove m s) := applyMove_running hr m
      simp only [holdLoop] at ht ⊢
      split_ifs at ht ⊢ with hset
      · exact ⟨_, hmove, rest, rfl⟩
      · exact absurd ((afterHold_shutdown h _).symm.trans ht) hset
      · obtain ⟨u, hu, hend⟩ := ih (hmove.running.trans hr) (Bool.not_eq_true _ ▸ hset) ht
        exact ⟨u, hmove.trans hu, hend⟩

theorem State.suspend_endsWithShutdown {s : State} {h : Suspension} (hr : s.running = true)
    (ht : (s.suspend h).shutdown = true) : s.EndsWithShutdown (s.suspend h) := by
  cases hs : s.shutdown with
  | true => exact ⟨s, .refl s, s.schedule, State.suspend_of_shutdown hs h⟩
  | false =>
    rw [State.suspend_of_not_shutdown hs] at ht ⊢
    exact holdLoop_endsWithShutdown hr hs ht

@[simp] theorem State.loopTest_shutdown (s : State) : s.loopTest.shutdown = s.shutdown := by
  obtain ⟨-, -, -, h⟩ | ⟨-, h⟩ := s.loopTest_cases <;> rw [h]
  rfl

/-- A step of a machine that holds takes the hold up again, and the loop test keeps its SHUTDOWN. -/
theorem step_holding_endsWithShutdown {s t : State} (hr : s.running = true) (hh : s.hold ≠ none)
    (ht : step s = .next t) (hset : t.shutdown = true) : s.EndsWithShutdown t := by
  obtain ⟨h, hh⟩ := Option.ne_none_iff_exists'.1 hh
  rw [step_holding hr hh] at ht
  cases ht
  rw [State.loopTest_shutdown] at hset
  obtain ⟨u, hu, rest, hend⟩ := State.suspend_endsWithShutdown hr hset
  rw [hend, State.loopTest_stop]
  exact ⟨u, hu, rest, rfl⟩

/-- The host's moves of a hold write no cell and do not move the cursor (R340). -/
theorem State.HostOnly.text {s u : State} (h : s.HostOnly u) :
    u.surface.cells = s.surface.cells ∧ u.surface.cursorX = s.surface.cursorX ∧
      u.surface.cursorY = s.surface.cursorY := by
  obtain h | h := h.surface <;> rw [h]
  · exact ⟨rfl, rfl, rfl⟩
  · exact ⟨rfl, rfl, rfl⟩

/-! ### Every other instruction -/

/-- The state with the flag as given. -/
def State.setShutdown (s : State) (b : Bool) : State := { s with shutdown := b }

/-- An answer, with the flag as given in its next state if it has one. -/
def Result.setShutdown (r : Result) (b : Bool) : Result :=
  match r with
  | .next s => .next (s.setShutdown b)
  | .fault f => .fault f
  | .refused f => .refused f

section

variable (s : State) (b : Bool)

@[simp] theorem State.setShutdown_sp : (s.setShutdown b).sp = s.sp := rfl
@[simp] theorem State.setShutdown_pc : (s.setShutdown b).pc = s.pc := rfl
@[simp] theorem State.setShutdown_reg (r : Byte) : (s.setShutdown b).reg r = s.reg r := rfl

theorem State.alu3_setShutdown (d s1 s2 : Byte) (f : Word → Word → Option Word) :
    (s.setShutdown b).alu3 d s1 s2 f = (s.alu3 d s1 s2 f).setShutdown b := by
  simp only [State.alu3, State.setShutdown_reg]
  split
  · split <;> rfl
  · rfl

theorem State.aluShift_setShutdown (op : ShiftOp) (d a : Byte) :
    (s.setShutdown b).aluShift op d a = (s.aluShift op d a).setShutdown b := by
  simp only [State.aluShift, State.setShutdown_reg]
  split <;> rfl

theorem State.jumpIf_setShutdown (cond : Bool) (t : Word) :
    (s.setShutdown b).jumpIf cond t = (s.jumpIf cond t).setShutdown b := by
  cases cond <;> rfl

theorem State.push16_setShutdown (v : Word) :
    (s.setShutdown b).push16 v = (s.push16 v).setShutdown b := by
  simp only [State.push16, apply_ite (Result.setShutdown · b)]
  rfl

/-- A pop's answer, with the flag as given in its state if it has one. -/
def Popped.setShutdown (p : Popped) (b : Bool) : Popped :=
  match p with
  | .dropped => .dropped
  | .value v s => .value v (s.setShutdown b)
  | .unspecified f => .unspecified f

theorem State.pop16_setShutdown : (s.setShutdown b).pop16 = s.pop16.setShutdown b := by
  simp only [State.pop16, apply_ite (Popped.setShutdown · b)]
  rfl

theorem State.storeWord_setShutdown (addr : Word) (r : Byte) :
    (s.setShutdown b).storeWord addr r = (s.storeWord addr r).setShutdown b := by
  simp only [State.storeWord, State.setShutdown_reg, State.memWrite_two]
  cases s.reg r <;> split_ifs <;> rfl

theorem execCmp_setShutdown (s1 s2 : Byte) :
    execCmp s1 s2 (s.setShutdown b) = (execCmp s1 s2 s).setShutdown b := by
  simp only [execCmp, State.setShutdown_reg]
  split <;> rfl

theorem execPush_setShutdown (r : Byte) :
    execPush r (s.setShutdown b) = (execPush r s).setShutdown b := by
  simp only [execPush, State.setShutdown_reg]
  cases s.reg r with
  | none => rfl
  | some v => exact s.push16_setShutdown b v

theorem execPop_setShutdown (r : Byte) :
    execPop r (s.setShutdown b) = (execPop r s).setShutdown b := by
  simp only [execPop, State.pop16_setShutdown]
  cases s.pop16 <;> rfl

theorem execRet_setShutdown : execRet (s.setShutdown b) = (execRet s).setShutdown b := by
  simp only [execRet, State.pop16_setShutdown]
  cases s.pop16 <;> rfl

theorem execCall_setShutdown (t : Word) :
    execCall t (s.setShutdown b) = (execCall t s).setShutdown b := by
  simp only [execCall, State.setShutdown_pc, State.setShutdown_sp, State.push16_setShutdown]
  split_ifs
  · rfl
  · rfl
  · cases s.push16 (s.pc.setWidth 16) <;> rfl

theorem execLoadMem_setShutdown (r : Byte) (addr : Word) :
    execLoadMem r addr (s.setShutdown b) = (execLoadMem r addr s).setShutdown b := by
  simp only [execLoadMem, State.memRead_two]
  split_ifs <;> rfl

theorem execCopyMem_setShutdown (src dst len : Word) :
    execCopyMem src dst len (s.setShutdown b) = (execCopyMem src dst len s).setShutdown b := by
  simp only [execCopyMem]
  split_ifs <;> rfl

/-- An instruction that is no suspension point does the same with the flag set or clear. -/
theorem exec_setShutdown {i : Instr} (hi : isSuspension i = false) :
    exec i (s.setShutdown b) = Result.setShutdown (exec i s) b := by
  cases i with
  | sleepMs | beep | readChar => cases hi
  | add | sub | mul | div | mod | and | or | xor | not =>
    exact congrArg _ (s.alu3_setShutdown b _ _ _ _)
  | shl | shr => exact congrArg _ (s.aluShift_setShutdown b _ _ _)
  | cmp s1 s2 => exact execCmp_setShutdown s b s1 s2
  | jz | jnz | jg | jl => exact congrArg _ (s.jumpIf_setShutdown b _ _)
  | push r => exact execPush_setShutdown s b r
  | pop r => exact execPop_setShutdown s b r
  | call t => exact execCall_setShutdown s b t
  | ret => exact execRet_setShutdown s b
  | storeReg | storeMem => exact s.storeWord_setShutdown b _ _
  | loadMem r addr => exact execLoadMem_setShutdown s b r addr
  | copyMem src dst len => exact execCopyMem_setShutdown s b src dst len
  | _ => rfl

end

/-- Settles O31: on arrival the flag itself ends the run, and during a hold the event that sets it; any
other way on leaves the flag clear, and the other meanings only carry it along. -/
theorem shutdownEndsTheRunAtSuspensionPoints : Obligations.ShutdownEndsTheRunAtSuspensionPoints := by
  refine ⟨fun s i hi hs => ?arrival, fun s i waits rest hi hs hsched => ?event,
    fun s t hr hstep hset => ?seen, fun s t i hi ht => ?others⟩
  case arrival =>
    obtain ⟨h, hexec, -⟩ := exec_suspension hi s
    rw [hexec, State.suspend_of_shutdown hs, State.stop]
  case event =>
    obtain ⟨h, hexec, hk⟩ := exec_suspension hi s
    rw [hexec, State.suspend_of_not_shutdown hs, hsched, holdLoop_waits_shutdown hk, State.stop]
  case seen =>
    have hend : s.EndsWithShutdown t := by
      obtain ⟨i, hi, hexec⟩ | ⟨hh, hstep⟩ := hstep
      · obtain ⟨h, hexec', -⟩ := exec_suspension hi s
        cases hexec'.symm.trans hexec
        exact State.suspend_endsWithShutdown hr hset
      · exact step_holding_endsWithShutdown hr hh hstep hset
    obtain ⟨u, hu, rest, rfl⟩ := hend
    exact ⟨rfl, rfl, rfl, hu.pc, hu.regs, hu.ram, hu.sp, hu.flags, hu.text⟩
  case others =>
    exact (exec_setShutdown (s.setShutdown false) true hi).trans
      (congrArg (Result.setShutdown · true) ht)

end Sys2Proof.Machine
end
